-- ==== Sys2Proof/Word.lean ====
section
/-! DEFINITION. The word types of TTC-PKE: a byte, a 32-bit host word and command word, a byte string (00_scope.md R9, R11). -/

namespace Sys2Proof

/-- A byte, 0..255 (00_scope.md R11). -/
abbrev Byte := BitVec 8

/-- A 32-bit word: a command word, a host register, the data of a 32-bit bus access (00_scope.md R9). -/
abbrev Word := BitVec 32

/-- A byte string: a finite sequence of bytes indexed from 0 (00_scope.md R11). -/
abbrev Bytes := List Byte

/-- A host bus byte address, ADDR_BITS = 17 (20_memory.md R60). -/
abbrev BusAddr := BitVec 17

end Sys2Proof
end

