-- ==== Sys2Proof/Syntax.lean ====
section
/-! DEFINITION. The command set TTC-PKE-CMD version 1 as syntax: one constructor per row of the opcode map (30_encoding.md R95), its fields decoded (R93). -/

namespace Sys2Proof

/-- A big register number, the 4-bit fields RD, RS1, RS2, RS3 (30_encoding.md R93; 10_state.md R21). -/
abbrev RegIdx := BitVec 4

/-- A hash identifier, the 4-bit field HID; support is tested at execution (30_encoding.md R93; 43_hash_mgf1.md R185). -/
abbrev HashId := BitVec 4

/-- A key slot, the 1-bit field KS (10_state.md R25). -/
inductive Slot where
  | k0
  | k1
deriving DecidableEq, Repr

/-- A key component, the field COMP: 0 = n, 1 = e, 2 = d, 3 = p, 4 = q (10_state.md R25). -/
inductive Comp where
  | n
  | e
  | d
  | p
  | q
deriving DecidableEq, Repr

/-- The 35 commands of the opcode map (30_encoding.md R95), with the operands of the assembler syntax (R105). -/
inductive Instr where
  | nop
  | add (rd rs1 rs2 : RegIdx)
  | sub (rd rs1 rs2 : RegIdx)
  | mul (rd rs1 rs2 : RegIdx)
  | div (rd rs1 rs2 : RegIdx)
  | rem (rd rs1 rs2 : RegIdx)
  | neg (rd rs1 : RegIdx)
  | mov (rd rs1 : RegIdx)
  | ldi (rd : RegIdx) (imm : BitVec 22)
  | cmp (rs1 rs2 : RegIdx)
  | bitlen (rd rs1 : RegIdx)
  | modred (rd rs1 rs2 : RegIdx)
  | modmul (rd rs1 rs2 rs3 : RegIdx)
  | modexp (rd rs1 rs2 rs3 : RegIdx)
  | gcd (rd rs1 rs2 : RegIdx)
  | xgcd (rd rs1 rs2 : RegIdx)
  | modinv (rd rs1 rs2 : RegIdx)
  | mrtest (rs1 : RegIdx)
  | rndb
  | rndbelow (rd rs1 : RegIdx)
  | rndodd (rd : RegIdx) (imm : BitVec 22)
  | ldb (rd : RegIdx)
  | stb (rs1 : RegIdx)
  | stbm (rs1 : RegIdx)
  | hash (hid : HashId)
  | mgf1 (hid : HashId)
  | kset (ks : Slot) (comp : Comp) (rs1 : RegIdx)
  | kget (rd : RegIdx) (ks : Slot) (comp : Comp)
  | kclr (ks : Slot)
  | kchk (ks : Slot)
  | kpub (ks : Slot)
  | oaepenc (hid : HashId) (ks : Slot)
  | oaepdec (hid : HashId) (ks : Slot)
  /-- `sh` is the field SH: true = salt length hLen, false = salt length ARG5 (46_pss.md R246). -/
  | psssign (hid : HashId) (ks : Slot) (sh : Bool)
  | pssver (hid : HashId) (ks : Slot) (sh : Bool)
deriving DecidableEq, Repr

end Sys2Proof
end

