-- ==== Sys2Proof/WellFormed.lean ====
section
/-! DEFINITION. The one check on a command that its syntax does not already make: XGCD's three destinations RD, RD+1, RD+2 must exist (30_encoding.md R98). A component index above 4 and a nonzero unused field have no syntax; the decoder refuses them. -/

namespace Sys2Proof

/-- The commands that have an encoding: XGCD needs RD <= 13 (30_encoding.md R98), every other command any fields. -/
def Instr.wellFormed : Instr → Bool
  | .xgcd rd _ _ => decide (rd.toNat ≤ 13)
  | _ => true

end Sys2Proof
end

