-- ==== Sys2Proof/Decode.lean ====
section
/-! DEFINITION. The decoder and the encoder of command words (30_encoding.md R90..R101). Decoding is total: a word selects one command or is refused by name; the engine completes a refused word with ILLEGAL_CMD (R97, R98, R100). -/

namespace Sys2Proof

/-- Why a word is no command (each completes with ILLEGAL_CMD). -/
inductive DecodeError where
  /-- The opcode is not in the opcode map (30_encoding.md R97). -/
  | reservedOpcode
  /-- A field the opcode does not use, or RSV, is not 0 (30_encoding.md R94, R98). -/
  | nonzeroUnusedField
  /-- XGCD with RD > 13 (30_encoding.md R98). -/
  | xgcdDestination
  /-- KSET or KGET with COMP > 4 (30_encoding.md R98). -/
  | unknownComponent
deriving DecidableEq, Repr

/-- OP, bits 31:26 (30_encoding.md R91, R92). -/
def opOf (w : Word) : BitVec 6 := w.extractLsb' 26 6
/-- RD, bits 25:22. -/
def rdOf (w : Word) : RegIdx := w.extractLsb' 22 4
/-- RS1, bits 21:18. -/
def rs1Of (w : Word) : RegIdx := w.extractLsb' 18 4
/-- RS2 (COMP of KSET and KGET), bits 17:14. -/
def rs2Of (w : Word) : RegIdx := w.extractLsb' 14 4
/-- RS3, bits 13:10. -/
def rs3Of (w : Word) : RegIdx := w.extractLsb' 10 4
/-- HID, bits 9:6. -/
def hidOf (w : Word) : HashId := w.extractLsb' 6 4
/-- KS, bit 5. -/
def ksBit (w : Word) : BitVec 1 := w.extractLsb' 5 1
/-- SH, bit 4. -/
def shBit (w : Word) : BitVec 1 := w.extractLsb' 4 1
/-- IMM22, bits 21:0. -/
def immOf (w : Word) : BitVec 22 := w.extractLsb' 0 22

/-- The key slot a KS bit names. -/
def slotOfBit (b : BitVec 1) : Slot := if b = 1#1 then .k1 else .k0
/-- The KS bit of a key slot. -/
def bitOfSlot : Slot → BitVec 1
  | .k0 => 0#1
  | .k1 => 1#1

/-- The component a COMP value names; 5..15 name none (30_encoding.md R93). -/
def compOfBits (c : BitVec 4) : Option Comp :=
  match c with
  | 0#4 => some .n
  | 1#4 => some .e
  | 2#4 => some .d
  | 3#4 => some .p
  | 4#4 => some .q
  | _ => none
/-- The COMP value of a component. -/
def bitsOfComp : Comp → BitVec 4
  | .n => 0#4
  | .e => 1#4
  | .d => 2#4
  | .p => 3#4
  | .q => 4#4

/-- A word of an assigned opcode selects it when (w AND mask) = match (30_encoding.md R94). -/
def selectRow (w mask mtch : Word) (i : Except DecodeError Instr) : Except DecodeError Instr :=
  if w &&& mask = mtch then i else .error .nonzeroUnusedField

/-- The command word's decoding, in the order of checks of 30_encoding.md R100: opcode, mask, XGCD's RD,
COMP. Match and mask are those of R95. -/
def decode (w : Word) : Except DecodeError Instr :=
  match opOf w with
  | 0x00#6 => selectRow w 0xFFFFFFFF#32 0x00000000#32 (.ok .nop)
  | 0x01#6 => selectRow w 0xFC003FFF#32 0x04000000#32 (.ok (.add (rdOf w) (rs1Of w) (rs2Of w)))
  | 0x02#6 => selectRow w 0xFC003FFF#32 0x08000000#32 (.ok (.sub (rdOf w) (rs1Of w) (rs2Of w)))
  | 0x03#6 => selectRow w 0xFC003FFF#32 0x0C000000#32 (.ok (.mul (rdOf w) (rs1Of w) (rs2Of w)))
  | 0x04#6 => selectRow w 0xFC003FFF#32 0x10000000#32 (.ok (.div (rdOf w) (rs1Of w) (rs2Of w)))
  | 0x05#6 => selectRow w 0xFC003FFF#32 0x14000000#32 (.ok (.rem (rdOf w) (rs1Of w) (rs2Of w)))
  | 0x06#6 => selectRow w 0xFC03FFFF#32 0x18000000#32 (.ok (.neg (rdOf w) (rs1Of w)))
  | 0x07#6 => selectRow w 0xFC03FFFF#32 0x1C000000#32 (.ok (.mov (rdOf w) (rs1Of w)))
  | 0x08#6 => selectRow w 0xFC000000#32 0x20000000#32 (.ok (.ldi (rdOf w) (immOf w)))
  | 0x09#6 => selectRow w 0xFFC03FFF#32 0x24000000#32 (.ok (.cmp (rs1Of w) (rs2Of w)))
  | 0x0A#6 => selectRow w 0xFC03FFFF#32 0x28000000#32 (.ok (.bitlen (rdOf w) (rs1Of w)))
  | 0x10#6 => selectRow w 0xFC003FFF#32 0x40000000#32 (.ok (.modred (rdOf w) (rs1Of w) (rs2Of w)))
  | 0x11#6 => selectRow w 0xFC0003FF#32 0x44000000#32 (.ok (.modmul (rdOf w) (rs1Of w) (rs2Of w) (rs3Of w)))
  | 0x12#6 => selectRow w 0xFC0003FF#32 0x48000000#32 (.ok (.modexp (rdOf w) (rs1Of w) (rs2Of w) (rs3Of w)))
  | 0x13#6 => selectRow w 0xFC003FFF#32 0x4C000000#32 (.ok (.gcd (rdOf w) (rs1Of w) (rs2Of w)))
  | 0x14#6 => selectRow w 0xFC003FFF#32 0x50000000#32
      (if 13 < (rdOf w).toNat then .error .xgcdDestination else .ok (.xgcd (rdOf w) (rs1Of w) (rs2Of w)))
  | 0x15#6 => selectRow w 0xFC003FFF#32 0x54000000#32 (.ok (.modinv (rdOf w) (rs1Of w) (rs2Of w)))
  | 0x16#6 => selectRow w 0xFFC3FFFF#32 0x58000000#32 (.ok (.mrtest (rs1Of w)))
  | 0x18#6 => selectRow w 0xFFFFFFFF#32 0x60000000#32 (.ok .rndb)
  | 0x19#6 => selectRow w 0xFC03FFFF#32 0x64000000#32 (.ok (.rndbelow (rdOf w) (rs1Of w)))
  | 0x1A#6 => selectRow w 0xFC000000#32 0x68000000#32 (.ok (.rndodd (rdOf w) (immOf w)))
  | 0x20#6 => selectRow w 0xFC3FFFFF#32 0x80000000#32 (.ok (.ldb (rdOf w)))
  | 0x21#6 => selectRow w 0xFFC3FFFF#32 0x84000000#32 (.ok (.stb (rs1Of w)))
  | 0x22#6 => selectRow w 0xFFC3FFFF#32 0x88000000#32 (.ok (.stbm (rs1Of w)))
  | 0x28#6 => selectRow w 0xFFFFFC3F#32 0xA0000000#32 (.ok (.hash (hidOf w)))
  | 0x29#6 => selectRow w 0xFFFFFC3F#32 0xA4000000#32 (.ok (.mgf1 (hidOf w)))
  | 0x30#6 => selectRow w 0xFFC03FDF#32 0xC0000000#32
      (match compOfBits (rs2Of w) with
        | some c => .ok (.kset (slotOfBit (ksBit w)) c (rs1Of w))
        | none => .error .unknownComponent)
  | 0x31#6 => selectRow w 0xFC3C3FDF#32 0xC4000000#32
      (match compOfBits (rs2Of w) with
        | some c => .ok (.kget (rdOf w) (slotOfBit (ksBit w)) c)
        | none => .error .unknownComponent)
  | 0x32#6 => selectRow w 0xFFFFFFDF#32 0xC8000000#32 (.ok (.kclr (slotOfBit (ksBit w))))
  | 0x33#6 => selectRow w 0xFFFFFFDF#32 0xCC000000#32 (.ok (.kchk (slotOfBit (ksBit w))))
  | 0x34#6 => selectRow w 0xFFFFFFDF#32 0xD0000000#32 (.ok (.kpub (slotOfBit (ksBit w))))
  | 0x38#6 => selectRow w 0xFFFFFC1F#32 0xE0000000#32 (.ok (.oaepenc (hidOf w) (slotOfBit (ksBit w))))
  | 0x39#6 => selectRow w 0xFFFFFC1F#32 0xE4000000#32 (.ok (.oaepdec (hidOf w) (slotOfBit (ksBit w))))
  | 0x3A#6 => selectRow w 0xFFFFFC0F#32 0xE8000000#32
      (.ok (.psssign (hidOf w) (slotOfBit (ksBit w)) (shBit w == 1#1)))
  | 0x3B#6 => selectRow w 0xFFFFFC0F#32 0xEC000000#32
      (.ok (.pssver (hidOf w) (slotOfBit (ksBit w)) (shBit w == 1#1)))
  | _ => .error .reservedOpcode

/-- A format R word from its fields, RSV = 0 (30_encoding.md R91). -/
def wordR (op : BitVec 6) (rd rs1 rs2 rs3 : BitVec 4) (hid : BitVec 4) (ks sh : BitVec 1) : Word :=
  op ++ rd ++ rs1 ++ rs2 ++ rs3 ++ hid ++ ks ++ sh ++ 0#4

/-- A format I word from its fields (30_encoding.md R92). -/
def wordI (op : BitVec 6) (rd : BitVec 4) (imm : BitVec 22) : Word :=
  op ++ rd ++ imm

/-- The SH bit of a salt choice (46_pss.md R246). -/
def bitOfSh (sh : Bool) : BitVec 1 := if sh then 1#1 else 0#1

/-- The word of a command (30_encoding.md R91, R92, R95); unused fields are 0 (R94). -/
def encode : Instr → Word
  | .nop => wordR 0x00#6 0 0 0 0 0 0 0
  | .add rd rs1 rs2 => wordR 0x01#6 rd rs1 rs2 0 0 0 0
  | .sub rd rs1 rs2 => wordR 0x02#6 rd rs1 rs2 0 0 0 0
  | .mul rd rs1 rs2 => wordR 0x03#6 rd rs1 rs2 0 0 0 0
  | .div rd rs1 rs2 => wordR 0x04#6 rd rs1 rs2 0 0 0 0
  | .rem rd rs1 rs2 => wordR 0x05#6 rd rs1 rs2 0 0 0 0
  | .neg rd rs1 => wordR 0x06#6 rd rs1 0 0 0 0 0
  | .mov rd rs1 => wordR 0x07#6 rd rs1 0 0 0 0 0
  | .ldi rd imm => wordI 0x08#6 rd imm
  | .cmp rs1 rs2 => wordR 0x09#6 0 rs1 rs2 0 0 0 0
  | .bitlen rd rs1 => wordR 0x0A#6 rd rs1 0 0 0 0 0
  | .modred rd rs1 rs2 => wordR 0x10#6 rd rs1 rs2 0 0 0 0
  | .modmul rd rs1 rs2 rs3 => wordR 0x11#6 rd rs1 rs2 rs3 0 0 0
  | .modexp rd rs1 rs2 rs3 => wordR 0x12#6 rd rs1 rs2 rs3 0 0 0
  | .gcd rd rs1 rs2 => wordR 0x13#6 rd rs1 rs2 0 0 0 0
  | .xgcd rd rs1 rs2 => wordR 0x14#6 rd rs1 rs2 0 0 0 0
  | .modinv rd rs1 rs2 => wordR 0x15#6 rd rs1 rs2 0 0 0 0
  | .mrtest rs1 => wordR 0x16#6 0 rs1 0 0 0 0 0
  | .rndb => wordR 0x18#6 0 0 0 0 0 0 0
  | .rndbelow rd rs1 => wordR 0x19#6 rd rs1 0 0 0 0 0
  | .rndodd rd imm => wordI 0x1A#6 rd imm
  | .ldb rd => wordR 0x20#6 rd 0 0 0 0 0 0
  | .stb rs1 => wordR 0x21#6 0 rs1 0 0 0 0 0
  | .stbm rs1 => wordR 0x22#6 0 rs1 0 0 0 0 0
  | .hash hid => wordR 0x28#6 0 0 0 0 hid 0 0
  | .mgf1 hid => wordR 0x29#6 0 0 0 0 hid 0 0
  | .kset ks c rs1 => wordR 0x30#6 0 rs1 (bitsOfComp c) 0 0 (bitOfSlot ks) 0
  | .kget rd ks c => wordR 0x31#6 rd 0 (bitsOfComp c) 0 0 (bitOfSlot ks) 0
  | .kclr ks => wordR 0x32#6 0 0 0 0 0 (bitOfSlot ks) 0
  | .kchk ks => wordR 0x33#6 0 0 0 0 0 (bitOfSlot ks) 0
  | .kpub ks => wordR 0x34#6 0 0 0 0 0 (bitOfSlot ks) 0
  | .oaepenc hid ks => wordR 0x38#6 0 0 0 0 hid (bitOfSlot ks) 0
  | .oaepdec hid ks => wordR 0x39#6 0 0 0 0 hid (bitOfSlot ks) 0
  | .psssign hid ks sh => wordR 0x3A#6 0 0 0 0 hid (bitOfSlot ks) (bitOfSh sh)
  | .pssver hid ks sh => wordR 0x3B#6 0 0 0 0 hid (bitOfSlot ks) (bitOfSh sh)

/-- The `mask` column of the opcode map for a command's row (30_encoding.md R95). -/
def tableMask : Instr → Word
  | .nop | .rndb => 0xFFFFFFFF#32
  | .add .. | .sub .. | .mul .. | .div .. | .rem .. | .modred .. | .gcd .. | .xgcd .. | .modinv .. => 0xFC003FFF#32
  | .neg .. | .mov .. | .bitlen .. | .rndbelow .. => 0xFC03FFFF#32
  | .ldi .. | .rndodd .. => 0xFC000000#32
  | .cmp .. => 0xFFC03FFF#32
  | .modmul .. | .modexp .. => 0xFC0003FF#32
  | .mrtest .. | .stb .. | .stbm .. => 0xFFC3FFFF#32
  | .ldb .. => 0xFC3FFFFF#32
  | .hash .. | .mgf1 .. => 0xFFFFFC3F#32
  | .kset .. => 0xFFC03FDF#32
  | .kget .. => 0xFC3C3FDF#32
  | .kclr .. | .kchk .. | .kpub .. => 0xFFFFFFDF#32
  | .oaepenc .. | .oaepdec .. => 0xFFFFFC1F#32
  | .psssign .. | .pssver .. => 0xFFFFFC0F#32

/-- The `match` column of the opcode map for a command's row (30_encoding.md R95). -/
def tableMatch : Instr → Word
  | .nop => 0x00000000#32
  | .add .. => 0x04000000#32
  | .sub .. => 0x08000000#32
  | .mul .. => 0x0C000000#32
  | .div .. => 0x10000000#32
  | .rem .. => 0x14000000#32
  | .neg .. => 0x18000000#32
  | .mov .. => 0x1C000000#32
  | .ldi .. => 0x20000000#32
  | .cmp .. => 0x24000000#32
  | .bitlen .. => 0x28000000#32
  | .modred .. => 0x40000000#32
  | .modmul .. => 0x44000000#32
  | .modexp .. => 0x48000000#32
  | .gcd .. => 0x4C000000#32
  | .xgcd .. => 0x50000000#32
  | .modinv .. => 0x54000000#32
  | .mrtest .. => 0x58000000#32
  | .rndb => 0x60000000#32
  | .rndbelow .. => 0x64000000#32
  | .rndodd .. => 0x68000000#32
  | .ldb .. => 0x80000000#32
  | .stb .. => 0x84000000#32
  | .stbm .. => 0x88000000#32
  | .hash .. => 0xA0000000#32
  | .mgf1 .. => 0xA4000000#32
  | .kset .. => 0xC0000000#32
  | .kget .. => 0xC4000000#32
  | .kclr .. => 0xC8000000#32
  | .kchk .. => 0xCC000000#32
  | .kpub .. => 0xD0000000#32
  | .oaepenc .. => 0xE0000000#32
  | .oaepdec .. => 0xE4000000#32
  | .psssign .. => 0xE8000000#32
  | .pssver .. => 0xEC000000#32

/-- What the decoder reads from a command whose bits are w, numbered as the opcode table numbers them. Every
command is one 32-bit word (30_encoding.md R90) and every row of the table gives all 32 bits; bits above `nbits` are 0. -/
def decodeTableWord (nbits w : Nat) : Option Instr :=
  match decode (BitVec.ofNat 32 (w % 2 ^ nbits)) with
  | .ok i => some i
  | .error _ => none

end Sys2Proof
end

