-- ==== Sys2Proof/Config.lean ====
section
/-! DEFINITION. What an implementation of TTC-PKE fixes (the parameters of 00_scope.md R8) and the free values the spec leaves open (93_implementation_defined.md U7, U12): constants with no body, so that no proof can see what they are. -/

namespace Sys2Proof

/-- The parameters of 00_scope.md R8. NREG = 16, NSLOT = 2 and ADDR_BITS = 17 are fixed and are the
types' own. HASH_SUPPORTED always holds 1 and 2 and never 0 or 6..15 (43_hash_mgf1.md R187), so only its
optional members are parameters. -/
structure Params where
  /-- W_BITS, the magnitude capacity of a big register in bits. -/
  wBits : Nat
  /-- BUF_BYTES, the size of BUF. -/
  bufBytes : Nat
  /-- RETRY_LIMIT, the attempts of RandBelow. -/
  retryLimit : Nat
  /-- MR_ROUNDS_RESET, the reset value of CFG.MR_ROUNDS. -/
  mrRoundsReset : BitVec 8
  /-- EXP_WIN_RESET, the reset value of CFG.EXP_WIN. -/
  expWinReset : BitVec 4
  /-- Identifier 3 (SHA-224) is in HASH_SUPPORTED. -/
  sha224 : Bool
  /-- Identifier 4 (SHA-384) is in HASH_SUPPORTED. -/
  sha384 : Bool
  /-- Identifier 5 (SHA-512) is in HASH_SUPPORTED. -/
  sha512 : Bool
deriving DecidableEq, Repr

/-- This hardware's default parameters (00_scope.md R8). -/
def Params.default : Params :=
  { wBits := 4096, bufBytes := 4096, retryLimit := 128, mrRoundsReset := 64, expWinReset := 4,
    sha224 := false, sha384 := false, sha512 := false }

/-- The legal values of 00_scope.md R8. -/
abbrev Params.Legal (p : Params) : Prop :=
  p.wBits % 32 = 0 ∧ 32 ≤ p.wBits ∧ p.wBits ≤ 16384 ∧
  256 ≤ p.bufBytes ∧ p.bufBytes ≤ 65536 ∧ p.wBits / 4 ≤ p.bufBytes ∧
  1 ≤ p.retryLimit ∧ p.retryLimit ≤ 65536 ∧
  1 ≤ p.mrRoundsReset.toNat ∧
  1 ≤ p.expWinReset.toNat ∧ p.expWinReset.toNat ≤ 6

/-- One answer of the RNG to one byte request (20_memory.md R79): a byte, a failure (rr_fail), or no answer
ever (70_reset_and_hazards.md R312). -/
inductive RngAnswer where
  | byte (b : Byte)
  | fail
  | silent
deriving DecidableEq, Repr, Inhabited

/-- How the hash unit answers one digest request (20_memory.md R78; 43_hash_mgf1.md R190): with the digest,
with hr_unsup, or never (70_reset_and_hazards.md R312). -/
inductive HashAnswer where
  | digest
  | unsupported
  | silent
deriving DecidableEq, Repr, Inhabited

/-- FREE VALUE (log 6; U7): the byte BUF[i] holds after reset number k, until something writes it
(20_memory.md R80: a draw per byte). -/
opaque Config.bufDraw (k i : Nat) : Byte

/-- FREE VALUE (log 3; U12): the RNG's k-th answer that no list of answers gives (42_random.md R170). -/
opaque Config.rngDraw (k : Nat) : RngAnswer

end Sys2Proof
end

