-- ==== Sys2Proof/Machine/State.lean ====
section
/-! DEFINITION. The state of one TTC-PKE block as plain data (10_state.md R20), the inputs that act on it, and the state after reset (R42). -/

namespace Sys2Proof.Machine

open Sys2Proof

/-- The error codes of STATUS.ERR (60_exceptions.md R266). -/
inductive ErrCode where
  | ok
  | illegalCmd
  | undefOperand
  | overflow
  | divZero
  | domain
  | notInvertible
  | bufRange
  | unsupportedHash
  | entropy
  | notPrivateKey
  | messageTooLong
  | encoding
  | decrypt
  | invalidArgument
  | retryLimit
deriving DecidableEq, Repr

/-- The engine's phase (10_state.md R39), visible as STATUS.BUSY. -/
inductive Phase where
  | idle
  | busy
deriving DecidableEq, Repr

/-- A big register: an integer and its valid bit (10_state.md R20, R22, R23). -/
structure BigReg where
  val : Int
  valid : Bool
deriving DecidableEq, Repr

/-- A key component: a non-negative integer and its presence bit (10_state.md R25). -/
structure KeyComp where
  val : Nat
  present : Bool
deriving DecidableEq, Repr

/-- A key slot: the five components and the CHECKED bit (10_state.md R25, R26). -/
structure KeySlot where
  n : KeyComp
  e : KeyComp
  d : KeyComp
  p : KeyComp
  q : KeyComp
  checked : Bool
deriving DecidableEq, Repr

/-- The width of a host bus access (20_memory.md R62). -/
inductive Width where
  | w8
  | w32
deriving DecidableEq, Repr

/-- One host bus transaction: width, byte address and, for a write, the 32-bit write data (20_memory.md R62). -/
inductive Txn where
  | read (w : Width) (a : BusAddr)
  | write (w : Width) (a : BusAddr) (data : Word)
deriving DecidableEq, Repr

/-- One event of the block's single sequence of events (20_memory.md R71; 70_reset_and_hazards.md R300). -/
inductive Event where
  /-- The host performs a bus transaction. -/
  | host (t : Txn)
  /-- The engine completes the command in progress (10_state.md R40). -/
  | complete
  /-- rst_n is pulled low and released (70_reset_and_hazards.md R300). -/
  | reset
deriving DecidableEq, Repr

/-- The block's answer to a host transaction: the error response (true = SLVERR) and, for a read, the 32
bits of read data (20_memory.md R62). -/
structure BusAnswer where
  slverr : Bool
  data : Option Word
deriving DecidableEq, Repr

/-- What the two external agents will answer (00_scope.md R7). `rng` and `hash` list answers, oldest first;
when `rng` is used up, the RNG's answer is the free value `Config.rngDraw rngFree`, and `rngFree` advances
(log 3); when `hash` is used up, the hash unit answers every request with the digest (log 4). -/
structure Ports where
  rng : List RngAnswer
  rngFree : Nat
  hash : List HashAnswer
deriving DecidableEq, Repr

/-- The whole state. The spec's state is the tuple of 10_state.md R20 with the hidden state of R39; `par`,
`ports`, `events`, `busOut` and `resets` are the model's own (log 1, 3, 4, 10, 12, 17). -/
structure State where
  /-- The parameters of 00_scope.md R8; no step changes them (70_reset_and_hazards.md R302). -/
  par : Params
  /-- The big registers B0..B15 (R21). -/
  b : Vector BigReg 16
  /-- Key slot K0 (R25). -/
  k0 : KeySlot
  /-- Key slot K1 (R25). -/
  k1 : KeySlot
  /-- BUF: the bytes written since reset, by index, indices strictly rising (R37). -/
  buf : List Host.Cell
  /-- Flag Z (R27). -/
  z : Bool
  /-- Flag N (R27). -/
  n : Bool
  /-- Flag B_FLAG (R28). -/
  bFlag : Bool
  /-- The engine's phase; STATUS.BUSY (R39). -/
  phase : Phase
  /-- STATUS.DONE (R30). -/
  done : Bool
  /-- STATUS.ERR (R30). -/
  err : ErrCode
  /-- STATUS.OVR (R30, R43). -/
  ovr : Bool
  /-- STATUS.BERR (R30, R43). -/
  berr : Bool
  /-- CFG.MR_ROUNDS (R32). -/
  mrRounds : BitVec 8
  /-- CFG.EXP_WIN (R32). -/
  expWin : BitVec 4
  /-- CFG.IE (R32). -/
  ie : Bool
  /-- RES (R31). -/
  res : Word
  /-- ARG0..ARG7 (R33). -/
  arg : Vector Word 8
  /-- LASTCMD (R34). -/
  lastCmd : Word
  /-- `cur`, the word of the command in progress (R39). -/
  cur : Word
  /-- ARG_L[0..7], the latched arguments (R33). -/
  argL : Vector Word 8
  /-- MR_ROUNDS_L, the latched round count (R33). -/
  mrRoundsL : BitVec 8
  /-- EXP_WIN_L, the latched window size (R33). -/
  expWinL : BitVec 4
  /-- The model's own: what the RNG and the hash unit will answer. -/
  ports : Ports
  /-- The model's own: the events to come, oldest first. -/
  events : List Event
  /-- The model's own: the answer to the last host transaction. -/
  busOut : Option BusAnswer
  /-- The model's own: how many reset events there were; it selects the draw of BUF's contents. -/
  resets : Nat
deriving DecidableEq, Repr

/-- The machine stops. There is one way: an external agent the command in progress needs never answers, so
the command stays BUSY until reset (70_reset_and_hazards.md R312; U16 `stuck`). SAFE: the hardware goes on
answering the host while BUSY, which event lists without a completion still show (log 5). -/
inductive Fault where
  /-- Raised by every command that draws random bytes, when the RNG never answers. Safe. -/
  | rngSilent
  /-- Raised by every command that needs a digest, when the hash unit never answers. Safe. -/
  | hashSilent
deriving DecidableEq, Repr

/-- No meaning for a command. No command of this model is refused. -/
inductive Refusal where
  /-- An arm of exec whose meaning is not written yet. Safe. -/
  | notModelled (mnemonic : String)
deriving DecidableEq, Repr

/-- A key slot with every component absent and CHECKED = 0 (10_state.md R42; the values are log 8). -/
def KeySlot.empty : KeySlot :=
  { n := ⟨0, false⟩, e := ⟨0, false⟩, d := ⟨0, false⟩, p := ⟨0, false⟩, q := ⟨0, false⟩, checked := false }

/-- The state after reset of a block with parameters `p` (10_state.md R42). -/
def State.resetWith (p : Params) : State :=
  { par := p
    b := Vector.replicate 16 ⟨0, false⟩
    k0 := KeySlot.empty
    k1 := KeySlot.empty
    buf := []
    z := false
    n := false
    bFlag := false
    phase := .idle
    done := false
    err := .ok
    ovr := false
    berr := false
    mrRounds := p.mrRoundsReset
    expWin := p.expWinReset
    ie := false
    res := 0#32
    arg := Vector.replicate 8 0#32
    lastCmd := 0#32
    cur := 0#32
    argL := Vector.replicate 8 0#32
    mrRoundsL := 0#8
    expWinL := 0#4
    ports := { rng := [], rngFree := 0, hash := [] }
    events := []
    busOut := none
    resets := 0 }

/-- The machine right after reset, with this hardware's default parameters (10_state.md R42; 00_scope.md R8). -/
def State.reset : State := State.resetWith Params.default

end Sys2Proof.Machine
end

