-- ==== Sys2Proof/Machine/Memory.lean ====
section
/-! DEFINITION. BUF as a list of (index, byte) in one canonical form, and the machine's view of one byte (20_memory.md R60, R80). -/

namespace Sys2Proof.Machine

open Sys2Proof

/-- The canonical form: indices strictly rising. An index that is not listed has no value in the list (it
has not been written since reset), so no entry equals what an unlisted index holds. -/
abbrev Memory.wf (m : List Host.Cell) : Prop := m.Pairwise (fun x y => x.1 < y.1)

/-- The byte the list holds at an index, if that index has been written. -/
def memLookup (m : List Host.Cell) (a : Nat) : Option Byte :=
  match m with
  | [] => none
  | c :: t => if c.1 = a then some c.2 else memLookup t a

/-- Write one byte, keeping the canonical form. -/
def memInsert (m : List Host.Cell) (a : Nat) (v : Byte) : List Host.Cell :=
  match m with
  | [] => [(a, v)]
  | c :: t =>
    if a < c.1 then (a, v) :: c :: t
    else if a = c.1 then (a, v) :: t
    else c :: memInsert t a v

/-- Write a byte string at consecutive indices. -/
def memWriteBytes (m : List Host.Cell) (a : Nat) (bs : Bytes) : List Host.Cell :=
  match bs with
  | [] => m
  | v :: t => memWriteBytes (memInsert m a v) (a + 1) t

/-- BUF[i] as the machine reads it: the byte last written there, else the draw made at the last reset
(20_memory.md R80; log 6). -/
def State.bufByte (s : State) (i : Nat) : Byte :=
  (memLookup s.buf i).getD (Config.bufDraw s.resets i)

/-- MemRead(off, n): BUF[off .. off+n-1] (00_scope.md R13). -/
def State.memRead (s : State) (off n : Nat) : Bytes :=
  (List.range n).map (fun j => s.bufByte (off + j))

/-- MemWrite(off, len(S), S) on the state (00_scope.md R13). -/
def State.memWrite (s : State) (off : Nat) (bs : Bytes) : State :=
  { s with buf := memWriteBytes s.buf off bs }

end Sys2Proof.Machine
end

