-- ==== Sys2Proof/Machine/Numbers.lean ====
section
/-! DEFINITION. The integer and byte-string procedures of the pseudocode: bit lengths and serialisation (00_scope.md R10, R12), modular exponentiation (41_bigint_modular.md R143, R144), extended Euclid (R146), one Miller-Rabin round (R150). -/

namespace Sys2Proof.Machine

open Sys2Proof

/-- bitlen(a): the least L with a < 2^L (00_scope.md R10). -/
def bitlen (a : Nat) : Nat := if a = 0 then 0 else Nat.log2 a + 1

/-- ceil8(L) = (L + 7) div 8 (00_scope.md R10). -/
def ceil8 (l : Nat) : Nat := (l + 7) / 8

/-- OS2IP with the value of the bytes already read (00_scope.md R12). -/
def os2ipFrom (acc : Nat) (bs : Bytes) : Nat :=
  match bs with
  | [] => acc
  | v :: t => os2ipFrom (acc * 256 + v.toNat) t

/-- OS2IP(S): the big-endian value of a byte string, 0 for the empty one (00_scope.md R12). -/
def os2ip (bs : Bytes) : Nat := os2ipFrom 0 bs

/-- The low `l` bytes of x, most significant first, before the string `acc`. -/
def i2ospOnto (l x : Nat) (acc : Bytes) : Bytes :=
  match l with
  | 0 => acc
  | l + 1 => i2ospOnto l (x / 256) (BitVec.ofNat 8 (x % 256) :: acc)

/-- I2OSP(x, L), used for x < 256^L (00_scope.md R12). -/
def i2osp (x l : Nat) : Bytes := i2ospOnto l x []

/-- I2OSP_min(x): no leading zero byte, empty for 0 (00_scope.md R12). -/
def i2ospMin (x : Nat) : Bytes := i2osp x (ceil8 (bitlen x))

/-- S xor T, bytewise (00_scope.md R11). -/
def xorBytes (s t : Bytes) : Bytes := List.zipWith (· ^^^ ·) s t

/-- zeros(n) (00_scope.md R11). -/
def zeros (n : Nat) : Bytes := List.replicate n 0#8

/-- b^e mod m by binary square-and-multiply over `fuel` bits of e (41_bigint_modular.md R144: the method
is not observable; log 15). -/
def powModBits (m fuel b e : Nat) : Nat :=
  match fuel with
  | 0 => 1 % m
  | fuel + 1 =>
    let h := powModBits m fuel (b * b % m) (e / 2)
    if e % 2 = 1 then b * h % m else h

/-- emod(b^e, m) for natural b, e and m > 0 (41_bigint_modular.md R143). -/
def powMod (b e m : Nat) : Nat := powModBits m (bitlen e) b e

/-- emod(b^e, m) for an integer base, e >= 0, m > 0: a negative base is reduced first (41_bigint_modular.md R143). -/
def powModInt (b e m : Int) : Int := Int.ofNat (powMod (b % m).toNat e.toNat m.toNat)

/-- The loop of ExtEuclid (41_bigint_modular.md R146): while r1 != 0, one division step on (r0, r1), (s0, s1),
(t0, t1). `fuel` bounds the steps; r1 strictly decreases, so r1 + 1 steps are enough. -/
def euclidLoop (fuel r0 r1 : Nat) (s0 s1 t0 t1 : Int) : Nat × Int × Int :=
  match fuel with
  | 0 => (r0, s0, t0)
  | fuel + 1 =>
    if r1 = 0 then (r0, s0, t0)
    else
      let q := r0 / r1
      euclidLoop fuel r1 (r0 - q * r1) s1 (s0 - q * s1) t1 (t0 - q * t1)

/-- The sign factor of ExtEuclid: -1 for a negative operand, else 1 (41_bigint_modular.md R146). -/
def signFactor (a : Int) : Int := if a < 0 then -1 else 1

/-- ExtEuclid(a, b) = (g, x, y) with the coefficients of 41_bigint_modular.md R146. -/
def extEuclid (a b : Int) : Nat × Int × Int :=
  match euclidLoop (b.natAbs + 1) a.natAbs b.natAbs 1 0 0 1 with
  | (g, s, t) => (g, signFactor a * s, signFactor b * t)

/-- m = 2^s * d with d odd, for m > 0: (s, d) (41_bigint_modular.md R150). `fuel` bounds the halvings. -/
def splitTwos (fuel m : Nat) : Nat × Nat :=
  match fuel with
  | 0 => (0, m)
  | fuel + 1 =>
    if m % 2 = 0 then
      match splitTwos fuel (m / 2) with
      | (s, d) => (s + 1, d)
    else (0, m)

/-- The squarings of StrongProbe (41_bigint_modular.md R150): true when one of the next `k` squares is n - 1. -/
def squaresHit (n k x : Nat) : Bool :=
  match k with
  | 0 => false
  | k + 1 =>
    let y := x * x % n
    if y = n - 1 then true else squaresHit n k y

/-- StrongProbe(n, a): true = PASS, false = WITNESS (41_bigint_modular.md R150). -/
def strongProbe (n a : Nat) : Bool :=
  match splitTwos (bitlen n) (n - 1) with
  | (s, d) =>
    let x := powMod a d n
    if x = 1 ∨ x = n - 1 then true else squaresHit n (s - 1) x

end Sys2Proof.Machine
end

