-- ==== Sys2Proof/Machine/Sha.lean ====
section
/-! DEFINITION. The digest functions the external hash unit computes: SHA-1, SHA-224, SHA-256, SHA-384 and SHA-512 (43_hash_mgf1.md R186, R190: the functions of an executable model). PRESUMED, log 2: the algorithms are FIPS 180-4, which spec/ names and does not give; no statement rests on a digest's value. -/

namespace Sys2Proof.Machine

open Sys2Proof

/-- Append the padding of a message for blocks of `block` bytes: 0x80, zeros, the bit length in `lenBytes` bytes. -/
def shaPad (block lenBytes : Nat) (msg : Bytes) : Bytes :=
  msg ++ 0x80#8 :: zeros ((2 * block - 1 - lenBytes - msg.length % block) % block) ++ i2osp (8 * msg.length) lenBytes

/-- The first `k` big-endian words of `wb` bytes of a byte string. -/
def shaWords (w wb k : Nat) (bs : Bytes) : List (BitVec w) :=
  match k with
  | 0 => []
  | k + 1 => BitVec.ofNat w (os2ip (bs.take wb)) :: shaWords w wb k (bs.drop wb)

/-- The words of a digest as bytes. -/
def shaBytes (wb : Nat) {w : Nat} (ws : List (BitVec w)) : Bytes :=
  ws.flatMap (fun x => i2osp x.toNat wb)

/-- SHA-1's round function and constant for round t. -/
def sha1Round (t : Nat) (b c d : Word) : Word × Word :=
  if t < 20 then ((b &&& c) ^^^ (~~~b &&& d), 0x5a827999#32)
  else if t < 40 then (b ^^^ c ^^^ d, 0x6ed9eba1#32)
  else if t < 60 then ((b &&& c) ^^^ (b &&& d) ^^^ (c &&& d), 0x8f1bbcdc#32)
  else (b ^^^ c ^^^ d, 0xca62c1d6#32)

/-- `k` rounds of SHA-1 starting with round t; `ws` holds the next sixteen words of the schedule. -/
def sha1Rounds (k t : Nat) (a b c d e : Word) (ws : List Word) : List Word :=
  match k with
  | 0 => [a, b, c, d, e]
  | k + 1 =>
    let w := ws.headD 0#32
    let next := (ws.getD 13 0#32 ^^^ ws.getD 8 0#32 ^^^ ws.getD 2 0#32 ^^^ w).rotateLeft 1
    match sha1Round t b c d with
    | (f, kt) => sha1Rounds k (t + 1) (a.rotateLeft 5 + f + e + kt + w) a (b.rotateLeft 30) c d (ws.tail ++ [next])

/-- SHA-1 over `k` blocks of 64 bytes. -/
def sha1Blocks (k : Nat) (h : List Word) (bs : Bytes) : List Word :=
  match k with
  | 0 => h
  | k + 1 =>
    let h' := List.zipWith (· + ·) h
      (sha1Rounds 80 0 (h.getD 0 0#32) (h.getD 1 0#32) (h.getD 2 0#32) (h.getD 3 0#32) (h.getD 4 0#32)
        (shaWords 32 4 16 bs))
    sha1Blocks k h' (bs.drop 64)

/-- SHA-1. -/
def sha1 (msg : Bytes) : Bytes :=
  let m := shaPad 64 8 msg
  shaBytes 4 (sha1Blocks (m.length / 64) [0x67452301#32, 0xefcdab89#32, 0x98badcfe#32, 0x10325476#32, 0xc3d2e1f0#32] m)

/-- What distinguishes SHA-256 from SHA-512: the rotation and shift counts of the functions. -/
structure Sha2Counts where
  big0 : Nat × Nat × Nat
  big1 : Nat × Nat × Nat
  small0 : Nat × Nat × Nat
  small1 : Nat × Nat × Nat

/-- The counts of SHA-224 and SHA-256. -/
def sha256Counts : Sha2Counts :=
  { big0 := (2, 13, 22), big1 := (6, 11, 25), small0 := (7, 18, 3), small1 := (17, 19, 10) }

/-- The counts of SHA-384 and SHA-512. -/
def sha512Counts : Sha2Counts :=
  { big0 := (28, 34, 39), big1 := (14, 18, 41), small0 := (1, 8, 7), small1 := (19, 61, 6) }

/-- An upper-case sigma function: three rotations. -/
def shaBig {w : Nat} (c : Nat × Nat × Nat) (x : BitVec w) : BitVec w :=
  x.rotateRight c.1 ^^^ x.rotateRight c.2.1 ^^^ x.rotateRight c.2.2

/-- A lower-case sigma function: two rotations and a shift. -/
def shaSmall {w : Nat} (c : Nat × Nat × Nat) (x : BitVec w) : BitVec w :=
  x.rotateRight c.1 ^^^ x.rotateRight c.2.1 ^^^ (x >>> c.2.2)

/-- SHA-2 rounds, one per constant of `ks`; `ws` holds the next sixteen words of the schedule. -/
def sha2Rounds {w : Nat} (cn : Sha2Counts) (ks : List (BitVec w)) (a b c d e f g h : BitVec w)
    (ws : List (BitVec w)) : List (BitVec w) :=
  match ks with
  | [] => [a, b, c, d, e, f, g, h]
  | kt :: ks =>
    let x := ws.headD 0
    let next := shaSmall cn.small1 (ws.getD 14 0) + ws.getD 9 0 + shaSmall cn.small0 (ws.getD 1 0) + x
    let t1 := h + shaBig cn.big1 e + ((e &&& f) ^^^ (~~~e &&& g)) + kt + x
    let t2 := shaBig cn.big0 a + ((a &&& b) ^^^ (a &&& c) ^^^ (b &&& c))
    sha2Rounds cn ks (t1 + t2) a b c (d + t1) e f g (ws.tail ++ [next])

/-- SHA-2 over `k` blocks of 16 words of `wb` bytes. -/
def sha2Blocks {w : Nat} (cn : Sha2Counts) (ks : List (BitVec w)) (wb k : Nat) (h : List (BitVec w)) (bs : Bytes) :
    List (BitVec w) :=
  match k with
  | 0 => h
  | k + 1 =>
    let h' := List.zipWith (· + ·) h
      (sha2Rounds cn ks (h.getD 0 0) (h.getD 1 0) (h.getD 2 0) (h.getD 3 0) (h.getD 4 0) (h.getD 5 0) (h.getD 6 0)
        (h.getD 7 0) (shaWords w wb 16 bs))
    sha2Blocks cn ks wb k h' (bs.drop (16 * wb))

/-- The bits below bit `k` of the largest x with x ^ r ≤ n, `top` being the bits from bit `k` up. -/
def rootBits (r n k top : Nat) : Nat :=
  match k with
  | 0 => top
  | k + 1 => rootBits r n k (if (top + 2 ^ k) ^ r ≤ n then top + 2 ^ k else top)

/-- The first 64 bits of the fractional part of the r-th root of p, for p < 512 (r = 2 or 3). -/
def rootFraction (r p : Nat) : Nat := rootBits r (p * 2 ^ (64 * r)) 69 0 % 2 ^ 64

/-- The primes below 410, the first eighty: the numbers from 2 on that no smaller prime up to 19 divides. -/
def shaPrimes : List Nat :=
  (List.range' 2 408).filter (fun n => [2, 3, 5, 7, 11, 13, 17, 19].all (fun d => n ≤ d || n % d != 0))

/-- The round constants of SHA-512: the cube roots of the first eighty primes. -/
def sha512K : List Nat := shaPrimes.map (rootFraction 3)

/-- The initial value of SHA-512: the square roots of the first eight primes. -/
def sha512H : List Nat := (shaPrimes.take 8).map (rootFraction 2)

/-- The initial value of SHA-384: the square roots of the ninth to the sixteenth prime. -/
def sha384H : List Nat := ((shaPrimes.drop 8).take 8).map (rootFraction 2)

/-- The high halves of 64-bit constants: SHA-256's constants and initial value are those of SHA-512's. -/
def highHalves (l : List Nat) : List Word := l.map (fun x => BitVec.ofNat 32 (x / 0x100000000))

/-- The low halves of 64-bit constants: SHA-224's initial value is that of SHA-384's. -/
def lowHalves (l : List Nat) : List Word := l.map (fun x => BitVec.ofNat 32 (x % 0x100000000))

/-- SHA-256 from an initial value, before truncation. -/
def sha256From (h : List Word) (msg : Bytes) : Bytes :=
  let m := shaPad 64 8 msg
  shaBytes 4 (sha2Blocks sha256Counts (highHalves (sha512K.take 64)) 4 (m.length / 64) h m)

/-- SHA-512 from an initial value, before truncation. -/
def sha512From (h : List Nat) (msg : Bytes) : Bytes :=
  let m := shaPad 128 16 msg
  shaBytes 8 (sha2Blocks sha512Counts (sha512K.map (BitVec.ofNat 64)) 8 (m.length / 128)
    (h.map (BitVec.ofNat 64)) m)

/-- HLen(h) in bytes for the identifiers of 43_hash_mgf1.md R186; used only for supported identifiers. -/
def hLen (h : HashId) : Nat :=
  match h with
  | 1#4 => 20
  | 2#4 => 32
  | 3#4 => 28
  | 4#4 => 48
  | 5#4 => 64
  | _ => 0

/-- The digest of the identifier's function, before its length is fixed. -/
def shaFn (h : HashId) (msg : Bytes) : Bytes :=
  match h with
  | 1#4 => sha1 msg
  | 2#4 => sha256From (highHalves sha512H) msg
  | 3#4 => sha256From (lowHalves sha384H) msg
  | 4#4 => sha512From sha384H msg
  | 5#4 => sha512From sha512H msg
  | _ => []

/-- Hash(h, S): a byte string of length HLen(h) (43_hash_mgf1.md R190). The shorter digests (SHA-224, SHA-384)
are the first HLen(h) bytes. -/
def hashFn (h : HashId) (msg : Bytes) : Bytes :=
  (shaFn h msg ++ zeros (hLen h)).take (hLen h)

/-- The first `k` digests of MGF1 concatenated, the counter starting at `c` (43_hash_mgf1.md R191). -/
def mgf1Blocks (h : HashId) (seed : Bytes) (c k : Nat) : Bytes :=
  match k with
  | 0 => []
  | k + 1 => hashFn h (seed ++ i2osp c 4) ++ mgf1Blocks h seed (c + 1) k

/-- The number of digests MGF1 asks for, ceil(L / HLen(h)) (43_hash_mgf1.md R191). -/
def mgf1Requests (h : HashId) (l : Nat) : Nat := (l + hLen h - 1) / hLen h

/-- MGF1(h, Z, L) (43_hash_mgf1.md R191). -/
def mgf1Fn (h : HashId) (seed : Bytes) (l : Nat) : Bytes :=
  (mgf1Blocks h seed 0 (mgf1Requests h l)).take l

end Sys2Proof.Machine
end

