-- ==== Sys2Proof/Machine/Ops.lean ====
section
/-! DEFINITION. The named operations every command is written with: staged bodies and raises (00_scope.md R13, R14), completion with a result or with an error (60_exceptions.md R270, R271), acceptance (10_state.md R40), reset (70_reset_and_hazards.md R300), the two ports (20_memory.md R78, R79), the key slots (44_key.md R200, R201). -/

namespace Sys2Proof.Machine

open Sys2Proof

/-- How a command body ends early: `raise E` (00_scope.md R13), or an agent that never answers
(70_reset_and_hazards.md R312). -/
inductive Stop where
  | raise (e : ErrCode)
  | stalled (f : Fault)
deriving DecidableEq, Repr

/-- A command body: it consumes answers of the ports and ends with a value or a Stop. The answers consumed
before a raise stay consumed (60_exceptions.md R270). -/
abbrev Cmd (α : Type) := EStateM Stop Ports α

/-- `raise E` (00_scope.md R13). -/
def raise {α : Type} (e : ErrCode) : Cmd α := fun p => .error (.raise e) p

/-- `if c: raise E`. -/
def raiseIf (c : Prop) [Decidable c] (e : ErrCode) : Cmd Unit := if c then raise e else pure ()

/-- The completion of a command with code `e`, applied to the state its writes left: BUSY falls, DONE is
set, ERR is `e`, and `p` is what is left of the ports (10_state.md R40; 60_exceptions.md R270, R271). -/
def State.completeWith (s : State) (e : ErrCode) (p : Ports) : State :=
  { s with ports := p, phase := .idle, done := true, err := e }

/-- Taking an error, the block's only exception (60_exceptions.md R270): no staged write commits, ERR is the
code, BUSY falls and DONE is set; nothing is saved, no mode changes, control goes nowhere. -/
def State.takeError (s : State) (e : ErrCode) (p : Ports) : State := s.completeWith e p

/-- The host's return from an error or a completion: DONE is cleared (60_exceptions.md R274). -/
def State.clearDone (s : State) : State := { s with done := false }

/-- One command as one indivisible step (10_state.md R40; 00_scope.md R14). The body reads the state `s` it is
given and answers the state with its writes applied; a raise drops them. -/
def runBody (s : State) (body : Cmd State) : Host.Outcome State Fault Refusal :=
  match body s.ports with
  | .ok t p => .next (t.completeWith .ok p)
  | .error (.raise e) p => .next (s.takeError e p)
  | .error (.stalled f) _ => .fault f

/-- Acceptance of command word `w` (10_state.md R40). -/
def State.accept (s : State) (w : Word) : State :=
  { s with lastCmd := w, cur := w, argL := s.arg, mrRoundsL := s.mrRounds, expWinL := s.expWin,
           done := false, phase := .busy }

/-- The completion of a word that is no command (30_encoding.md R97, R98, R100). -/
def State.illegal (s : State) : State := s.takeError .illegalCmd s.ports

/-- The event Reset (70_reset_and_hazards.md R300..R303): the table of 10_state.md R42 with a fresh draw of
BUF; the parameters stay (R302), and so do the agents' answers and the events to come. -/
def State.resetEvent (s : State) : State :=
  { State.resetWith s.par with ports := s.ports, events := s.events, resets := s.resets + 1 }

/-- The RNG's next answer (log 3). -/
def Ports.nextRng (p : Ports) : RngAnswer × Ports :=
  match p.rng with
  | a :: t => (a, { p with rng := t })
  | [] => (Config.rngDraw p.rngFree, { p with rngFree := p.rngFree + 1 })

/-- One byte request to the RNG (20_memory.md R79). -/
def rngByte : Cmd Byte := fun p =>
  match p.nextRng with
  | (.byte b, p') => .ok b p'
  | (.fail, p') => .error (.raise .entropy) p'
  | (.silent, p') => .error (.stalled .rngSilent) p'

/-- RngBytes(n): n bytes in the order delivered, or ENTROPY; nothing is asked for n = 0 (42_random.md R171). -/
def rngBytes (n : Nat) : Cmd Bytes :=
  match n with
  | 0 => pure []
  | n + 1 => do
    let v ← rngByte
    let t ← rngBytes n
    pure (v :: t)

/-- The loop of RandBelow with `tries` attempts left (42_random.md R172). -/
def randBelowLoop (tries bound : Nat) : Cmd Nat :=
  match tries with
  | 0 => raise .retryLimit
  | tries + 1 => do
    let bs ← rngBytes (ceil8 (bitlen (bound - 1)))
    let x := os2ip bs % 2 ^ bitlen (bound - 1)
    if x < bound then pure x else randBelowLoop tries bound

/-- RandBelow(bound) for bound >= 1, at most `limit` = RETRY_LIMIT attempts (42_random.md R172). -/
def randBelow (limit bound : Nat) : Cmd Nat :=
  if bound = 1 then pure 0 else randBelowLoop limit bound

/-- One digest request (20_memory.md R78): the unit answers with the digest, or "unsupported", which raises
UNSUPPORTED_HASH (43_hash_mgf1.md R190), or never. The digest itself is `hashFn`. -/
def hashRequest : Cmd Unit := fun p =>
  match p.hash with
  | [] => .ok () p
  | .digest :: t => .ok () { p with hash := t }
  | .unsupported :: t => .error (.raise .unsupportedHash) { p with hash := t }
  | .silent :: t => .error (.stalled .hashSilent) { p with hash := t }

/-- `k` digest requests in a row. -/
def hashRequests (k : Nat) : Cmd Unit :=
  match k with
  | 0 => pure ()
  | k + 1 => do
    hashRequest
    hashRequests k

/-- MillerRabin's `r` rounds for odd n >= 5 (41_bigint_modular.md R151); true = probably prime. -/
def millerRabinRounds (limit r n : Nat) : Cmd Bool :=
  match r with
  | 0 => pure true
  | r + 1 => do
    let x ← randBelow limit (n - 3)
    if strongProbe n (2 + x) then millerRabinRounds limit r n else pure false

/-- MillerRabin(n, R) (41_bigint_modular.md R151). -/
def millerRabin (limit r : Nat) (n : Int) : Cmd Bool :=
  if n < 2 then pure false
  else if n = 2 ∨ n = 3 then pure true
  else if n % 2 = 0 then pure false
  else millerRabinRounds limit r n.toNat

/-- Key slot K[s] (10_state.md R25). -/
def State.slot (s : State) (k : Slot) : KeySlot :=
  match k with
  | .k0 => s.k0
  | .k1 => s.k1

/-- Replace key slot K[s]. -/
def State.setSlot (s : State) (k : Slot) (v : KeySlot) : State :=
  match k with
  | .k0 => { s with k0 := v }
  | .k1 => { s with k1 := v }

/-- The other slot, t = 1 - s (44_key.md R214). -/
def otherSlot (k : Slot) : Slot :=
  match k with
  | .k0 => .k1
  | .k1 => .k0

/-- Component c of a slot with its presence bit (44_key.md R200). -/
def KeySlot.comp (ks : KeySlot) (c : Comp) : KeyComp :=
  match c with
  | .n => ks.n
  | .e => ks.e
  | .d => ks.d
  | .p => ks.p
  | .q => ks.q

/-- Replace component c of a slot. -/
def KeySlot.setComp (ks : KeySlot) (c : Comp) (v : KeyComp) : KeySlot :=
  match c with
  | .n => { ks with n := v }
  | .e => { ks with e := v }
  | .d => { ks with d := v }
  | .p => { ks with p := v }
  | .q => { ks with q := v }

/-- Absent(s, c): the presence bit becomes 0 (44_key.md R200); the stored value, which nothing can read, stays (log 16). -/
def KeyComp.absent (v : KeyComp) : KeyComp := { v with present := false }

/-- PRIV(s): d, p and q are present (10_state.md R26; 44_key.md R201). -/
def KeySlot.priv (ks : KeySlot) : Bool := ks.d.present && ks.p.present && ks.q.present

/-- n and e are present. -/
def KeySlot.hasPublic (ks : KeySlot) : Bool := ks.n.present && ks.e.present

/-- HashSupported(h): h is in HASH_SUPPORTED (43_hash_mgf1.md R187). -/
def State.hashSupported (s : State) (h : HashId) : Bool :=
  match h with
  | 1#4 => true
  | 2#4 => true
  | 3#4 => s.par.sha224
  | 4#4 => s.par.sha384
  | 5#4 => s.par.sha512
  | _ => false

/-- The 4-bit code of an error (60_exceptions.md R266). -/
def ErrCode.code (e : ErrCode) : BitVec 4 :=
  match e with
  | .ok => 0#4
  | .illegalCmd => 1#4
  | .undefOperand => 2#4
  | .overflow => 3#4
  | .divZero => 4#4
  | .domain => 5#4
  | .notInvertible => 6#4
  | .bufRange => 7#4
  | .unsupportedHash => 8#4
  | .entropy => 9#4
  | .notPrivateKey => 10#4
  | .messageTooLong => 11#4
  | .encoding => 12#4
  | .decrypt => 13#4
  | .invalidArgument => 14#4
  | .retryLimit => 15#4

end Sys2Proof.Machine
end

