-- ==== Sys2Proof/Machine/Flags.lean ====
section
/-! DEFINITION. The status flags and the scalar result (10_state.md R27, R28, R31). -/

namespace Sys2Proof.Machine

open Sys2Proof

/-- Z and N from the value written to B[RD]: Z <- (v = 0), N <- (v < 0) (10_state.md R27). -/
def State.flagsOf (s : State) (v : Int) : State :=
  { s with z := decide (v = 0), n := decide (v < 0) }

/-- CMP's flags: Z <- (a = b), N <- (a < b) (10_state.md R27; 40_bigint_arith.md R119). -/
def State.flagsCompare (s : State) (a b : Int) : State :=
  { s with z := decide (a = b), n := decide (a < b) }

/-- B_FLAG <- v (10_state.md R28). -/
def State.setBFlag (s : State) (v : Bool) : State := { s with bFlag := v }

/-- RES <- v, a 32-bit scalar (10_state.md R31). -/
def State.setRes (s : State) (v : Nat) : State := { s with res := BitVec.ofNat 32 v }

/-- The scalar 1 or 0 of a boolean result (10_state.md R31). -/
def boolScalar (v : Bool) : Nat := if v then 1 else 0

end Sys2Proof.Machine
end

