-- ==== Sys2Proof/Machine/Operands.lean ====
section
/-! DEFINITION. The operand forms: big registers, latched arguments, BUF ranges, hash identifiers, the salt length (00_scope.md R13; 10_state.md R22, R23, R33; 20_memory.md R66). -/

namespace Sys2Proof.Machine

open Sys2Proof

/-- Big register r with its valid bit. -/
def State.reg (s : State) (r : RegIdx) : BigReg := s.b[r.toNat]'(r.isLt)

/-- The read `B[i]`: an unwritten register raises UNDEF_OPERAND (10_state.md R23). -/
def readReg (s : State) (r : RegIdx) : Cmd Int :=
  if (s.reg r).valid then pure (s.reg r).val else raise .undefOperand

/-- Register r holds v and is valid (10_state.md R23: a committed write sets the valid bit). -/
def State.putReg (s : State) (r : RegIdx) (v : Int) : State :=
  { s with b := s.b.set r.toNat ⟨v, true⟩ r.isLt }

/-- The staged write `B[i] <- v`: |v| >= 2^W_BITS raises OVERFLOW (10_state.md R22). -/
def stageReg (s : State) (r : RegIdx) (v : Int) : Cmd State :=
  if v.natAbs < 2 ^ s.par.wBits then pure (s.putReg r v) else raise .overflow

/-- `B[RD] <- v; Z <- (v = 0); N <- (v < 0)`, the end of every command with one destination register (10_state.md R27). -/
def stageResult (s : State) (rd : RegIdx) (v : Int) : Cmd State := do
  let t ← stageReg s rd v
  pure (t.flagsOf v)

/-- `ARG[i]`, the latched argument as an unsigned integer (10_state.md R33). -/
def State.argLatched (s : State) (i : Fin 8) : Nat := (s.argL[i]).toNat

/-- CheckRange(off, len) on unbounded integers (20_memory.md R66). -/
def checkRange (s : State) (off len : Nat) : Cmd Unit :=
  raiseIf (s.par.bufBytes < off + len) .bufRange

/-- The first check of every command with an HID field (43_hash_mgf1.md R187). -/
def requireHash (s : State) (h : HashId) : Cmd Unit :=
  raiseIf (s.hashSupported h = false) .unsupportedHash

/-- The checks of a modulus (41_bigint_modular.md R140). -/
def checkModulus (m : Int) : Cmd Unit := do
  raiseIf (m = 0) .divZero
  raiseIf (m < 0) .domain

/-- The salt length: hLen with SH = 1, ARG5 with SH = 0 (46_pss.md R246). -/
def State.saltLen (s : State) (h : HashId) (sh : Bool) : Nat :=
  if sh then hLen h else s.argLatched 5

end Sys2Proof.Machine
end

