-- ==== Sys2Proof/Machine/Bus.lean ====
section
/-! DEFINITION. The host's bus: the address map, the register words, and one transaction (10_state.md R30..R36, R41; 20_memory.md R61..R70). -/

namespace Sys2Proof.Machine

open Sys2Proof

/-- The host-visible registers (20_memory.md R61). -/
inductive HostReg where
  | id
  | cfg
  | cmd
  | status
  | res
  | kstat
  | bufSize
  | wBits
  | arg (i : Fin 8)
  | hcap
  | lastCmd
deriving DecidableEq, Repr

/-- The register at an offset below 0x10000; none where the map has no register (20_memory.md R61). -/
def hostRegAt (off : Nat) : Option HostReg :=
  match off with
  | 0x00 => some .id
  | 0x04 => some .cfg
  | 0x08 => some .cmd
  | 0x0C => some .status
  | 0x10 => some .res
  | 0x14 => some .kstat
  | 0x18 => some .bufSize
  | 0x1C => some .wBits
  | 0x20 => some (.arg 0)
  | 0x24 => some (.arg 1)
  | 0x28 => some (.arg 2)
  | 0x2C => some (.arg 3)
  | 0x30 => some (.arg 4)
  | 0x34 => some (.arg 5)
  | 0x38 => some (.arg 6)
  | 0x3C => some (.arg 7)
  | 0x40 => some .hcap
  | 0x44 => some .lastCmd
  | _ => none

/-- STATUS.BUSY (10_state.md R30, R39). -/
def State.busyBit (s : State) : Bool := decide (s.phase = .busy)

/-- STATUS as a word (10_state.md R30). -/
def State.statusWord (s : State) : Word :=
  0#14 ++ BitVec.ofBool s.berr ++ BitVec.ofBool s.ovr ++ 0#5 ++ BitVec.ofBool s.bFlag ++ BitVec.ofBool s.n ++
    BitVec.ofBool s.z ++ s.err.code ++ 0#2 ++ BitVec.ofBool s.done ++ BitVec.ofBool s.busyBit

/-- CFG as a word (10_state.md R32). -/
def State.cfgWord (s : State) : Word :=
  0#15 ++ BitVec.ofBool s.ie ++ 0#4 ++ s.expWin ++ s.mrRounds

/-- One slot's byte of KSTAT (10_state.md R35). -/
def KeySlot.statByte (ks : KeySlot) : Byte :=
  0#1 ++ BitVec.ofBool ks.checked ++ BitVec.ofBool ks.priv ++ BitVec.ofBool ks.q.present ++
    BitVec.ofBool ks.p.present ++ BitVec.ofBool ks.d.present ++ BitVec.ofBool ks.e.present ++ BitVec.ofBool ks.n.present

/-- KSTAT as a word (10_state.md R35). -/
def State.kstatWord (s : State) : Word := 0#16 ++ s.k1.statByte ++ s.k0.statByte

/-- HCAP as a word: bit h is 1 for each supported h (10_state.md R34; 43_hash_mgf1.md R188). -/
def State.hcapWord (s : State) : Word :=
  0#26 ++ BitVec.ofBool s.par.sha512 ++ BitVec.ofBool s.par.sha384 ++ BitVec.ofBool s.par.sha224 ++ 0b110#3

/-- The interrupt output irq = STATUS.DONE and CFG.IE (10_state.md R41; 60_exceptions.md R276). -/
def State.irq (s : State) : Bool := s.done && s.ie

/-- The value a host read of a register returns; no read changes anything (20_memory.md R68). -/
def State.readHostReg (s : State) (r : HostReg) : Word :=
  match r with
  | .id => 0x54544301#32
  | .cfg => s.cfgWord
  | .cmd => 0#32
  | .status => s.statusWord
  | .res => s.res
  | .kstat => s.kstatWord
  | .bufSize => BitVec.ofNat 32 s.par.bufBytes
  | .wBits => BitVec.ofNat 32 s.par.wBits
  | .arg i => s.arg[i]
  | .hcap => s.hcapWord
  | .lastCmd => s.lastCmd

/-- A write of 0 to CFG.MR_ROUNDS stores 1 (10_state.md R32). -/
def legalRounds (v : BitVec 8) : BitVec 8 := if v = 0#8 then 1#8 else v

/-- A write outside 1..6 to CFG.EXP_WIN stores 1 (10_state.md R32). -/
def legalWindow (v : BitVec 4) : BitVec 4 := if 1 ≤ v.toNat ∧ v.toNat ≤ 6 then v else 1#4

/-- A host write of CFG (10_state.md R32). -/
def State.writeCfg (s : State) (d : Word) : State :=
  { s with mrRounds := legalRounds (d.extractLsb' 0 8), expWin := legalWindow (d.extractLsb' 8 4),
           ie := d.getLsbD 16 }

/-- A host write of STATUS clears DONE, OVR and BERR where the written bit is 1 (10_state.md R30). -/
def State.writeStatus (s : State) (d : Word) : State :=
  let t := if d.getLsbD 1 then s.clearDone else s
  { t with ovr := s.ovr && !d.getLsbD 16, berr := s.berr && !d.getLsbD 17 }

/-- A host write of CMD: acceptance, or a dropped write that sets OVR (20_memory.md R69). -/
def State.writeCmd (s : State) (d : Word) : State :=
  match s.phase with
  | .idle => s.accept d
  | .busy => { s with ovr := true }

/-- A host write of a register; a read-only register ignores it (20_memory.md R68). -/
def State.writeHostReg (s : State) (r : HostReg) (d : Word) : State :=
  match r with
  | .cfg => s.writeCfg d
  | .cmd => s.writeCmd d
  | .status => s.writeStatus d
  | .arg i => { s with arg := s.arg.set i d }
  | .id | .res | .kstat | .bufSize | .wBits | .hcap | .lastCmd => s

/-- What a bus access reaches. -/
inductive BusTarget where
  | reg (r : HostReg)
  | bufByte (i : Nat)
  | bufWord (i : Nat)
deriving DecidableEq, Repr

/-- What an access of width w at address a reaches; none is SLVERR (20_memory.md R61, R65, R67, R68). -/
def State.busTarget (s : State) (w : Width) (a : Nat) : Option BusTarget :=
  if a < 0x10000 then
    match w with
    | .w8 => none
    | .w32 => if a % 4 = 0 then (hostRegAt a).map .reg else none
  else if s.phase = .busy then none
  else
    match w with
    | .w8 => if a - 0x10000 < s.par.bufBytes then some (.bufByte (a - 0x10000)) else none
    | .w32 =>
      if (a - 0x10000) % 4 = 0 ∧ a - 0x10000 + 3 < s.par.bufBytes then some (.bufWord (a - 0x10000)) else none

/-- The 32 bits a read returns (20_memory.md R62, R63: an 8-bit read in bits 7:0, little-endian lanes). -/
def State.readTarget (s : State) (t : BusTarget) : Word :=
  match t with
  | .reg r => s.readHostReg r
  | .bufByte i => (s.bufByte i).setWidth 32
  | .bufWord i => s.bufByte (i + 3) ++ s.bufByte (i + 2) ++ s.bufByte (i + 1) ++ s.bufByte i

/-- The bytes a 32-bit write puts at the lowest index first (20_memory.md R63). -/
def laneBytes (d : Word) : Bytes :=
  [d.extractLsb' 0 8, d.extractLsb' 8 8, d.extractLsb' 16 8, d.extractLsb' 24 8]

/-- The effect of a write (20_memory.md R63, R68; log 13: an 8-bit write takes data bits 7:0). -/
def State.writeTarget (s : State) (t : BusTarget) (d : Word) : State :=
  match t with
  | .reg r => s.writeHostReg r d
  | .bufByte i => s.memWrite i [d.extractLsb' 0 8]
  | .bufWord i => s.memWrite i (laneBytes d)

/-- One host transaction (20_memory.md R62): an access that reaches nothing gets SLVERR, sets BERR, and a
read returns 0; any other is answered OKAY. -/
def State.hostAccess (s : State) (t : Txn) : State :=
  match t with
  | .read w a =>
    match s.busTarget w a.toNat with
    | none => { s with berr := true, busOut := some ⟨true, some 0#32⟩ }
    | some g => { s with busOut := some ⟨false, some (s.readTarget g)⟩ }
  | .write w a d =>
    match s.busTarget w a.toNat with
    | none => { s with berr := true, busOut := some ⟨true, none⟩ }
    | some g => { s.writeTarget g d with busOut := some ⟨false, none⟩ }

end Sys2Proof.Machine
end

