-- ==== Sys2Proof/Machine/Arith.lean ====
section
/-! DEFINITION. The meanings of the integer arithmetic, move and byte conversion commands (40_bigint_arith.md R111..R125). -/

namespace Sys2Proof.Machine

open Sys2Proof

/-- NOP (R111): it completes, and nothing else happens. -/
def execNop (s : State) : Host.Outcome State Fault Refusal :=
  runBody s (pure s)

/-- ADD (R112). -/
def execAdd (rd rs1 rs2 : RegIdx) (s : State) : Host.Outcome State Fault Refusal :=
  runBody s do
    let a ← readReg s rs1
    let b ← readReg s rs2
    stageResult s rd (a + b)

/-- SUB (R113). -/
def execSub (rd rs1 rs2 : RegIdx) (s : State) : Host.Outcome State Fault Refusal :=
  runBody s do
    let a ← readReg s rs1
    let b ← readReg s rs2
    stageResult s rd (a - b)

/-- MUL (R114). -/
def execMul (rd rs1 rs2 : RegIdx) (s : State) : Host.Outcome State Fault Refusal :=
  runBody s do
    let a ← readReg s rs1
    let b ← readReg s rs2
    stageResult s rd (a * b)

/-- DIV, the quotient rounded toward zero (R115). -/
def execDiv (rd rs1 rs2 : RegIdx) (s : State) : Host.Outcome State Fault Refusal :=
  runBody s do
    let a ← readReg s rs1
    let b ← readReg s rs2
    raiseIf (b = 0) .divZero
    stageResult s rd (a.tdiv b)

/-- REM, the remainder of DIV (R116). -/
def execRem (rd rs1 rs2 : RegIdx) (s : State) : Host.Outcome State Fault Refusal :=
  runBody s do
    let a ← readReg s rs1
    let b ← readReg s rs2
    raiseIf (b = 0) .divZero
    stageResult s rd (a - b * a.tdiv b)

/-- NEG (R117). -/
def execNeg (rd rs1 : RegIdx) (s : State) : Host.Outcome State Fault Refusal :=
  runBody s do
    let a ← readReg s rs1
    stageResult s rd (-a)

/-- LDI (R118). -/
def execLdi (rd : RegIdx) (imm : BitVec 22) (s : State) : Host.Outcome State Fault Refusal :=
  runBody s (stageResult s rd imm.toNat)

/-- CMP (R119). -/
def execCmp (rs1 rs2 : RegIdx) (s : State) : Host.Outcome State Fault Refusal :=
  runBody s do
    let a ← readReg s rs1
    let b ← readReg s rs2
    pure (s.flagsCompare a b)

/-- MOV (R120). -/
def execMov (rd rs1 : RegIdx) (s : State) : Host.Outcome State Fault Refusal :=
  runBody s do
    let a ← readReg s rs1
    stageResult s rd a

/-- BITLEN (R121). -/
def execBitlen (rd rs1 : RegIdx) (s : State) : Host.Outcome State Fault Refusal :=
  runBody s do
    let a ← readReg s rs1
    stageResult s rd (bitlen a.natAbs)

/-- LDB, bytes to integer (R123): ARG0 = offset, ARG1 = length. -/
def execLdb (rd : RegIdx) (s : State) : Host.Outcome State Fault Refusal :=
  runBody s do
    checkRange s (s.argLatched 0) (s.argLatched 1)
    stageResult s rd (os2ip (s.memRead (s.argLatched 0) (s.argLatched 1)))

/-- STB, integer to fixed-length bytes (R124): ARG0 = offset, ARG1 = length. -/
def execStb (rs1 : RegIdx) (s : State) : Host.Outcome State Fault Refusal :=
  runBody s do
    let a ← readReg s rs1
    checkRange s (s.argLatched 0) (s.argLatched 1)
    raiseIf (a < 0) .domain
    raiseIf (256 ^ s.argLatched 1 ≤ a.toNat) .overflow
    pure ((s.memWrite (s.argLatched 0) (i2osp a.toNat (s.argLatched 1))).setRes (s.argLatched 1))

/-- STBM, integer to minimal-length bytes (R125): ARG0 = offset. -/
def execStbm (rs1 : RegIdx) (s : State) : Host.Outcome State Fault Refusal :=
  runBody s do
    let a ← readReg s rs1
    raiseIf (a < 0) .domain
    checkRange s (s.argLatched 0) (i2ospMin a.toNat).length
    pure ((s.memWrite (s.argLatched 0) (i2ospMin a.toNat)).setRes (i2ospMin a.toNat).length)

end Sys2Proof.Machine
end

