-- ==== Sys2Proof/Machine/Digest.lean ====
section
/-! DEFINITION. The meanings of HASH and MGF1 (43_hash_mgf1.md R192, R193). -/

namespace Sys2Proof.Machine

open Sys2Proof

/-- HASH (R192): ARG0 = source, ARG1 = length, ARG2 = destination. -/
def execHash (hid : HashId) (s : State) : Host.Outcome State Fault Refusal :=
  runBody s do
    requireHash s hid
    checkRange s (s.argLatched 0) (s.argLatched 1)
    checkRange s (s.argLatched 2) (hLen hid)
    hashRequest
    pure ((s.memWrite (s.argLatched 2) (hashFn hid (s.memRead (s.argLatched 0) (s.argLatched 1)))).setRes (hLen hid))

/-- MGF1 (R193): ARG0 = seed, ARG1 = seed length, ARG2 = destination, ARG3 = mask length. -/
def execMgf1 (hid : HashId) (s : State) : Host.Outcome State Fault Refusal :=
  runBody s do
    requireHash s hid
    checkRange s (s.argLatched 0) (s.argLatched 1)
    checkRange s (s.argLatched 2) (s.argLatched 3)
    hashRequests (mgf1Requests hid (s.argLatched 3))
    pure ((s.memWrite (s.argLatched 2)
      (mgf1Fn hid (s.memRead (s.argLatched 0) (s.argLatched 1)) (s.argLatched 3))).setRes (s.argLatched 3))

end Sys2Proof.Machine
end

