-- ==== Sys2Proof/Machine/Modular.lean ====
section
/-! DEFINITION. The meanings of the modular arithmetic, extended GCD and primality commands (41_bigint_modular.md R141..R152). -/

namespace Sys2Proof.Machine

open Sys2Proof

/-- MODRED, the canonical residue (R141). -/
def execModred (rd rs1 rs2 : RegIdx) (s : State) : Host.Outcome State Fault Refusal :=
  runBody s do
    let a ← readReg s rs1
    let m ← readReg s rs2
    checkModulus m
    stageResult s rd (a % m)

/-- MODMUL (R142). -/
def execModmul (rd rs1 rs2 rs3 : RegIdx) (s : State) : Host.Outcome State Fault Refusal :=
  runBody s do
    let a ← readReg s rs1
    let b ← readReg s rs2
    let m ← readReg s rs3
    checkModulus m
    stageResult s rd (a * b % m)

/-- MODEXP (R143). -/
def execModexp (rd rs1 rs2 rs3 : RegIdx) (s : State) : Host.Outcome State Fault Refusal :=
  runBody s do
    let b ← readReg s rs1
    let e ← readReg s rs2
    let m ← readReg s rs3
    checkModulus m
    raiseIf (e < 0) .domain
    stageResult s rd (powModInt b e m)

/-- GCD (R145). -/
def execGcd (rd rs1 rs2 : RegIdx) (s : State) : Host.Outcome State Fault Refusal :=
  runBody s do
    let a ← readReg s rs1
    let b ← readReg s rs2
    stageResult s rd (extEuclid a b).1

/-- XGCD (R147): g, x, y to RD, RD+1, RD+2, the flags from g. RD > 13 is ILLEGAL_CMD (30_encoding.md R98);
the decoder has already refused such a word. -/
def execXgcd (rd rs1 rs2 : RegIdx) (s : State) : Host.Outcome State Fault Refusal :=
  runBody s do
    raiseIf (13 < rd.toNat) .illegalCmd
    let a ← readReg s rs1
    let b ← readReg s rs2
    let t ← stageReg s rd (extEuclid a b).1
    let t ← stageReg t (rd + 1) (extEuclid a b).2.1
    let t ← stageReg t (rd + 2) (extEuclid a b).2.2
    pure (t.flagsOf (extEuclid a b).1)

/-- MODINV (R148). -/
def execModinv (rd rs1 rs2 : RegIdx) (s : State) : Host.Outcome State Fault Refusal :=
  runBody s do
    let a ← readReg s rs1
    let m ← readReg s rs2
    checkModulus m
    raiseIf ((extEuclid (a % m) m).1 ≠ 1) .notInvertible
    stageResult s rd ((extEuclid (a % m) m).2.1 % m)

/-- MRTEST (R152): B_FLAG and RES are the primality test's answer. -/
def execMrtest (rs1 : RegIdx) (s : State) : Host.Outcome State Fault Refusal :=
  runBody s do
    let n ← readReg s rs1
    let r ← millerRabin s.par.retryLimit s.mrRoundsL.toNat n
    pure ((s.setBFlag r).setRes (boolScalar r))

end Sys2Proof.Machine
end

