-- ==== Sys2Proof/Machine/Key.lean ====
section
/-! DEFINITION. The key access procedures and the meanings of the key slot commands (44_key.md R200..R214). -/

namespace Sys2Proof.Machine

open Sys2Proof

/-- lambda(s) = lcm(p - 1, q - 1), used for p, q >= 2 (44_key.md R201). -/
def KeySlot.lambda (ks : KeySlot) : Nat := Nat.lcm (ks.p.val - 1) (ks.q.val - 1)

/-- The private clauses of Validate, in the order of 44_key.md R206; nothing for a slot that is not private. -/
def validatePrivate (s : State) (ks : KeySlot) : Cmd Unit :=
  if ks.priv then do
    raiseIf (ks.p.val * ks.q.val ≠ ks.n.val) .invalidArgument
    let primeP ← millerRabin s.par.retryLimit s.mrRoundsL.toNat ks.p.val
    raiseIf (primeP = false) .invalidArgument
    let primeQ ← millerRabin s.par.retryLimit s.mrRoundsL.toNat ks.q.val
    raiseIf (primeQ = false) .invalidArgument
    raiseIf (Nat.gcd ks.e.val ks.lambda ≠ 1) .invalidArgument
    raiseIf (((ks.e.val : Int) * ks.d.val - 1) % ks.lambda ≠ 0) .invalidArgument
  else pure ()

/-- Validate(s) (44_key.md R206): nothing for a CHECKED slot; else the checks, and CHECKED is staged. -/
def validate (s : State) (k : Slot) : Cmd State :=
  if (s.slot k).checked then pure s
  else do
    raiseIf ((s.slot k).n.val < 2 ∨ (s.slot k).e.val < 1) .invalidArgument
    validatePrivate s (s.slot k)
    pure (s.setSlot k { s.slot k with checked := true })

/-- KeyForPublic(s) (44_key.md R204): the state with CHECKED staged. -/
def keyForPublic (s : State) (k : Slot) : Cmd State := do
  raiseIf ((s.slot k).hasPublic = false) .invalidArgument
  validate s k

/-- KeyForPrivate(s) (44_key.md R205): the state with CHECKED staged. -/
def keyForPrivate (s : State) (k : Slot) : Cmd State := do
  raiseIf ((s.slot k).priv = false) .notPrivateKey
  raiseIf ((s.slot k).hasPublic = false) .invalidArgument
  validate s k

/-- The modulus's byte length k = ceil8(bitlen(n)) (44_key.md R201). -/
def KeySlot.bytes (ks : KeySlot) : Nat := ceil8 (bitlen ks.n.val)

/-- KSET (R210). -/
def execKset (ks : Slot) (comp : Comp) (rs1 : RegIdx) (s : State) : Host.Outcome State Fault Refusal :=
  runBody s do
    let a ← readReg s rs1
    raiseIf ((s.slot ks).checked = true) .invalidArgument
    raiseIf (((s.slot ks).comp comp).present = true) .invalidArgument
    raiseIf (a < 0) .invalidArgument
    pure (s.setSlot ks ((s.slot ks).setComp comp ⟨a.toNat, true⟩))

/-- KGET (R211). -/
def execKget (rd : RegIdx) (ks : Slot) (comp : Comp) (s : State) : Host.Outcome State Fault Refusal :=
  runBody s do
    raiseIf (((s.slot ks).comp comp).present = false) .invalidArgument
    stageResult s rd ((s.slot ks).comp comp).val

/-- A slot with every component absent and CHECKED = 0 (R212). -/
def KeySlot.cleared (ks : KeySlot) : KeySlot :=
  { n := ks.n.absent, e := ks.e.absent, d := ks.d.absent, p := ks.p.absent, q := ks.q.absent, checked := false }

/-- KCLR (R212). -/
def execKclr (ks : Slot) (s : State) : Host.Outcome State Fault Refusal :=
  runBody s (pure (s.setSlot ks (s.slot ks).cleared))

/-- KCHK (R213). -/
def execKchk (ks : Slot) (s : State) : Host.Outcome State Fault Refusal :=
  runBody s do
    raiseIf ((s.slot ks).hasPublic = false) .invalidArgument
    let t ← validate s ks
    pure ((t.setBFlag (s.slot ks).priv).setRes (bitlen (s.slot ks).n.val))

/-- KPUB (R214): n and e of slot KS replace the other slot. -/
def execKpub (ks : Slot) (s : State) : Host.Outcome State Fault Refusal :=
  runBody s do
    raiseIf ((s.slot ks).hasPublic = false) .invalidArgument
    pure (s.setSlot (otherSlot ks)
      { (s.slot (otherSlot ks)).cleared with
        n := ⟨(s.slot ks).n.val, true⟩, e := ⟨(s.slot ks).e.val, true⟩ })

end Sys2Proof.Machine
end

