-- ==== Sys2Proof/Machine/Oaep.lean ====
section
/-! DEFINITION. The OAEP encoder and decoder and the meanings of OAEPENC and OAEPDEC (45_oaep.md R225..R232). -/

namespace Sys2Proof.Machine

open Sys2Proof

/-- OAEPCapacity(k, h) = k - 2 hLen - 2, which may be negative (45_oaep.md R226). -/
def oaepCapacity (k : Nat) (h : HashId) : Int := (k : Int) - 2 * (hLen h : Int) - 2

/-- OAEPEncode(h, k, M, seed), used for len(M) <= OAEPCapacity(k, h) (45_oaep.md R227). -/
def oaepEncode (h : HashId) (k : Nat) (m seed : Bytes) : Bytes :=
  let lHash := hashFn h []
  let db := lHash ++ zeros (k - m.length - 2 * hLen h - 2) ++ 0x01#8 :: m
  let maskedDb := xorBytes db (mgf1Fn h seed (k - hLen h - 1))
  let maskedSeed := xorBytes seed (mgf1Fn h maskedDb (hLen h))
  0x00#8 :: maskedSeed ++ maskedDb

/-- The bytes of DB after lHash and PS: the zero bytes are skipped (45_oaep.md R228). -/
def skipZeros (bs : Bytes) : Bytes :=
  match bs with
  | [] => []
  | v :: t => if v = 0x00#8 then skipZeros t else v :: t

/-- OAEPDecode(h, k, EM), used for len(EM) = k >= 2 hLen + 2; none is FAIL (45_oaep.md R228). The first byte
after lHash that is not 0x00 must be 0x01 (90_conflicts.md C4). -/
def oaepDecode (h : HashId) (k : Nat) (em : Bytes) : Option Bytes :=
  let maskedSeed := (em.drop 1).take (hLen h)
  let maskedDb := em.drop (hLen h + 1)
  let seed := xorBytes maskedSeed (mgf1Fn h maskedDb (hLen h))
  let db := xorBytes maskedDb (mgf1Fn h seed (k - hLen h - 1))
  let rest := skipZeros (db.drop (hLen h))
  if em.headD 0xFF#8 = 0x00#8 ∧ db.take (hLen h) = hashFn h [] ∧ rest.head? = some 0x01#8 then some rest.tail
  else none

/-- The digests OAEPEncode and OAEPDecode ask for: lHash, the seed mask, the DB mask (70_reset_and_hazards.md R314). -/
def oaepRequests (h : HashId) (k : Nat) : Nat :=
  1 + mgf1Requests h (hLen h) + mgf1Requests h (k - hLen h - 1)

/-- OAEPENC (R230): ARG0 = message, ARG1 = message length, ARG2 = ciphertext. -/
def execOaepenc (hid : HashId) (ks : Slot) (s : State) : Host.Outcome State Fault Refusal :=
  runBody s do
    requireHash s hid
    let t ← keyForPublic s ks
    let k := (s.slot ks).bytes
    checkRange s (s.argLatched 0) (s.argLatched 1)
    checkRange s (s.argLatched 2) k
    raiseIf (oaepCapacity k hid < (s.argLatched 1 : Int)) .messageTooLong
    let seed ← rngBytes (hLen hid)
    hashRequests (oaepRequests hid k)
    let em := oaepEncode hid k (s.memRead (s.argLatched 0) (s.argLatched 1)) seed
    let c := powMod (os2ip em) (s.slot ks).e.val (s.slot ks).n.val
    pure ((t.memWrite (s.argLatched 2) (i2osp c k)).setRes k)

/-- OAEPDEC (R232): ARG0 = ciphertext, ARG1 = ciphertext length, ARG2 = message output. -/
def execOaepdec (hid : HashId) (ks : Slot) (s : State) : Host.Outcome State Fault Refusal :=
  runBody s do
    requireHash s hid
    let t ← keyForPrivate s ks
    let k := (s.slot ks).bytes
    checkRange s (s.argLatched 0) (s.argLatched 1)
    checkRange s (s.argLatched 2) (oaepCapacity k hid).toNat
    raiseIf (s.argLatched 1 ≠ k) .decrypt
    raiseIf (k < 2 * hLen hid + 2) .decrypt
    let c := os2ip (s.memRead (s.argLatched 0) (s.argLatched 1))
    raiseIf ((s.slot ks).n.val ≤ c) .decrypt
    let m := powMod c (s.slot ks).d.val (s.slot ks).n.val
    hashRequests (oaepRequests hid k)
    match oaepDecode hid k (i2osp m k) with
    | none => raise .decrypt
    | some r => pure ((t.memWrite (s.argLatched 2) r).setRes r.length)

end Sys2Proof.Machine
end

