-- ==== Sys2Proof/Machine/Pss.lean ====
section
/-! DEFINITION. The PSS encoder and verifier and the meanings of PSSSIGN and PSSVER (46_pss.md R245..R252). -/

namespace Sys2Proof.Machine

open Sys2Proof

/-- topMask = 0xFF >> (8 emLen - emBits) (46_pss.md R245). -/
def pssTopMask (emBits : Nat) : Byte := 0xFF#8 >>> (8 * ceil8 emBits - emBits)

/-- S with S[0] <- S[0] AND mask. -/
def maskFirst (mask : Byte) (bs : Bytes) : Bytes :=
  match bs with
  | [] => []
  | v :: t => (v &&& mask) :: t

/-- H = Hash(h, M') with M' = zeros(8) ++ mHash ++ salt (46_pss.md R247, R248). -/
def pssHash (h : HashId) (mHash salt : Bytes) : Bytes := hashFn h (zeros 8 ++ mHash ++ salt)

/-- PSSEncode(h, emBits, mHash, salt), used for emLen >= hLen + len(salt) + 2 (46_pss.md R247). -/
def pssEncode (h : HashId) (emBits : Nat) (mHash salt : Bytes) : Bytes :=
  let emLen := ceil8 emBits
  let hh := pssHash h mHash salt
  let db := zeros (emLen - salt.length - hLen h - 2) ++ 0x01#8 :: salt
  let maskedDb := xorBytes db (mgf1Fn h hh (emLen - hLen h - 1))
  maskFirst (pssTopMask emBits) maskedDb ++ hh ++ [0xBC#8]

/-- The H field of an encoded message: EM[emLen-hLen-1 .. emLen-2] (46_pss.md R248). -/
def pssH (h : HashId) (emBits : Nat) (em : Bytes) : Bytes :=
  (em.drop (ceil8 emBits - hLen h - 1)).take (hLen h)

/-- The first checks of PSSVerifyCore: length, trailer byte, leading bits (46_pss.md R248). -/
def pssFormatOk (h : HashId) (emBits : Nat) (em : Bytes) (sLen : Nat) : Bool :=
  decide (hLen h + sLen + 2 ≤ ceil8 emBits) && decide (em.getD (ceil8 emBits - 1) 0x00#8 = 0xBC#8) &&
    decide (em.headD 0x00#8 &&& ~~~(pssTopMask emBits) = 0x00#8)

/-- DB recovered from an encoded message, its first byte masked (46_pss.md R248). -/
def pssDb (h : HashId) (emBits : Nat) (em : Bytes) : Bytes :=
  maskFirst (pssTopMask emBits)
    (xorBytes (em.take (ceil8 emBits - hLen h - 1)) (mgf1Fn h (pssH h emBits em) (ceil8 emBits - hLen h - 1)))

/-- The padding checks of PSSVerifyCore: PS all zero, separator 0x01 (46_pss.md R248). -/
def pssPaddingOk (h : HashId) (emBits : Nat) (em : Bytes) (sLen : Nat) : Bool :=
  decide ((pssDb h emBits em).take (ceil8 emBits - hLen h - sLen - 2) = zeros (ceil8 emBits - hLen h - sLen - 2)) &&
    decide ((pssDb h emBits em).getD (ceil8 emBits - hLen h - sLen - 2) 0x00#8 = 0x01#8)

/-- The salt recovered from an encoded message: the last sLen bytes of DB (46_pss.md R248). -/
def pssSalt (h : HashId) (emBits : Nat) (em : Bytes) (sLen : Nat) : Bytes :=
  (pssDb h emBits em).drop (ceil8 emBits - hLen h - sLen - 1)

/-- PSSVerifyCore(h, emBits, mHash, EM, sLen) (46_pss.md R248). -/
def pssVerifyCore (h : HashId) (emBits : Nat) (mHash em : Bytes) (sLen : Nat) : Bool :=
  pssFormatOk h emBits em sLen && pssPaddingOk h emBits em sLen &&
    decide (pssH h emBits em = pssHash h mHash (pssSalt h emBits em sLen))

/-- The digests PSSVerifyCore asks for: none when a format check fails, the DB mask's, and H' when the
padding is right (46_pss.md R248; 70_reset_and_hazards.md R314). -/
def pssVerifyRequests (h : HashId) (emBits : Nat) (em : Bytes) (sLen : Nat) : Nat :=
  if pssFormatOk h emBits em sLen then
    mgf1Requests h (ceil8 emBits - hLen h - 1) + (if pssPaddingOk h emBits em sLen then 1 else 0)
  else 0

/-- emBits = bitlen(n) - 1 (46_pss.md R245). -/
def KeySlot.emBits (ks : KeySlot) : Nat := bitlen ks.n.val - 1

/-- PSSSIGN (R250): ARG0 = message, ARG1 = message length, ARG2 = signature, ARG5 = salt length with SH = 0. -/
def execPsssign (hid : HashId) (ks : Slot) (sh : Bool) (s : State) : Host.Outcome State Fault Refusal :=
  runBody s do
    requireHash s hid
    let t ← keyForPrivate s ks
    let k := (s.slot ks).bytes
    let emBits := (s.slot ks).emBits
    let sLen := s.saltLen hid sh
    checkRange s (s.argLatched 0) (s.argLatched 1)
    checkRange s (s.argLatched 2) k
    raiseIf (ceil8 emBits < hLen hid + sLen + 2) .encoding
    hashRequest
    let mHash := hashFn hid (s.memRead (s.argLatched 0) (s.argLatched 1))
    let salt ← rngBytes sLen
    hashRequests (1 + mgf1Requests hid (ceil8 emBits - hLen hid - 1))
    let em := pssEncode hid emBits mHash salt
    let sig := powMod (os2ip em) (s.slot ks).d.val (s.slot ks).n.val
    pure ((t.memWrite (s.argLatched 2) (i2osp sig k)).setRes k)

/-- The encoded message PSSVER recovers: none when the signature's length is not k, its integer is not
below n, or the recovered value does not fit in emLen bytes (46_pss.md R251, R252). -/
def pssRecover (ks : KeySlot) (sig : Bytes) : Option Bytes :=
  if sig.length = ks.bytes ∧ os2ip sig < ks.n.val ∧
      powMod (os2ip sig) ks.e.val ks.n.val < 256 ^ ceil8 ks.emBits then
    some (i2osp (powMod (os2ip sig) ks.e.val ks.n.val) (ceil8 ks.emBits))
  else none

/-- PSSVER (R252): ARG0 = message, ARG1 = message length, ARG3 = signature, ARG4 = signature length, ARG5 =
salt length with SH = 0. A malformed signature is the answer 0, never an error (R251). -/
def execPssver (hid : HashId) (ks : Slot) (sh : Bool) (s : State) : Host.Outcome State Fault Refusal :=
  runBody s do
    requireHash s hid
    let t ← keyForPublic s ks
    let emBits := (s.slot ks).emBits
    let sLen := s.saltLen hid sh
    checkRange s (s.argLatched 0) (s.argLatched 1)
    checkRange s (s.argLatched 3) (s.argLatched 4)
    hashRequest
    let mHash := hashFn hid (s.memRead (s.argLatched 0) (s.argLatched 1))
    match pssRecover (s.slot ks) (s.memRead (s.argLatched 3) (s.argLatched 4)) with
    | none => pure ((t.setBFlag false).setRes 0)
    | some em => do
      hashRequests (pssVerifyRequests hid emBits em sLen)
      let ok := pssVerifyCore hid emBits mHash em sLen
      pure ((t.setBFlag ok).setRes (boolScalar ok))

end Sys2Proof.Machine
end

