-- ==== Sys2Proof/Machine/Random.lean ====
section
/-! DEFINITION. The meanings of the random source commands (42_random.md R173..R175). -/

namespace Sys2Proof.Machine

open Sys2Proof

/-- RNDB, random bytes to BUF (R173): ARG0 = offset, ARG1 = length. -/
def execRndb (s : State) : Host.Outcome State Fault Refusal :=
  runBody s do
    checkRange s (s.argLatched 0) (s.argLatched 1)
    let bs ← rngBytes (s.argLatched 1)
    pure ((s.memWrite (s.argLatched 0) bs).setRes (s.argLatched 1))

/-- RNDBELOW, a uniform integer below a bound (R174). -/
def execRndbelow (rd rs1 : RegIdx) (s : State) : Host.Outcome State Fault Refusal :=
  runBody s do
    let bound ← readReg s rs1
    raiseIf (bound ≤ 0) .domain
    let v ← randBelow s.par.retryLimit bound.toNat
    stageResult s rd v

/-- The value of RNDODD from the bytes drawn: L bits, top and bottom bit set (R175). -/
def oddOfBytes (l : Nat) (bs : Bytes) : Nat := (os2ip bs % 2 ^ l) ||| 2 ^ (l - 1) ||| 1

/-- RNDODD, a random odd integer of a given bit length (R175). -/
def execRndodd (rd : RegIdx) (imm : BitVec 22) (s : State) : Host.Outcome State Fault Refusal :=
  runBody s do
    raiseIf (imm.toNat = 0) .domain
    raiseIf (s.par.wBits < imm.toNat) .overflow
    let bs ← rngBytes (ceil8 imm.toNat)
    stageResult s rd (oddOfBytes imm.toNat bs)

end Sys2Proof.Machine
end

