-- ==== Sys2Proof/Machine/Dispatch.lean ====
section
/-! DEFINITION. The dispatch: one command, one meaning (30_encoding.md R95, R100). -/

namespace Sys2Proof.Machine

open Sys2Proof

/-- The completion of a decoded command on the state as it stands (10_state.md R40). -/
def exec (i : Instr) (s : State) : Host.Outcome State Fault Refusal :=
  match i with
  | .nop => Sys2Proof.Machine.execNop s
  | .add rd rs1 rs2 => Sys2Proof.Machine.execAdd rd rs1 rs2 s
  | .sub rd rs1 rs2 => Sys2Proof.Machine.execSub rd rs1 rs2 s
  | .mul rd rs1 rs2 => Sys2Proof.Machine.execMul rd rs1 rs2 s
  | .div rd rs1 rs2 => Sys2Proof.Machine.execDiv rd rs1 rs2 s
  | .rem rd rs1 rs2 => Sys2Proof.Machine.execRem rd rs1 rs2 s
  | .neg rd rs1 => Sys2Proof.Machine.execNeg rd rs1 s
  | .mov rd rs1 => Sys2Proof.Machine.execMov rd rs1 s
  | .ldi rd imm => Sys2Proof.Machine.execLdi rd imm s
  | .cmp rs1 rs2 => Sys2Proof.Machine.execCmp rs1 rs2 s
  | .bitlen rd rs1 => Sys2Proof.Machine.execBitlen rd rs1 s
  | .modred rd rs1 rs2 => Sys2Proof.Machine.execModred rd rs1 rs2 s
  | .modmul rd rs1 rs2 rs3 => Sys2Proof.Machine.execModmul rd rs1 rs2 rs3 s
  | .modexp rd rs1 rs2 rs3 => Sys2Proof.Machine.execModexp rd rs1 rs2 rs3 s
  | .gcd rd rs1 rs2 => Sys2Proof.Machine.execGcd rd rs1 rs2 s
  | .xgcd rd rs1 rs2 => Sys2Proof.Machine.execXgcd rd rs1 rs2 s
  | .modinv rd rs1 rs2 => Sys2Proof.Machine.execModinv rd rs1 rs2 s
  | .mrtest rs1 => Sys2Proof.Machine.execMrtest rs1 s
  | .rndb => Sys2Proof.Machine.execRndb s
  | .rndbelow rd rs1 => Sys2Proof.Machine.execRndbelow rd rs1 s
  | .rndodd rd imm => Sys2Proof.Machine.execRndodd rd imm s
  | .ldb rd => Sys2Proof.Machine.execLdb rd s
  | .stb rs1 => Sys2Proof.Machine.execStb rs1 s
  | .stbm rs1 => Sys2Proof.Machine.execStbm rs1 s
  | .hash hid => Sys2Proof.Machine.execHash hid s
  | .mgf1 hid => Sys2Proof.Machine.execMgf1 hid s
  | .kset ks comp rs1 => Sys2Proof.Machine.execKset ks comp rs1 s
  | .kget rd ks comp => Sys2Proof.Machine.execKget rd ks comp s
  | .kclr ks => Sys2Proof.Machine.execKclr ks s
  | .kchk ks => Sys2Proof.Machine.execKchk ks s
  | .kpub ks => Sys2Proof.Machine.execKpub ks s
  | .oaepenc hid ks => Sys2Proof.Machine.execOaepenc hid ks s
  | .oaepdec hid ks => Sys2Proof.Machine.execOaepdec hid ks s
  | .psssign hid ks sh => Sys2Proof.Machine.execPsssign hid ks sh s
  | .pssver hid ks sh => Sys2Proof.Machine.execPssver hid ks sh s

end Sys2Proof.Machine
end

