-- ==== Sys2Proof/Machine/Step.lean ====
section
/-! DEFINITION. One step of the block: the next event of its single sequence of events (20_memory.md R71; 10_state.md R40; 70_reset_and_hazards.md R300). -/

namespace Sys2Proof.Machine

open Sys2Proof

/-- Execute(cur) at the completion of the command in progress (30_encoding.md R100): the decoded command's
meaning, or ILLEGAL_CMD for a word that is no command. -/
def runCommand (s : State) : Host.Outcome State Fault Refusal :=
  match decode s.cur with
  | .ok i => exec i s
  | .error _ => .next s.illegal

/-- The completion event: enabled while BUSY (10_state.md R40); nothing happens in an idle block (log 14). -/
def completeEvent (s : State) : Host.Outcome State Fault Refusal :=
  match s.phase with
  | .busy => runCommand s
  | .idle => .next s

/-- One event, the oldest of `events` (log 10). With no event listed, a command in progress completes and an
idle block stays as it is. -/
def step (s : State) : Host.Outcome State Fault Refusal :=
  match s.events with
  | [] => completeEvent s
  | .complete :: es => completeEvent { s with events := es }
  | .host t :: es => .next (State.hostAccess { s with events := es } t)
  | .reset :: es => .next (State.resetEvent { s with events := es })

/-- The state in which the command word w (the low `nbits` bits, the rest 0) is in progress and completes at
the next step: w has been accepted from CMD (10_state.md R40), and the completion is the next event (log 11). -/
def State.withFetchWord (s : State) (nbits w : Nat) : State :=
  { s.accept (BitVec.ofNat 32 (w % 2 ^ nbits)) with events := .complete :: s.events }

end Sys2Proof.Machine
end

