-- ==== Sys2Proof/Safety.lean ====
section
/-! DEFINITION. The terms claims are written in: a completion, the registers and BUF bytes a command names, when a key slot may be used, and the invariant of the machine. -/

namespace Sys2Proof.Machine

open Sys2Proof

/-- A completion with code `e` of a command that consumed no answer of the ports (10_state.md R40). -/
def State.doneWith (s : State) (e : ErrCode) : State :=
  { s with phase := .idle, done := true, err := e }

/-- B[RD] holds v, is valid, and Z and N describe v (10_state.md R23, R27). -/
def State.withResult (s : State) (rd : RegIdx) (v : Int) : State :=
  { s with
    b := s.b.set rd.toNat ⟨v, true⟩ rd.isLt
    z := decide (v = 0)
    n := decide (v < 0) }

/-- The big registers a command reads, RS1 then RS2 then RS3 (10_state.md R24). -/
def srcRegs (i : Instr) : List RegIdx :=
  match i with
  | .add _ a b | .sub _ a b | .mul _ a b | .div _ a b | .rem _ a b | .cmp a b => [a, b]
  | .modred _ a b | .gcd _ a b | .xgcd _ a b | .modinv _ a b => [a, b]
  | .modmul _ a b c | .modexp _ a b c => [a, b, c]
  | .neg _ a | .mov _ a | .bitlen _ a | .rndbelow _ a => [a]
  | .mrtest a | .stb a | .stbm a | .kset _ _ a => [a]
  | .nop | .ldi .. | .rndb | .rndodd .. | .ldb .. | .hash .. | .mgf1 .. | .kget .. | .kclr .. | .kchk .. | .kpub ..
  | .oaepenc .. | .oaepdec .. | .psssign .. | .pssver .. => []

/-- The big registers a command writes (10_state.md R24). -/
def destRegs (i : Instr) : List RegIdx :=
  match i with
  | .add d _ _ | .sub d _ _ | .mul d _ _ | .div d _ _ | .rem d _ _ | .neg d _ | .mov d _ | .ldi d _ | .bitlen d _ => [d]
  | .modred d _ _ | .modmul d _ _ _ | .modexp d _ _ _ | .gcd d _ _ | .modinv d _ _ => [d]
  | .xgcd d _ _ => [d, d + 1, d + 2]
  | .rndbelow d _ | .rndodd d _ | .ldb d | .kget d _ _ => [d]
  | .nop | .cmp .. | .mrtest .. | .rndb | .stb .. | .stbm .. | .hash .. | .mgf1 .. | .kset .. | .kclr .. | .kchk ..
  | .kpub .. | .oaepenc .. | .oaepdec .. | .psssign .. | .pssver .. => []

/-- The commands that write B_FLAG (10_state.md R28). -/
def writesBFlag (i : Instr) : Bool :=
  match i with
  | .mrtest .. | .pssver .. | .kchk .. => true
  | _ => false

/-- The commands that write RES (10_state.md R31). -/
def writesRes (i : Instr) : Bool :=
  match i with
  | .stb .. | .stbm .. | .rndb | .hash .. | .mgf1 .. | .mrtest .. | .kchk .. | .oaepenc .. | .oaepdec .. | .psssign ..
  | .pssver .. => true
  | _ => false

/-- The commands that can ask the RNG for bytes (60_exceptions.md R266, code 9). -/
def drawsRandom (i : Instr) : Bool :=
  match i with
  | .rndb | .rndbelow .. | .rndodd .. | .mrtest .. | .kchk .. | .oaepenc .. | .oaepdec .. | .psssign .. | .pssver .. => true
  | _ => false

/-- The commands with an HID field, the only ones that ask for digests (43_hash_mgf1.md R187). -/
def usesHash (i : Instr) : Bool :=
  match i with
  | .hash .. | .mgf1 .. | .oaepenc .. | .oaepdec .. | .psssign .. | .pssver .. => true
  | _ => false

/-- The key slot a command validates at its first use (44_key.md R206, D8). -/
def validatedSlot (i : Instr) : Option Slot :=
  match i with
  | .kchk k | .oaepenc _ k | .oaepdec _ k | .psssign _ k _ | .pssver _ k _ => some k
  | _ => none

/-- The key slot whose components a command replaces: KSET and KCLR their own, KPUB the other (44_key.md R210, R212, R214). -/
def rewrittenSlot (i : Instr) : Option Slot :=
  match i with
  | .kset k _ _ | .kclr k => some k
  | .kpub k => some (otherSlot k)
  | _ => none

/-- The BUF offset a command that writes BUF stores at: the destination ARG of its rule (R124, R125, R173, R192, R193, R230, R232, R250). -/
def storeOffset (i : Instr) (s : State) : Option Nat :=
  match i with
  | .stb .. | .stbm .. | .rndb => some (s.argLatched 0)
  | .hash .. | .mgf1 .. | .oaepenc .. | .oaepdec .. | .psssign .. => some (s.argLatched 2)
  | _ => none

/-- PublicValid(s) (44_key.md R202). -/
abbrev KeySlot.PublicValid (ks : KeySlot) : Prop :=
  ks.n.present = true ∧ ks.e.present = true ∧ 2 ≤ ks.n.val ∧ 1 ≤ ks.e.val

/-- PrivateValid(s) with the draws made: the ports are `p` before the two primality tests and `q` after them
(44_key.md R203). -/
def PrivateValid (s : State) (ks : KeySlot) (p q : Ports) : Prop :=
  ks.PublicValid ∧ ks.priv = true ∧ ks.p.val * ks.q.val = ks.n.val ∧
  (∃ r, millerRabin s.par.retryLimit s.mrRoundsL.toNat ks.p.val p = .ok true r ∧
    millerRabin s.par.retryLimit s.mrRoundsL.toNat ks.q.val r = .ok true q) ∧
  Nat.gcd ks.e.val (Nat.lcm (ks.p.val - 1) (ks.q.val - 1)) = 1 ∧
  ((Nat.lcm (ks.p.val - 1) (ks.q.val - 1) : Nat) : Int) ∣ (ks.e.val : Int) * ks.d.val - 1

/-- Slot k may be used for a key operation: n and e are present, and the slot is CHECKED, or valid with the
draws made, which take the ports from `p` to `q` (44_key.md R204, R206). -/
def KeyUsable (s : State) (k : Slot) (p q : Ports) : Prop :=
  (s.slot k).hasPublic = true ∧
  (((s.slot k).checked = true ∧ p = q) ∨
   ((s.slot k).checked = false ∧ (s.slot k).PublicValid ∧ (s.slot k).priv = false ∧ p = q) ∨
   ((s.slot k).checked = false ∧ PrivateValid s (s.slot k) p q))

/-- The listed answers make RandBelow(bound), for bound > 1, raise `e` and leave the ports `q`: after rejected attempts
the RNG fails among the bytes of the next one, or every attempt was rejected (42_random.md R171, R172). -/
def RandBelowFails (limit bound : Nat) (p : Ports) (e : ErrCode) (q : Ports) : Prop :=
  ∃ (rej : List Bytes) (rest : List RngAnswer),
    (∀ bs ∈ rej, bs.length = ceil8 (bitlen (bound - 1)) ∧ bound ≤ os2ip bs % 2 ^ bitlen (bound - 1)) ∧
    q = { p with rng := rest } ∧
    ((e = .entropy ∧ rej.length < limit ∧ ∃ bs : Bytes, bs.length < ceil8 (bitlen (bound - 1)) ∧
        p.rng = (rej.flatten ++ bs).map .byte ++ .fail :: rest) ∨
     (e = .retryLimit ∧ rej.length = limit ∧ p.rng = rej.flatten.map .byte ++ rest))

/-- The listed answers make RandBelow(bound), for bound > 1, return `x` and leave the ports `q`: after fewer than `limit`
rejected attempts the low bits of the next one's bytes are x, below the bound (42_random.md R172). -/
def RandBelowGives (limit bound : Nat) (p : Ports) (x : Nat) (q : Ports) : Prop :=
  ∃ (rej : List Bytes) (acc : Bytes) (rest : List RngAnswer),
    (∀ bs ∈ rej, bs.length = ceil8 (bitlen (bound - 1)) ∧ bound ≤ os2ip bs % 2 ^ bitlen (bound - 1)) ∧
    rej.length < limit ∧ acc.length = ceil8 (bitlen (bound - 1)) ∧ os2ip acc % 2 ^ bitlen (bound - 1) = x ∧ x < bound ∧
    p.rng = (rej.flatten ++ acc).map .byte ++ rest ∧ q = { p with rng := rest }

/-- The listed answers give a Miller-Rabin test of n the bases 2 + x, x in `xs`, one after the other, and each passes; they
take the ports from `p` to `q` (41_bigint_modular.md R151). -/
def BasesPass (limit n : Nat) (xs : List Nat) (p q : Ports) : Prop :=
  match xs with
  | [] => q = p
  | x :: xs => strongProbe n (2 + x) = true ∧ ∃ r, RandBelowGives limit (n - 3) p x r ∧ BasesPass limit n xs r q

/-- The listed answers make MillerRabin(n, rounds) raise `e`: after fewer than `rounds` bases that pass, the draw of the
next one fails (41_bigint_modular.md R151). -/
def MillerRabinFails (limit rounds n : Nat) (p : Ports) (e : ErrCode) (q : Ports) : Prop :=
  5 ≤ n ∧ n % 2 = 1 ∧ ∃ (xs : List Nat) (r : Ports),
    xs.length < rounds ∧ BasesPass limit n xs p r ∧ RandBelowFails limit (n - 3) r e q

/-- Validate of slot k, which has n and e and is not CHECKED, raises `e` and takes the ports from `p` to `q`: the first
clause that fails, or the draw that does, in the order of 44_key.md R206. -/
def KeyRefused (s : State) (k : Slot) (p : Ports) (e : ErrCode) (q : Ports) : Prop :=
  let ks := s.slot k
  let test (n : Nat) : Cmd Bool := millerRabin s.par.retryLimit s.mrRoundsL.toNat n
  let fails (n : Nat) := MillerRabinFails s.par.retryLimit s.mrRoundsL.toNat n
  let lam := Nat.lcm (ks.p.val - 1) (ks.q.val - 1)
  ks.hasPublic = true ∧ ks.checked = false ∧
  ((e = .invalidArgument ∧ q = p ∧ (ks.n.val < 2 ∨ ks.e.val < 1)) ∨
   (2 ≤ ks.n.val ∧ 1 ≤ ks.e.val ∧ ks.priv = true ∧
    ((e = .invalidArgument ∧ q = p ∧ ks.p.val * ks.q.val ≠ ks.n.val) ∨
     (ks.p.val * ks.q.val = ks.n.val ∧
      ((e = .invalidArgument ∧ test ks.p.val p = .ok false q) ∨
       fails ks.p.val p e q ∨
       ∃ r, test ks.p.val p = .ok true r ∧
        ((e = .invalidArgument ∧ test ks.q.val r = .ok false q) ∨
         fails ks.q.val r e q ∨
         (e = .invalidArgument ∧ test ks.q.val r = .ok true q ∧
          (Nat.gcd ks.e.val lam ≠ 1 ∨ ¬((lam : Nat) : Int) ∣ (ks.e.val : Int) * ks.d.val - 1))))))))

/-- The state with slot k CHECKED (44_key.md R206). -/
def State.markChecked (s : State) (k : Slot) : State := s.setSlot k { s.slot k with checked := true }

/-- The hash unit answers every request with the digest: no listed answer is another. -/
abbrev HashAnswers (p : Ports) : Prop := ∀ a ∈ p.hash, a = .digest

/-- Among the next `k` digest requests one is answered "unsupported" after digests only (43_hash_mgf1.md R190); the
answers up to it are consumed. -/
def HashRefuses (p : Ports) (k : Nat) (q : Ports) : Prop :=
  ∃ (j : Nat) (rest : List HashAnswer), j < k ∧ p.hash = List.replicate j .digest ++ .unsupported :: rest ∧
    q = { p with hash := rest }

/-- Every value of a key slot is below 2^W (10_state.md R25). -/
abbrev KeySlot.InRange (ks : KeySlot) (w : Nat) : Prop :=
  ks.n.val < 2 ^ w ∧ ks.e.val < 2 ^ w ∧ ks.d.val < 2 ^ w ∧ ks.p.val < 2 ^ w ∧ ks.q.val < 2 ^ w

/-- The invariant of the machine. -/
structure State.Inv (s : State) : Prop where
  /-- The parameters are legal (00_scope.md R8). -/
  params : s.par.Legal
  /-- Every big register holds an integer below 2^W_BITS in magnitude (10_state.md R22). -/
  regs : ∀ r, (s.reg r).val.natAbs < 2 ^ s.par.wBits
  /-- Every key component is below 2^W_BITS (10_state.md R25). -/
  keys : ∀ k, (s.slot k).InRange s.par.wBits
  /-- A CHECKED slot is PublicValid (44_key.md R216 (4)). -/
  checked : ∀ k, (s.slot k).checked = true → (s.slot k).PublicValid
  /-- BUF's list is in its canonical form. -/
  memWf : Memory.wf s.buf
  /-- Every listed byte is a byte of BUF (20_memory.md R60). -/
  memIn : ∀ c ∈ s.buf, c.1 < s.par.bufBytes
  /-- CFG holds legal values (10_state.md R32). -/
  cfg : 1 ≤ s.mrRounds.toNat ∧ 1 ≤ s.expWin.toNat ∧ s.expWin.toNat ≤ 6
  /-- While BUSY, DONE is 0, LASTCMD is the command in progress and the latched settings are legal (10_state.md R39, R40). -/
  busy : s.phase = .busy →
    s.done = false ∧ s.lastCmd = s.cur ∧ 1 ≤ s.mrRoundsL.toNat ∧ 1 ≤ s.expWinL.toNat ∧ s.expWinL.toNat ≤ 6

end Sys2Proof.Machine
end

