-- ==== Sys2Proof/Certificates/Slice0/Obligations.lean ====
section
/-! DEFINITION. The statements for the provers, from the numbered rules of spec/. Each docstring names the rules. -/

open Sys2Proof Sys2Proof.Machine

/-! ## Encoding (30_encoding.md) -/

/-- R90..R95, R98, R100: a word decodes to a command exactly when the command has an encoding and the word is
it: decode and encode agree in both directions, every operand at every value. -/
def Obligations.DecodeAndEncodeAgree : Prop :=
  ∀ (w : Word) (i : Instr), decode w = .ok i ↔ i.wellFormed = true ∧ encode i = w

/-- R94, R100: a decoded word meets the mask and match of its row; a word that meets a row's mask and match
selects that row, or has an illegal XGCD destination or component index (R98); no two rows select one word. -/
def Obligations.DecodeFollowsMaskAndMatch : Prop :=
  ∀ w : Word,
    (∀ i, decode w = .ok i → w &&& tableMask i = tableMatch i) ∧
    (∀ i, w &&& tableMask i = tableMatch i →
      (∃ j, decode w = .ok j ∧ tableMatch j = tableMatch i) ∨
      (opOf w = 0x14#6 ∧ 13 < (rdOf w).toNat ∧ decode w = .error .xgcdDestination) ∨
      ((opOf w = 0x30#6 ∨ opOf w = 0x31#6) ∧ 4 < (rs2Of w).toNat ∧ decode w = .error .unknownComponent)) ∧
    (∀ i j, w &&& tableMask i = tableMatch i → w &&& tableMask j = tableMatch j → tableMatch i = tableMatch j)

/-- R111..R252: example words of the command rules decode to the commands they stand for. -/
def Obligations.ExampleWordsDecode : Prop :=
  decode 0x04804000#32 = .ok (.add 2 0 1) ∧ decode 0x48C04800#32 = .ok (.modexp 3 0 1 2) ∧
  decode 0x20000041#32 = .ok (.ldi 0 65) ∧ decode 0x840C0000#32 = .ok (.stb 3) ∧
  decode 0x64400000#32 = .ok (.rndbelow 1 0) ∧ decode 0xA4000040#32 = .ok (.mgf1 1) ∧
  decode 0xC5404000#32 = .ok (.kget 5 .k0 .e) ∧ decode 0xE0000060#32 = .ok (.oaepenc 1 .k1) ∧
  decode 0xEC0000A0#32 = .ok (.pssver 2 .k1 false)

/-- R97: a word with a reserved opcode is accepted like any other, and completes with ILLEGAL_CMD and no
other effect.
That the completion is the next event of a list is the model's form (log 10). -/
def Obligations.ReservedOpcodesCompleteIllegal : Prop :=
  ∀ (s : State) (w : Word) (es : List Event),
    (opOf w).toNat ∈ [0x0B, 0x0C, 0x0D, 0x0E, 0x0F, 0x17, 0x1B, 0x1C, 0x1D, 0x1E, 0x1F, 0x23, 0x24, 0x25, 0x26, 0x27,
      0x2A, 0x2B, 0x2C, 0x2D, 0x2E, 0x2F, 0x35, 0x36, 0x37, 0x3C, 0x3D, 0x3E, 0x3F] →
    (s.phase = .idle → (State.hostAccess s (.write .w32 8 w)).phase = .busy ∧
      (State.hostAccess s (.write .w32 8 w)).cur = w) ∧
    (s.phase = .busy → s.cur = w → s.events = .complete :: es →
      step s = .next ({ s with events := es }.doneWith .illegalCmd))

/-- R98, R99: a nonzero bit in a field the opcode does not use or in RSV, XGCD with RD > 13, and KSET or KGET with
COMP > 4 complete with ILLEGAL_CMD and no other effect; NOP is the all-zero word only.
That the completion is the next event of a list is the model's form (log 10). -/
def Obligations.IllegalFieldsCompleteIllegal : Prop :=
  (∀ w : Word, decode w = .ok .nop ↔ w = 0x00000000#32) ∧
  ∀ (s : State) (es : List Event), s.phase = .busy → s.events = .complete :: es →
    ((∃ i, opOf s.cur = opOf (tableMatch i) ∧ s.cur &&& tableMask i ≠ tableMatch i) ∨
      (opOf s.cur = 0x14#6 ∧ 13 < (rdOf s.cur).toNat) ∨
      ((opOf s.cur = 0x30#6 ∨ opOf s.cur = 0x31#6) ∧ 4 < (rs2Of s.cur).toNat)) →
    step s = .next ({ s with events := es }.doneWith .illegalCmd)

/-! ## Steps and the host's bus (10_state.md, 20_memory.md) -/

/-- R40, R71, R100: the completion of a command in progress is exec of the decoded command on the state as it
stands, the completion event taken off the list; a host event, in an idle and in a busy block, is its one bus access
(R62) on the state as it stands. The list of events is the model's form (log 10): with no event listed the completion
comes too, and an idle block stays as it is; a completion in an idle block does nothing (log 14). -/
def Obligations.StepRunsTheDecodedCommand : Prop :=
  ∀ s : State,
    (∀ i : Instr, s.phase = .busy → decode s.cur = .ok i →
      (∀ es, s.events = .complete :: es → step s = exec i { s with events := es }) ∧
      (s.events = [] → step s = exec i s)) ∧
    (∀ (t : Txn) (es : List Event), s.events = .host t :: es →
      step s = .next (State.hostAccess { s with events := es } t)) ∧
    (s.phase = .idle →
      (s.events = [] → step s = .next s) ∧
      (∀ es, s.events = .complete :: es → step s = .next { s with events := es }))

/-- R69, R40: a 32-bit write to CMD is answered OKAY; while idle it accepts the command and latches the
arguments and settings; while BUSY it is dropped and sets OVR. -/
def Obligations.CmdWriteAcceptsOrIsDropped : Prop :=
  ∀ (s : State) (w : Word),
    (s.phase = .idle → State.hostAccess s (.write .w32 0x00008 w) =
      { s with
        lastCmd := w, cur := w, argL := s.arg, mrRoundsL := s.mrRounds, expWinL := s.expWin
        done := false, phase := .busy, busOut := some ⟨false, none⟩ }) ∧
    (s.phase = .busy → State.hostAccess s (.write .w32 0x00008 w) =
      { s with ovr := true, busOut := some ⟨false, none⟩ })

/-- R65, R67 (and the map of R61): exactly the accesses the address map and the width and alignment rules allow are
answered OKAY; every other one gets SLVERR, sets BERR, returns 0 and has no other effect. -/
def Obligations.SlverrExactlyOnIllegalAccesses : Prop :=
  ∀ (s : State) (w : Width) (a : BusAddr) (d : Word),
    let legal : Prop :=
      (a.toNat < 0x10000 ∧ w = .w32 ∧ a.toNat % 4 = 0 ∧ a.toNat ≤ 0x44) ∨
      (0x10000 ≤ a.toNat ∧ s.phase = .idle ∧ w = .w8 ∧ a.toNat - 0x10000 < s.par.bufBytes) ∨
      (0x10000 ≤ a.toNat ∧ s.phase = .idle ∧ w = .w32 ∧ a.toNat % 4 = 0 ∧ a.toNat - 0x10000 + 3 < s.par.bufBytes)
    (legal → (∃ v, (State.hostAccess s (.read w a)).busOut = some ⟨false, some v⟩) ∧
      (State.hostAccess s (.write w a d)).busOut = some ⟨false, none⟩) ∧
    (¬legal →
      State.hostAccess s (.read w a) = { s with berr := true, busOut := some ⟨true, some 0#32⟩ } ∧
      State.hostAccess s (.write w a d) = { s with berr := true, busOut := some ⟨true, none⟩ })

/-- R62, R63: a 32-bit access to BUF moves BUF[i] in data bits 7:0 up to BUF[i+3] in bits 31:24, an 8-bit access
moves BUF[i] alone, no other byte of BUF changes, and a write changes nothing but BUF and the answer.
That an 8-bit write stores data bits 7:0 is the model's inference (log 13, DEDUCED). -/
def Obligations.BufAccessesUseLittleEndianLanes : Prop :=
  ∀ (s : State) (i : Nat) (d : Word), s.phase = .idle → s.par.bufBytes ≤ 65536 →
    let a : BusAddr := BitVec.ofNat 17 (0x10000 + i)
    (i % 4 = 0 → i + 3 < s.par.bufBytes →
      (State.hostAccess s (.read .w32 a)).busOut =
        some ⟨false, some (s.bufByte (i + 3) ++ s.bufByte (i + 2) ++ s.bufByte (i + 1) ++ s.bufByte i)⟩ ∧
      (let t := State.hostAccess s (.write .w32 a d);
        t.bufByte i = d.extractLsb' 0 8 ∧ t.bufByte (i + 1) = d.extractLsb' 8 8 ∧
        t.bufByte (i + 2) = d.extractLsb' 16 8 ∧ t.bufByte (i + 3) = d.extractLsb' 24 8 ∧
        (∀ j, j < i ∨ i + 4 ≤ j → t.bufByte j = s.bufByte j) ∧
        t = { s with buf := t.buf, busOut := some ⟨false, none⟩ })) ∧
    (i < s.par.bufBytes →
      (State.hostAccess s (.read .w8 a)).busOut = some ⟨false, some ((s.bufByte i).setWidth 32)⟩ ∧
      (let t := State.hostAccess s (.write .w8 a d);
        t.bufByte i = d.extractLsb' 0 8 ∧ (∀ j, j ≠ i → t.bufByte j = s.bufByte j) ∧
        t = { s with buf := t.buf, busOut := some ⟨false, none⟩ }))

/-- R31, R36, R68, R70: a read changes nothing but the answer, and BERR where the answer is SLVERR; a write to a
read-only register changes nothing but the answer; RES reads its value and CMD reads 0. -/
def Obligations.ReadsAndReadOnlyWritesHaveNoEffect : Prop :=
  ∀ s : State,
    (∀ w a, ∃ o, State.hostAccess s (.read w a) = { s with berr := s.berr || o.slverr, busOut := some o }) ∧
    (∀ (a : BusAddr) (d : Word), a.toNat ∈ [0x00, 0x10, 0x14, 0x18, 0x1C, 0x40, 0x44] →
      State.hostAccess s (.write .w32 a d) = { s with busOut := some ⟨false, none⟩ }) ∧
    (State.hostAccess s (.read .w32 0x00010)).busOut = some ⟨false, some s.res⟩ ∧
    (State.hostAccess s (.read .w32 0x00008)).busOut = some ⟨false, some 0#32⟩

/-- R30, R266: STATUS shows BUSY, DONE, ERR, Z, N, B_FLAG, OVR and BERR in their bits and 0 elsewhere, ERR as the code
number of the error, 0 to 15; a write to STATUS changes only DONE, OVR and BERR, each cleared where the written bit is 1. -/
def Obligations.StatusRegisterReadsAndClears : Prop :=
  ∀ (s : State) (d : Word),
    (State.hostAccess s (.read .w32 0x0000C)).busOut = some ⟨false, some s.statusWord⟩ ∧
    (s.statusWord.getLsbD 0 = true ↔ s.phase = .busy) ∧ s.statusWord.getLsbD 1 = s.done ∧
    s.statusWord.extractLsb' 2 2 = 0#2 ∧ s.statusWord.extractLsb' 4 4 = s.err.code ∧ s.statusWord.getLsbD 8 = s.z ∧
    s.statusWord.getLsbD 9 = s.n ∧ s.statusWord.getLsbD 10 = s.bFlag ∧ s.statusWord.extractLsb' 11 5 = 0#5 ∧
    (∀ x ∈ [(ErrCode.ok, 0#4), (.illegalCmd, 1#4), (.undefOperand, 2#4), (.overflow, 3#4), (.divZero, 4#4),
        (.domain, 5#4), (.notInvertible, 6#4), (.bufRange, 7#4), (.unsupportedHash, 8#4), (.entropy, 9#4),
        (.notPrivateKey, 10#4), (.messageTooLong, 11#4), (.encoding, 12#4), (.decrypt, 13#4), (.invalidArgument, 14#4),
        (.retryLimit, 15#4)], s.err = x.1 → s.statusWord.extractLsb' 4 4 = x.2) ∧
    s.statusWord.getLsbD 16 = s.ovr ∧ s.statusWord.getLsbD 17 = s.berr ∧ s.statusWord.extractLsb' 18 14 = 0#14 ∧
    State.hostAccess s (.write .w32 0x0000C d) =
      { s with
        done := s.done && !d.getLsbD 1, ovr := s.ovr && !d.getLsbD 16, berr := s.berr && !d.getLsbD 17
        busOut := some ⟨false, none⟩ }

/-- R32, R68: CFG reads MR_ROUNDS, EXP_WIN and IE in their bits and 0 elsewhere; a write stores them, 1 for a
MR_ROUNDS of 0, 1 for an EXP_WIN outside 1..6; ARGi stores what is written; both also while BUSY. -/
def Obligations.CfgAndArgWritesTakeEffectAtOnce : Prop :=
  ∀ (s : State) (d : Word),
    s.cfgWord.extractLsb' 0 8 = s.mrRounds ∧ s.cfgWord.extractLsb' 8 4 = s.expWin ∧
    s.cfgWord.extractLsb' 12 4 = 0#4 ∧ s.cfgWord.getLsbD 16 = s.ie ∧ s.cfgWord.extractLsb' 17 15 = 0#15 ∧
    (State.hostAccess s (.read .w32 0x00004)).busOut = some ⟨false, some s.cfgWord⟩ ∧
    State.hostAccess s (.write .w32 0x00004 d) =
      { s with
        mrRounds := if d.extractLsb' 0 8 = 0#8 then 1#8 else d.extractLsb' 0 8
        expWin := if 1 ≤ (d.extractLsb' 8 4).toNat ∧ (d.extractLsb' 8 4).toNat ≤ 6 then d.extractLsb' 8 4 else 1#4
        ie := d.getLsbD 16
        busOut := some ⟨false, none⟩ } ∧
    (∀ i : Fin 8,
      (State.hostAccess s (.read .w32 (BitVec.ofNat 17 (0x20 + 4 * i.val)))).busOut = some ⟨false, some s.arg[i]⟩ ∧
      State.hostAccess s (.write .w32 (BitVec.ofNat 17 (0x20 + 4 * i.val)) d) =
        { s with arg := s.arg.set i d, busOut := some ⟨false, none⟩ })

/-- R35: KSTAT shows for slot K0 in bits 7:0 and for K1 in bits 15:8 the presence of n, e, d, p, q, PRIV and
CHECKED; bits 7 and 15 and 31:16 read 0; a write is ignored; it is 0 after reset. -/
def Obligations.KstatShowsTheKeySlots : Prop :=
  (∀ s : State,
    (State.hostAccess s (.read .w32 0x00014)).busOut = some ⟨false, some s.kstatWord⟩ ∧
    s.kstatWord.extractLsb' 16 16 = 0#16 ∧
    (∀ k : Slot, let o := match k with | .k0 => 0 | .k1 => 8
      s.kstatWord.getLsbD (o + 0) = (s.slot k).n.present ∧ s.kstatWord.getLsbD (o + 1) = (s.slot k).e.present ∧
      s.kstatWord.getLsbD (o + 2) = (s.slot k).d.present ∧ s.kstatWord.getLsbD (o + 3) = (s.slot k).p.present ∧
      s.kstatWord.getLsbD (o + 4) = (s.slot k).q.present ∧
      s.kstatWord.getLsbD (o + 5) = ((s.slot k).d.present && (s.slot k).p.present && (s.slot k).q.present) ∧
      s.kstatWord.getLsbD (o + 6) = (s.slot k).checked ∧ s.kstatWord.getLsbD (o + 7) = false) ∧
    (∀ d : Word, State.hostAccess s (.write .w32 0x00014 d) = { s with busOut := some ⟨false, none⟩ })) ∧
  State.reset.kstatWord = 0x00000000#32

/-- R34: ID reads 0x54544301, BUFSIZE and WBITS the parameters, HCAP bit h whether h is supported, and
no step changes any of them; LASTCMD is changed by an accepted CMD write (to that word) and by reset (to 0) only. -/
def Obligations.IdentificationRegistersAreConstant : Prop :=
  ∀ s : State, let read (a : BusAddr) := (State.hostAccess s (.read .w32 a)).busOut
    read 0x00000 = some ⟨false, some 0x54544301#32⟩ ∧
    read 0x00018 = some ⟨false, some (BitVec.ofNat 32 s.par.bufBytes)⟩ ∧
    read 0x0001C = some ⟨false, some (BitVec.ofNat 32 s.par.wBits)⟩ ∧
    (∃ v : Word, read 0x00040 = some ⟨false, some v⟩ ∧ (∀ h : HashId, v.getLsbD h.toNat = s.hashSupported h) ∧
      v.extractLsb' 16 16 = 0#16 ∧ (s.par = Params.default → v = 0x00000006#32)) ∧
    read 0x00044 = some ⟨false, some s.lastCmd⟩ ∧
    (∀ t : State, step s = .next t →
      (∀ r ∈ [HostReg.id, .bufSize, .wBits, .hcap], t.readHostReg r = s.readHostReg r) ∧
      (t.lastCmd = s.lastCmd ∨ (∃ es, s.events = .reset :: es ∧ t.lastCmd = 0#32) ∨
        (∃ w es, s.events = .host (.write .w32 0x00008 w) :: es ∧ s.phase = .idle ∧ t.lastCmd = w)))

/-- R41: irq = DONE and IE; it rises at the completion of a command while IE = 1 or when IE is set while DONE
= 1, and falls when DONE is cleared by a write or an acceptance, or IE is cleared.
That the completion is the next event of a list, and comes too when no event is listed, is the model's choice (log 10). -/
def Obligations.IrqFollowsDoneAndEnable : Prop :=
  ∀ s : State, s.irq = (s.done && s.ie) ∧
    (∀ t : State, s.phase = .busy → s.events = [] ∨ (∃ es, s.events = .complete :: es) → step s = .next t →
      t.irq = s.ie) ∧
    (∀ d : Word, (State.hostAccess s (.write .w32 0x00004 d)).irq = (s.done && d.getLsbD 16)) ∧
    (∀ d : Word, d.getLsbD 1 = true → (State.hostAccess s (.write .w32 0x0000C d)).irq = false) ∧
    (∀ w : Word, s.phase = .idle → (State.hostAccess s (.write .w32 0x00008 w)).irq = false)

/-- R42, R300, R301, R302: a reset event, also during a command, leaves the reset table: every register unwritten,
every key absent and unchecked, STATUS 0, CFG at its parameters, the parameters, ID, BUFSIZE, WBITS and HCAP unchanged, no completion. -/
def Obligations.ResetEventLeavesTheResetTable : Prop :=
  ∀ (s : State) (es : List Event), s.events = .reset :: es → ∃ t, step s = .next t ∧
    (∀ r, (t.reg r).valid = false) ∧
    (∀ k c, ((t.slot k).comp c).present = false ∧ (t.slot k).checked = false) ∧
    t.statusWord = 0x00000000#32 ∧ t.phase = .idle ∧ t.err = .ok ∧ t.irq = false ∧
    t.mrRounds = s.par.mrRoundsReset ∧ t.expWin = s.par.expWinReset ∧ t.ie = false ∧ t.res = 0#32 ∧
    (∀ i : Fin 8, t.arg[i] = 0#32) ∧ t.lastCmd = 0#32 ∧ t.par = s.par ∧
    (∀ r ∈ [HostReg.id, .bufSize, .wBits, .hcap], t.readHostReg r = s.readHostReg r)

/-- R34, R42: what the host reads after reset with the default parameters. -/
def Obligations.ResetReadsTheDocumentedValues : Prop :=
  let read (a : BusAddr) := (State.hostAccess State.reset (.read .w32 a)).busOut
  read 0x00000 = some ⟨false, some 0x54544301#32⟩ ∧ read 0x00004 = some ⟨false, some 0x00000440#32⟩ ∧
  read 0x0000C = some ⟨false, some 0x00000000#32⟩ ∧ read 0x00010 = some ⟨false, some 0x00000000#32⟩ ∧
  read 0x00014 = some ⟨false, some 0x00000000#32⟩ ∧ read 0x00018 = some ⟨false, some 0x00001000#32⟩ ∧
  read 0x0001C = some ⟨false, some 0x00001000#32⟩ ∧ read 0x00020 = some ⟨false, some 0x00000000#32⟩ ∧
  read 0x00040 = some ⟨false, some 0x00000006#32⟩ ∧ read 0x00044 = some ⟨false, some 0x00000000#32⟩ ∧
  (∀ r, (State.reset.reg r).valid = false)

/-! ## What every command does and leaves alone -/

/-- R270: a command, or a word that is no command, that ends with an error leaves exactly the state before it, apart from ERR, BUSY,
DONE and the answers it consumed. -/
def Obligations.ErrorsArePrecise : Prop :=
  (∀ (i : Instr) (s t : State), exec i s = .next t → t.err ≠ .ok →
    t = { s with ports := t.ports, phase := .idle, done := true, err := t.err }) ∧
  (∀ s t : State, runCommand s = .next t → t.err ≠ .ok →
    t = { s with ports := t.ports, phase := .idle, done := true, err := t.err })

/-- R40, R271: every completion clears BUSY and sets DONE; no command writes what the host owns: CFG, ARG,
LASTCMD, the latched copies, OVR, BERR, the parameters. -/
def Obligations.CompletionsLeaveTheHostsState : Prop :=
  ∀ (i : Instr) (s t : State), exec i s = .next t →
    t.phase = .idle ∧ t.done = true ∧
    t.mrRounds = s.mrRounds ∧ t.expWin = s.expWin ∧ t.ie = s.ie ∧ t.arg = s.arg ∧ t.lastCmd = s.lastCmd ∧
    t.cur = s.cur ∧ t.argL = s.argL ∧ t.mrRoundsL = s.mrRoundsL ∧ t.expWinL = s.expWinL ∧ t.ovr = s.ovr ∧
    t.berr = s.berr ∧ t.par = s.par ∧ t.events = s.events ∧ t.busOut = s.busOut ∧ t.resets = s.resets

/-- R27: a command that writes a destination register sets Z and N from the value in B[RD] (XGCD: the gcd),
CMP from the comparison; no other command writes Z or N. -/
def Obligations.ZeroAndNegativeFollowTheResult : Prop :=
  ∀ (i : Instr) (s t : State), exec i s = .next t →
    (∀ rd rest, destRegs i = rd :: rest → t.err = .ok →
      t.z = decide ((t.reg rd).val = 0) ∧ t.n = decide ((t.reg rd).val < 0)) ∧
    (∀ a b, i = .cmp a b → t.err = .ok →
      t.z = decide ((s.reg a).val = (s.reg b).val) ∧ t.n = decide ((s.reg a).val < (s.reg b).val)) ∧
    (destRegs i = [] → (∀ a b, i ≠ .cmp a b) → t.z = s.z ∧ t.n = s.n)

/-- R28, R29, R31: only MRTEST, PSSVER and KCHK write B_FLAG, and RES is written only by the commands listed;
an error leaves both, and Z and N. -/
def Obligations.OnlyListedCommandsWriteBFlagAndRes : Prop :=
  ∀ (i : Instr) (s t : State), exec i s = .next t →
    (writesBFlag i = false → t.bFlag = s.bFlag) ∧ (writesRes i = false → t.res = s.res) ∧
    (t.err ≠ .ok → t.z = s.z ∧ t.n = s.n ∧ t.bFlag = s.bFlag ∧ t.res = s.res)

/-- R23, R24: a command changes no big register but its destinations, which hold valid values after a
completion without error, and clears no valid bit. -/
def Obligations.RegistersOutsideTheDestinationsKeep : Prop :=
  ∀ (i : Instr) (s t : State) (r : RegIdx), exec i s = .next t →
    (r ∉ destRegs i → t.reg r = s.reg r) ∧
    (r ∈ destRegs i → t.err = .ok → (t.reg r).valid = true) ∧
    ((s.reg r).valid = true → (t.reg r).valid = true)

/-- R24: what a command does depends on no big register but its sources: with other contents in the other
registers it completes alike, its destinations hold the same, and everything that is no big register is the same. -/
def Obligations.CommandsReadOnlyTheirSources : Prop :=
  ∀ (i : Instr) (s t : State) (b : Vector BigReg 16),
    (∀ r ∈ srcRegs i, State.reg { s with b := b } r = s.reg r) → exec i s = .next t →
    ∃ u, exec i { s with b := b } = .next u ∧ { u with b := t.b } = t ∧
      (∀ r ∈ destRegs i, t.err = .ok → u.reg r = t.reg r)

/-- R26, R207, R216 (4): CHECKED of a slot is set only by the completion without error of a command that
validates the slot, whose key is then PublicValid, and cleared, among commands, only by KCLR of it and KPUB into it. -/
def Obligations.CheckedIsSetByValidationOnly : Prop :=
  ∀ (i : Instr) (s t : State) (k : Slot), exec i s = .next t →
    ((s.slot k).checked = false → (t.slot k).checked = true →
      validatedSlot i = some k ∧ t.err = .ok ∧ (t.slot k).PublicValid) ∧
    ((s.slot k).checked = true → (t.slot k).checked = false → i = .kclr k ∨ i = .kpub (otherSlot k))

/-- R208, R214, R216 (1): only KSET, KCLR and KPUB change a key slot beyond its CHECKED bit, and only the slot
they name (KPUB: the other one); a CHECKED slot is changed only by KCLR of it, KPUB into it and reset. -/
def Obligations.KeysAreImmutableOnceSealed : Prop :=
  (∀ (i : Instr) (s t : State) (k : Slot), exec i s = .next t → rewrittenSlot i ≠ some k →
    t.slot k = s.slot k ∨ (validatedSlot i = some k ∧ t.slot k = { s.slot k with checked := true })) ∧
  (∀ (s t : State) (k : Slot), step s = .next t → (s.slot k).checked = true → t.slot k ≠ s.slot k →
    (∃ es, s.events = .reset :: es) ∨
    (s.phase = .busy ∧ (decode s.cur = .ok (.kclr k) ∨ decode s.cur = .ok (.kpub (otherSlot k)))))

/-- R75, R124, R125, R173, R192, R193, R230, R232, R250: BUF is changed only by the commands that store, only
when they complete without error, and only in the RES bytes at their destination offset. -/
def Obligations.BufOutsideTheStoredBytesKeeps : Prop :=
  ∀ (i : Instr) (s t : State) (j : Nat), s.Inv → exec i s = .next t →
    (storeOffset i s = none ∨ t.err ≠ .ok → t.bufByte j = s.bufByte j) ∧
    (∀ off, storeOffset i s = some off → j < off ∨ off + t.res.toNat ≤ j → t.bufByte j = s.bufByte j)

/-- R170, R171, R187: a command that draws nothing leaves the RNG's answers, and a command without HID leaves
the hash unit's; a step refuses nothing, and a command stops only where the agent it asks never answers.
That a silent agent ends the run in a fault, and the form of the ports, are the model's (log 3, 4, 5). -/
def Obligations.AgentsAreAskedOnlyByListedCommands : Prop :=
  ∀ (i : Instr) (s : State),
    (∀ t, exec i s = .next t →
      (drawsRandom i = false → t.ports.rng = s.ports.rng ∧ t.ports.rngFree = s.ports.rngFree) ∧
      (usesHash i = false → t.ports.hash = s.ports.hash)) ∧
    (∀ f, exec i s = .fault f →
      (f = .rngSilent ∧ drawsRandom i = true ∧
        (RngAnswer.silent ∈ s.ports.rng ∨ ∃ k, s.ports.rngFree ≤ k ∧ Config.rngDraw k = .silent)) ∨
      (f = .hashSilent ∧ usesHash i = true ∧ HashAnswer.silent ∈ s.ports.hash)) ∧
    (∀ r, exec i s ≠ .refused r) ∧ (∀ r, step s ≠ .refused r)

/-- R22, R25, R32, R40, R60, R216 (4): every step keeps the invariant: registers and keys in range, CHECKED
slots valid, BUF's list canonical and inside BUF, CFG legal, BUSY consistent. -/
def Obligations.EveryStepKeepsTheInvariant : Prop :=
  ∀ s t : State, s.Inv → step s = .next t → t.Inv

/-- R8, R42: the state after reset meets the invariant. -/
def Obligations.ResetMeetsTheInvariant : Prop := State.reset.Inv

/-! ## Integer arithmetic, moves and byte conversion (40_bigint_arith.md) -/

/-- R111, R117, R118, R119, R120, R121: NOP, NEG, LDI, CMP, MOV and BITLEN complete with their results. -/
def Obligations.MovesAndComparisonsComplete : Prop :=
  ∀ (s : State) (rd a b : RegIdx) (imm : BitVec 22), s.Inv →
    exec .nop s = .next (s.doneWith .ok) ∧
    exec (.ldi rd imm) s = .next ((s.withResult rd imm.toNat).doneWith .ok) ∧
    ((s.reg a).valid = true →
      exec (.neg rd a) s = .next ((s.withResult rd (-(s.reg a).val)).doneWith .ok) ∧
      exec (.mov rd a) s = .next ((s.withResult rd (s.reg a).val).doneWith .ok) ∧
      (∃ l : Nat, (s.reg a).val.natAbs < 2 ^ l ∧ (∀ m : Nat, (s.reg a).val.natAbs < 2 ^ m → l ≤ m) ∧
        exec (.bitlen rd a) s = .next ((s.withResult rd l).doneWith .ok)) ∧
      ((s.reg b).valid = true →
        exec (.cmp a b) s = .next ({ s with
          z := decide ((s.reg a).val = (s.reg b).val)
          n := decide ((s.reg a).val < (s.reg b).val) }.doneWith .ok)))

/-- R112, R113, R114, R122: ADD, SUB and MUL of written registers complete with the exact sum, difference or
product when it fits, and with OVERFLOW and nothing written when it does not. -/
def Obligations.AddSubMulAreExactOrOverflow : Prop :=
  ∀ (s : State) (rd a b : RegIdx), (s.reg a).valid = true → (s.reg b).valid = true →
    ∀ i v, ((i = .add rd a b ∧ v = (s.reg a).val + (s.reg b).val) ∨
        (i = .sub rd a b ∧ v = (s.reg a).val - (s.reg b).val) ∨
        (i = .mul rd a b ∧ v = (s.reg a).val * (s.reg b).val)) →
      (v.natAbs < 2 ^ s.par.wBits → exec i s = .next ((s.withResult rd v).doneWith .ok)) ∧
      (2 ^ s.par.wBits ≤ v.natAbs → exec i s = .next (s.doneWith .overflow))

/-- R115, R116: with a nonzero divisor DIV and REM complete with q and r where a = b q + r, |r| < |b| and a
nonzero r has the sign of a; with divisor 0 both end with DIV_ZERO. -/
def Obligations.DivRemTruncateTowardZero : Prop :=
  ∀ (s : State) (rd a b : RegIdx), s.Inv → (s.reg a).valid = true → (s.reg b).valid = true →
    ((s.reg b).val ≠ 0 → ∃ q r : Int,
      (s.reg a).val = (s.reg b).val * q + r ∧ r.natAbs < (s.reg b).val.natAbs ∧
      (r ≠ 0 → (r < 0 ↔ (s.reg a).val < 0)) ∧
      exec (.div rd a b) s = .next ((s.withResult rd q).doneWith .ok) ∧
      exec (.rem rd a b) s = .next ((s.withResult rd r).doneWith .ok)) ∧
    ((s.reg b).val = 0 →
      exec (.div rd a b) s = .next (s.doneWith .divZero) ∧ exec (.rem rd a b) s = .next (s.doneWith .divZero))

/-- R23, R272: a command with an unwritten source register ends with UNDEF_OPERAND, before any other check. -/
def Obligations.UnwrittenSourcesRaiseUndefOperand : Prop :=
  ∀ (i : Instr) (s : State) (r : RegIdx), i.wellFormed = true → r ∈ srcRegs i → (s.reg r).valid = false →
    exec i s = .next (s.doneWith .undefOperand)

/-- R12: OS2IP is the big-endian value of a string; I2OSP(x, L) is the one string of length L with value
x; the minimal form is that of ceil8(bitlen x) bytes and has no leading zero byte. -/
def Obligations.ByteConversionsAreBigEndian : Prop :=
  (∀ bs : Bytes, os2ip bs = ∑ j ∈ Finset.range bs.length, (bs.getD j 0#8).toNat * 256 ^ (bs.length - 1 - j)) ∧
  (∀ x l : Nat, x < 256 ^ l → ∀ bs : Bytes, bs = i2osp x l ↔ bs.length = l ∧ os2ip bs = x) ∧
  (∀ x : Nat, i2ospMin x = i2osp x (ceil8 (bitlen x)) ∧ os2ip (i2ospMin x) = x ∧ (i2ospMin x).head? ≠ some 0#8 ∧
    (∀ l, x < 2 ^ l → bitlen x ≤ l) ∧ x < 2 ^ bitlen x)

/-- R60, R80: a byte string stored in BUF is read back, and every byte outside it reads as before. -/
def Obligations.BufReadsBackWhatWasStored : Prop :=
  ∀ (s : State) (off : Nat) (bs : Bytes),
    (s.memWrite off bs).memRead off bs.length = bs ∧
    (∀ j, j < off ∨ off + bs.length ≤ j → (s.memWrite off bs).bufByte j = s.bufByte j) ∧
    (Memory.wf s.buf → Memory.wf (s.memWrite off bs).buf)

/-- R123: LDB completes with the big-endian value of BUF[ARG0 .. ARG0+ARG1-1]; a range beyond BUF is BUF_RANGE,
a value that does not fit OVERFLOW. -/
def Obligations.LdbLoadsBigEndian : Prop :=
  ∀ (s : State) (rd : RegIdx),
    let v := os2ip ((List.range (s.argLatched 1)).map (fun j => s.bufByte (s.argLatched 0 + j)))
    (s.argLatched 0 + s.argLatched 1 ≤ s.par.bufBytes → v < 2 ^ s.par.wBits →
      exec (.ldb rd) s = .next ((s.withResult rd v).doneWith .ok)) ∧
    (s.argLatched 0 + s.argLatched 1 ≤ s.par.bufBytes → 2 ^ s.par.wBits ≤ v →
      exec (.ldb rd) s = .next (s.doneWith .overflow)) ∧
    (s.par.bufBytes < s.argLatched 0 + s.argLatched 1 → exec (.ldb rd) s = .next (s.doneWith .bufRange))

/-- R124, R125: STB stores the ARG1-byte form and STBM the minimal form of a non-negative register at ARG0,
with the length in RES; the errors are BUF_RANGE, DOMAIN and OVERFLOW in the order of each rule. -/
def Obligations.StbAndStbmStoreBigEndian : Prop :=
  ∀ (s : State) (a : RegIdx), (s.reg a).valid = true →
    let v := (s.reg a).val
    let off := s.argLatched 0
    let l := s.argLatched 1
    (off + l ≤ s.par.bufBytes → 0 ≤ v → v.toNat < 256 ^ l →
      exec (.stb a) s = .next ({ s with
        buf := memWriteBytes s.buf off (i2osp v.toNat l)
        res := BitVec.ofNat 32 l }.doneWith .ok)) ∧
    (s.par.bufBytes < off + l → exec (.stb a) s = .next (s.doneWith .bufRange)) ∧
    (off + l ≤ s.par.bufBytes → v < 0 → exec (.stb a) s = .next (s.doneWith .domain)) ∧
    (off + l ≤ s.par.bufBytes → 0 ≤ v → 256 ^ l ≤ v.toNat → exec (.stb a) s = .next (s.doneWith .overflow)) ∧
    (0 ≤ v → off + (i2ospMin v.toNat).length ≤ s.par.bufBytes →
      exec (.stbm a) s = .next ({ s with
        buf := memWriteBytes s.buf off (i2ospMin v.toNat)
        res := BitVec.ofNat 32 (i2ospMin v.toNat).length }.doneWith .ok)) ∧
    (v < 0 → exec (.stbm a) s = .next (s.doneWith .domain)) ∧
    (0 ≤ v → s.par.bufBytes < off + (i2ospMin v.toNat).length → exec (.stbm a) s = .next (s.doneWith .bufRange))

/-- R126: STBM, then LDB with the same offset and the length STBM left in RES, gives the value back; and STB,
then LDB with the same offset and length, does. -/
def Obligations.StoredIntegersLoadBack : Prop :=
  ∀ (s t u : State) (a d : RegIdx), s.Inv →
    ((exec (.stbm a) s = .next t ∧ t.err = .ok ∧
        exec (.ldb d) { t with argL := (t.argL.set 0 (s.argL[0])).set 1 t.res } = .next u) ∨
      (exec (.stb a) s = .next t ∧ t.err = .ok ∧ exec (.ldb d) t = .next u)) →
    u.err = .ok ∧ (u.reg d).val = (s.reg a).val

/-! ## Modular arithmetic and primality (41_bigint_modular.md) -/

/-- R141, R142, R143, R144, R149: with a positive modulus m MODRED, MODMUL and MODEXP complete with the
residue in [0, m) of a, a b and b^e (e >= 0), whatever the window. -/
def Obligations.ModularResultsAreCanonicalResidues : Prop :=
  ∀ (s : State) (rd a b m : RegIdx), s.Inv →
    (s.reg a).valid = true → (s.reg m).valid = true → 0 < (s.reg m).val →
    exec (.modred rd a m) s = .next ((s.withResult rd ((s.reg a).val % (s.reg m).val)).doneWith .ok) ∧
    ((s.reg b).valid = true →
      exec (.modmul rd a b m) s =
        .next ((s.withResult rd ((s.reg a).val * (s.reg b).val % (s.reg m).val)).doneWith .ok) ∧
      (0 ≤ (s.reg b).val →
        exec (.modexp rd a b m) s =
          .next ((s.withResult rd ((s.reg a).val ^ (s.reg b).val.toNat % (s.reg m).val)).doneWith .ok)))

/-- R140, R143, R148, R272: modulus 0 ends with DIV_ZERO, a negative modulus with DOMAIN, and MODEXP with a
positive modulus and a negative exponent with DOMAIN. -/
def Obligations.BadModuliAndExponentsTrap : Prop :=
  ∀ (s : State) (rd a b m : RegIdx) (i : Instr),
    (s.reg a).valid = true → (s.reg b).valid = true → (s.reg m).valid = true →
    (i = .modred rd a m ∨ i = .modmul rd a b m ∨ i = .modexp rd a b m ∨ i = .modinv rd a m →
      ((s.reg m).val = 0 → exec i s = .next (s.doneWith .divZero)) ∧
      ((s.reg m).val < 0 → exec i s = .next (s.doneWith .domain))) ∧
    (i = .modexp rd a b m → 0 < (s.reg m).val → (s.reg b).val < 0 → exec i s = .next (s.doneWith .domain))

/-- R145, R146, R147: GCD completes with the greatest common divisor; XGCD completes with the g, x, y of
ExtEuclid, where g is the gcd, a x + b y = g and |x|, |y| <= max(|a|, |b|, 1), so that OVERFLOW cannot occur. -/
def Obligations.GcdAndXgcdComplete : Prop :=
  ∀ (s : State) (rd a b : RegIdx), s.Inv → (s.reg a).valid = true → (s.reg b).valid = true →
    exec (.gcd rd a b) s = .next ((s.withResult rd (Int.gcd (s.reg a).val (s.reg b).val)).doneWith .ok) ∧
    (rd.toNat ≤ 13 → ∃ x y : Int,
      extEuclid (s.reg a).val (s.reg b).val = (Int.gcd (s.reg a).val (s.reg b).val, x, y) ∧
      (s.reg a).val * x + (s.reg b).val * y = Int.gcd (s.reg a).val (s.reg b).val ∧
      x.natAbs ≤ max (max (s.reg a).val.natAbs (s.reg b).val.natAbs) 1 ∧
      y.natAbs ≤ max (max (s.reg a).val.natAbs (s.reg b).val.natAbs) 1 ∧
      exec (.xgcd rd a b) s = .next ({ ((s.putReg rd (Int.gcd (s.reg a).val (s.reg b).val)).putReg (rd + 1) x).putReg
          (rd + 2) y with
        z := decide (Int.gcd (s.reg a).val (s.reg b).val = 0)
        n := false }.doneWith .ok))

/-- R148: with a positive modulus m MODINV completes with the v in [0, m) with a v = 1 mod m when gcd(a, m) = 1,
and ends with NOT_INVERTIBLE otherwise. -/
def Obligations.ModinvInvertsOrTraps : Prop :=
  ∀ (s : State) (rd a m : RegIdx), s.Inv → (s.reg a).valid = true → (s.reg m).valid = true → 0 < (s.reg m).val →
    (Int.gcd (s.reg a).val (s.reg m).val = 1 → ∃ v : Int, 0 ≤ v ∧ v < (s.reg m).val ∧
      (s.reg m).val ∣ (s.reg a).val * v - 1 ∧
      exec (.modinv rd a m) s = .next ((s.withResult rd v).doneWith .ok)) ∧
    (Int.gcd (s.reg a).val (s.reg m).val ≠ 1 → exec (.modinv rd a m) s = .next (s.doneWith .notInvertible))

/-- R151, R152, R172: MRTEST answers without a draw for n < 4 and for even n; for odd n >= 5 it completes with 1
when MR_ROUNDS_L accepted draws all give bases that pass, and with 0 at the first base that is a witness, with no further
draws. A draw is accepted after any rejected attempts within its limit, by the low bits of its bytes; one that fails, by the
RNG or by the limit, ends MRTEST with ENTROPY or RETRY_LIMIT (R171).
The lists of the agents' answers, and what a failed request consumes, are the model's (log 3, 21). -/
def Obligations.MrtestFollowsTheDrawnBases : Prop :=
  ∀ (s : State) (a : RegIdx), (s.reg a).valid = true →
    let n := (s.reg a).val
    let limit := s.par.retryLimit
    let answer (r : Bool) (p : Ports) : State :=
      { s with bFlag := r, res := if r then 1#32 else 0#32, ports := p }.doneWith .ok
    ((n < 2 ∨ (4 ≤ n ∧ n % 2 = 0)) → exec (.mrtest a) s = .next (answer false s.ports)) ∧
    ((n = 2 ∨ n = 3) → exec (.mrtest a) s = .next (answer true s.ports)) ∧
    (5 ≤ n → n % 2 = 1 → ∀ (xs : List Nat) (r : Ports), BasesPass limit n.toNat xs s.ports r →
      (xs.length = s.mrRoundsL.toNat → exec (.mrtest a) s = .next (answer true r)) ∧
      (∀ (x : Nat) (q : Ports), xs.length < s.mrRoundsL.toNat → RandBelowGives limit (n.toNat - 3) r x q →
        strongProbe n.toNat (2 + x) = false → exec (.mrtest a) s = .next (answer false q))) ∧
    (∀ (e : ErrCode) (q : Ports), MillerRabinFails limit s.mrRoundsL.toNat n.toNat s.ports e q →
      exec (.mrtest a) s = .next ({ s with ports := q }.doneWith e))

/-- R151: a result 0 of MRTEST is certain: a prime is never reported composite, whatever the draws. -/
def Obligations.MrtestNeverRejectsAPrime : Prop :=
  ∀ (s t : State) (a : RegIdx) (p : Nat), p.Prime → (s.reg a).val = p → exec (.mrtest a) s = .next t →
    t.err = .ok → t.bFlag = true ∧ t.res = 1#32

/-! ## Random source, hash and MGF1 (42_random.md, 43_hash_mgf1.md) -/

/-- R173, R175: RNDB stores the bytes the RNG delivers; RNDODD gives an odd integer of exactly the asked bit
length made of them; a range beyond BUF, 0 bits, too many bits and a failing RNG are the errors of the rules.
The lists of the agents' answers are the model's form of the ports (log 3, 21). -/
def Obligations.RndbAndRndoddUseTheDeliveredBytes : Prop :=
  ∀ (s : State) (rd : RegIdx) (imm : BitVec 22) (bs : Bytes) (rest : List RngAnswer),
    s.ports.rng = bs.map .byte ++ rest →
    (bs.length = s.argLatched 1 → s.argLatched 0 + s.argLatched 1 ≤ s.par.bufBytes →
      exec .rndb s = .next ({ s with
        buf := memWriteBytes s.buf (s.argLatched 0) bs
        res := BitVec.ofNat 32 (s.argLatched 1)
        ports := { s.ports with rng := rest } }.doneWith .ok)) ∧
    (s.par.bufBytes < s.argLatched 0 + s.argLatched 1 → exec .rndb s = .next (s.doneWith .bufRange)) ∧
    (bs.length < s.argLatched 1 → rest.head? = some .fail → s.argLatched 0 + s.argLatched 1 ≤ s.par.bufBytes →
      exec .rndb s = .next ({ s with ports := { s.ports with rng := rest.tail } }.doneWith .entropy)) ∧
    (bs.length = ceil8 imm.toNat → 1 ≤ imm.toNat → imm.toNat ≤ s.par.wBits → ∃ v : Nat,
      2 ^ (imm.toNat - 1) ≤ v ∧ v < 2 ^ imm.toNat ∧ v % 2 = 1 ∧
      (∀ j, 1 ≤ j → j + 1 < imm.toNat → v.testBit j = (os2ip bs).testBit j) ∧
      exec (.rndodd rd imm) s =
        .next ({ s.withResult rd v with ports := { s.ports with rng := rest } }.doneWith .ok)) ∧
    (bs.length < ceil8 imm.toNat → rest.head? = some .fail → 1 ≤ imm.toNat → imm.toNat ≤ s.par.wBits →
      exec (.rndodd rd imm) s = .next ({ s with ports := { s.ports with rng := rest.tail } }.doneWith .entropy)) ∧
    (imm.toNat = 0 → exec (.rndodd rd imm) s = .next (s.doneWith .domain)) ∧
    (s.par.wBits < imm.toNat → exec (.rndodd rd imm) s = .next (s.doneWith .overflow))

/-- R171, R172, R174: RNDBELOW rejects the draws that are not below the bound and completes with the first that is;
RETRY_LIMIT rejections end with RETRY_LIMIT; a failure of the RNG in an attempt ends it with ENTROPY; bound 1 draws
nothing; a bound <= 0 is DOMAIN.
The lists of the agents' answers, and what a failed request consumes, are the model's (log 3, 21). -/
def Obligations.RndbelowSamplesByRejection : Prop :=
  ∀ (s : State) (rd a : RegIdx), s.Inv → (s.reg a).valid = true →
    let bound := (s.reg a).val.toNat
    let l := bitlen (bound - 1)
    ((s.reg a).val ≤ 0 → exec (.rndbelow rd a) s = .next (s.doneWith .domain)) ∧
    ((s.reg a).val = 1 → exec (.rndbelow rd a) s = .next ((s.withResult rd 0).doneWith .ok)) ∧
    (1 < (s.reg a).val → ∀ (rej : List Bytes) (rest : List RngAnswer),
      (∀ bs ∈ rej, bs.length = ceil8 l ∧ bound ≤ os2ip bs % 2 ^ l) →
      (∀ acc : Bytes, acc.length = ceil8 l → os2ip acc % 2 ^ l < bound → rej.length < s.par.retryLimit →
        s.ports.rng = rej.flatten.map .byte ++ acc.map .byte ++ rest →
        exec (.rndbelow rd a) s = .next ({ s.withResult rd (os2ip acc % 2 ^ l : Nat) with
          ports := { s.ports with rng := rest } }.doneWith .ok)) ∧
      (rej.length = s.par.retryLimit → s.ports.rng = rej.flatten.map .byte ++ rest →
        exec (.rndbelow rd a) s =
          .next ({ s with ports := { s.ports with rng := rest } }.doneWith .retryLimit)) ∧
      (∀ part : Bytes, part.length < ceil8 l → rej.length < s.par.retryLimit →
        s.ports.rng = rej.flatten.map .byte ++ part.map .byte ++ .fail :: rest →
        exec (.rndbelow rd a) s =
          .next ({ s with ports := { s.ports with rng := rest } }.doneWith .entropy)))

/-- R187, R190, R191, R192, R193: HASH and MGF1 with a supported identifier and ranges inside BUF store the digest, or the
mask, of the source bytes: the digests of the seed and a 32-bit big-endian counter from 0, concatenated and cut to
the length asked for; an unsupported identifier is UNSUPPORTED_HASH, a range beyond BUF is BUF_RANGE, and a supported
identifier whose digest the hash unit answers with "unsupported" is UNSUPPORTED_HASH.
The lists of the agents' answers are the model's form of the ports (log 4). -/
def Obligations.HashAndMgf1StoreTheDigest : Prop :=
  ∀ (s : State) (h : HashId),
    let src := s.argLatched 0
    let n := s.argLatched 1
    let dst := s.argLatched 2
    let l := s.argLatched 3
    let m := s.memRead src n
    let calls := (l + hLen h - 1) / hLen h
    let mask := ((List.range calls).flatMap (fun c => hashFn h (m ++ i2osp c 4))).take l
    (s.hashSupported h = true → HashAnswers s.ports → src + n ≤ s.par.bufBytes →
      (dst + hLen h ≤ s.par.bufBytes →
        (hashFn h m).length = hLen h ∧
        exec (.hash h) s = .next ({ s with
          buf := memWriteBytes s.buf dst (hashFn h m)
          res := BitVec.ofNat 32 (hLen h)
          ports := { s.ports with hash := s.ports.hash.drop 1 } }.doneWith .ok)) ∧
      (dst + l ≤ s.par.bufBytes →
        mask.length = l ∧
        exec (.mgf1 h) s = .next ({ s with
          buf := memWriteBytes s.buf dst mask
          res := BitVec.ofNat 32 l
          ports := { s.ports with hash := s.ports.hash.drop calls } }.doneWith .ok))) ∧
    (s.hashSupported h = true → src + n ≤ s.par.bufBytes → ∀ p : Ports,
      (dst + hLen h ≤ s.par.bufBytes → HashRefuses s.ports 1 p →
        exec (.hash h) s = .next ({ s with ports := p }.doneWith .unsupportedHash)) ∧
      (dst + l ≤ s.par.bufBytes → HashRefuses s.ports calls p →
        exec (.mgf1 h) s = .next ({ s with ports := p }.doneWith .unsupportedHash))) ∧
    (s.hashSupported h = false →
      exec (.hash h) s = .next (s.doneWith .unsupportedHash) ∧ exec (.mgf1 h) s = .next (s.doneWith .unsupportedHash)) ∧
    (s.hashSupported h = true → s.par.bufBytes < src + n ∨ s.par.bufBytes < dst + hLen h →
      exec (.hash h) s = .next (s.doneWith .bufRange)) ∧
    (s.hashSupported h = true → s.par.bufBytes < src + n ∨ s.par.bufBytes < dst + l →
      exec (.mgf1 h) s = .next (s.doneWith .bufRange))

/-! ## Key slots (44_key.md) -/

/-- R210, R211, R216 (2): KSET of a non-negative value into an absent component of an unsealed slot makes that
component present with the value and leaves the slot's others and its CHECKED bit, and KGET then gives the value; on a
sealed slot, a present component or a negative value it is INVALID_ARGUMENT; KGET gives a present component, and
INVALID_ARGUMENT for an absent one. -/
def Obligations.KsetAndKgetComplete : Prop :=
  ∀ (s : State) (rd a : RegIdx) (k : Slot) (c : Comp), s.Inv →
    ((s.reg a).valid = true →
      ((s.slot k).checked = false → ((s.slot k).comp c).present = false → 0 ≤ (s.reg a).val →
        ∃ v : KeySlot, v.comp c = ⟨(s.reg a).val.toNat, true⟩ ∧
          (∀ c', c' ≠ c → v.comp c' = (s.slot k).comp c') ∧ v.checked = (s.slot k).checked ∧
          (let t := { s with
            k0 := if k = Slot.k0 then v else s.k0
            k1 := if k = Slot.k1 then v else s.k1 }.doneWith .ok
          exec (.kset k c a) s = .next t ∧
          exec (.kget rd k c) t = .next ((t.withResult rd (s.reg a).val).doneWith .ok))) ∧
      ((s.slot k).checked = true ∨ ((s.slot k).comp c).present = true ∨ (s.reg a).val < 0 →
        exec (.kset k c a) s = .next (s.doneWith .invalidArgument))) ∧
    (((s.slot k).comp c).present = true →
      exec (.kget rd k c) s = .next ((s.withResult rd ((s.slot k).comp c).val).doneWith .ok)) ∧
    (((s.slot k).comp c).present = false → exec (.kget rd k c) s = .next (s.doneWith .invalidArgument))

/-- R212, R214: KCLR makes every component of its slot absent and unchecked; KPUB gives the other slot n and e
of its own, nothing else and unchecked, and needs both; neither changes anything else. -/
def Obligations.KclrAndKpubComplete : Prop :=
  ∀ (s : State) (k : Slot),
    (∃ v : KeySlot, (∀ c, (v.comp c).present = false) ∧ v.checked = false ∧
      exec (.kclr k) s = .next ((s.setSlot k v).doneWith .ok)) ∧
    ((s.slot k).n.present = true → (s.slot k).e.present = true → ∃ v : KeySlot,
      v.n = (s.slot k).n ∧ v.e = (s.slot k).e ∧ v.d.present = false ∧ v.p.present = false ∧ v.q.present = false ∧
      v.checked = false ∧ exec (.kpub k) s = .next ((s.setSlot (otherSlot k) v).doneWith .ok)) ∧
    ((s.slot k).n.present = false ∨ (s.slot k).e.present = false →
      exec (.kpub k) s = .next (s.doneWith .invalidArgument))

/-- R203, R206, R213: KCHK of a slot that may be used completes: the slot is CHECKED, B_FLAG is PRIV, RES is
bitlen(n); without n or e it is INVALID_ARGUMENT, and so it is for an unchecked slot with n < 2 or e < 1. An unchecked slot
that Validate refuses ends it with the error of the first clause that fails, INVALID_ARGUMENT, or of the validation draw
that fails, ENTROPY or RETRY_LIMIT (R171, R172). When KCHK of an unchecked private slot completes without error, n = p q,
both primality tests passed, gcd(e, lambda) = 1 and lambda divides e d - 1, for lambda = lcm(p - 1, q - 1).
The lists of the agents' answers, and what a failed request consumes, are the model's (log 3, 21). -/
def Obligations.KchkValidatesAndReports : Prop :=
  ∀ (s : State) (k : Slot),
    (∀ q : Ports, KeyUsable s k s.ports q →
      exec (.kchk k) s = .next ({ s.markChecked k with
        bFlag := (s.slot k).d.present && (s.slot k).p.present && (s.slot k).q.present
        res := BitVec.ofNat 32 (bitlen (s.slot k).n.val)
        ports := q }.doneWith .ok)) ∧
    ((s.slot k).n.present = false ∨ (s.slot k).e.present = false ∨
        ((s.slot k).checked = false ∧ ((s.slot k).n.val < 2 ∨ (s.slot k).e.val < 1)) →
      exec (.kchk k) s = .next (s.doneWith .invalidArgument)) ∧
    (∀ (e : ErrCode) (q : Ports), KeyRefused s k s.ports e q →
      exec (.kchk k) s = .next ({ s with ports := q }.doneWith e)) ∧
    (∀ t : State, exec (.kchk k) s = .next t → t.err = .ok → (s.slot k).checked = false →
      (s.slot k).d.present = true → (s.slot k).p.present = true → (s.slot k).q.present = true →
      PrivateValid s (s.slot k) s.ports t.ports ∧ 2 ≤ (s.slot k).p.val ∧ 2 ≤ (s.slot k).q.val)

/-! ## OAEP and PSS (45_oaep.md, 46_pss.md) -/

/-- R229: decoding an encoded message gives the message back, and the encoded message is k bytes whose integer
is below 256^(k-1), which is at most any modulus of k bytes. -/
def Obligations.OaepDecodeInvertsEncode : Prop :=
  ∀ (h : HashId) (k : Nat) (m seed : Bytes), 0 < hLen h → (m.length : Int) ≤ oaepCapacity k h →
    seed.length = hLen h →
    oaepDecode h k (oaepEncode h k m seed) = some m ∧ (oaepEncode h k m seed).length = k ∧
    os2ip (oaepEncode h k m seed) < 256 ^ (k - 1) ∧
    (∀ n : Nat, k = ceil8 (bitlen n) → 256 ^ (k - 1) ≤ 2 ^ (bitlen n - 1) ∧ 2 ^ (bitlen n - 1) ≤ n)

/-- R247, R249: the verifier accepts an encoded message, which is emLen bytes whose integer is below 2^emBits. -/
def Obligations.PssVerifyAcceptsEncode : Prop :=
  ∀ (h : HashId) (emBits : Nat) (mHash salt : Bytes), 0 < hLen h → hLen h + salt.length + 2 ≤ ceil8 emBits →
    pssVerifyCore h emBits mHash (pssEncode h emBits mHash salt) salt.length = true ∧
    (pssEncode h emBits mHash salt).length = ceil8 emBits ∧ os2ip (pssEncode h emBits mHash salt) < 2 ^ emBits

/-- R230: OAEPENC of a message that fits, with a usable key and hLen delivered seed bytes, completes: the
ciphertext m^e mod n is stored in k bytes at ARG2, RES is k, the slot is CHECKED. When the RNG fails among the seed bytes
it is ENTROPY (R171), and when the hash unit answers one of its digests with "unsupported" UNSUPPORTED_HASH (R190).
The lists of the agents' answers, and what a failed request consumes, are the model's (log 3, 4, 21). -/
def Obligations.OaepencCompletes : Prop :=
  ∀ (s : State) (h : HashId) (k : Slot) (q : Ports) (seed : Bytes) (rest : List RngAnswer),
    s.hashSupported h = true → KeyUsable s k s.ports q → q.rng = seed.map .byte ++ rest →
    let n := (s.slot k).n.val
    let kb := ceil8 (bitlen n)
    s.argLatched 0 + s.argLatched 1 ≤ s.par.bufBytes → s.argLatched 2 + kb ≤ s.par.bufBytes →
    s.argLatched 1 + 2 * hLen h + 2 ≤ kb →
    let em := oaepEncode h kb (s.memRead (s.argLatched 0) (s.argLatched 1)) seed
    (seed.length = hLen h → HashAnswers q →
      exec (.oaepenc h k) s = .next ({ s.markChecked k with
        buf := memWriteBytes s.buf (s.argLatched 2) (i2osp (os2ip em ^ (s.slot k).e.val % n) kb)
        res := BitVec.ofNat 32 kb
        ports := { q with rng := rest, hash := q.hash.drop (oaepRequests h kb) } }.doneWith .ok)) ∧
    (seed.length < hLen h → rest.head? = some .fail →
      exec (.oaepenc h k) s = .next ({ s with ports := { q with rng := rest.tail } }.doneWith .entropy)) ∧
    (∀ p : Ports, seed.length = hLen h → HashRefuses { q with rng := rest } (oaepRequests h kb) p →
      exec (.oaepenc h k) s = .next ({ s with ports := p }.doneWith .unsupportedHash))

/-- R204, R205, R206, R230, R232, R250, R252, R272: before they ask for a seed or a digest, OAEPENC, OAEPDEC, PSSSIGN and
PSSVER check the hash identifier, the key (presence, PRIV, Validate), the ranges and the length, in this order, each with
its error; and PSSVER's first digest answered "unsupported" is UNSUPPORTED_HASH (R190).
The lists of the agents' answers, and what a failed request consumes, are the model's (log 3, 4, 21). -/
def Obligations.SchemeErrorsComeInOrder : Prop :=
  ∀ (s : State) (h : HashId) (k : Slot) (sh : Bool) (q : Ports),
    let kb := ceil8 (bitlen (s.slot k).n.val)
    let ends (i : Instr) (p : Ports) (e : ErrCode) : Prop := exec i s = .next ({ s with ports := p }.doneWith e)
    (s.hashSupported h = false → ∀ i ∈ [Instr.oaepenc h k, .oaepdec h k, .psssign h k sh, .pssver h k sh],
      ends i s.ports .unsupportedHash) ∧
    (s.hashSupported h = true →
      ((s.slot k).hasPublic = false → ends (.oaepenc h k) s.ports .invalidArgument ∧
        ends (.pssver h k sh) s.ports .invalidArgument) ∧
      ((s.slot k).priv = false → ends (.oaepdec h k) s.ports .notPrivateKey ∧
        ends (.psssign h k sh) s.ports .notPrivateKey) ∧
      ((s.slot k).priv = true → (s.slot k).hasPublic = false → ends (.oaepdec h k) s.ports .invalidArgument ∧
        ends (.psssign h k sh) s.ports .invalidArgument) ∧
      (∀ (e : ErrCode) (p : Ports), KeyRefused s k s.ports e p →
        ends (.oaepenc h k) p e ∧ ends (.pssver h k sh) p e ∧
        ((s.slot k).priv = true → ends (.oaepdec h k) p e ∧ ends (.psssign h k sh) p e)) ∧
      (KeyUsable s k s.ports q →
        (s.par.bufBytes < s.argLatched 0 + s.argLatched 1 ∨ s.par.bufBytes < s.argLatched 2 + kb →
          ends (.oaepenc h k) q .bufRange ∧ ((s.slot k).priv = true → ends (.psssign h k sh) q .bufRange)) ∧
        (s.par.bufBytes < s.argLatched 0 + s.argLatched 1 ∨ s.par.bufBytes < s.argLatched 3 + s.argLatched 4 →
          ends (.pssver h k sh) q .bufRange) ∧
        (s.argLatched 0 + s.argLatched 1 ≤ s.par.bufBytes → s.argLatched 3 + s.argLatched 4 ≤ s.par.bufBytes →
          ∀ p : Ports, HashRefuses q 1 p → ends (.pssver h k sh) p .unsupportedHash) ∧
        (s.argLatched 0 + s.argLatched 1 ≤ s.par.bufBytes → s.argLatched 2 + kb ≤ s.par.bufBytes →
          kb < s.argLatched 1 + 2 * hLen h + 2 → ends (.oaepenc h k) q .messageTooLong) ∧
        ((s.slot k).priv = true →
          (s.par.bufBytes < s.argLatched 0 + s.argLatched 1 ∨
              s.par.bufBytes < s.argLatched 2 + (kb - 2 * hLen h - 2) →
            ends (.oaepdec h k) q .bufRange) ∧
          (s.argLatched 0 + s.argLatched 1 ≤ s.par.bufBytes →
            s.argLatched 2 + (kb - 2 * hLen h - 2) ≤ s.par.bufBytes →
            s.argLatched 1 ≠ kb ∨ kb < 2 * hLen h + 2 ∨
              (s.slot k).n.val ≤ os2ip (s.memRead (s.argLatched 0) (s.argLatched 1)) →
            ends (.oaepdec h k) q .decrypt))))

/-- R232, R233: OAEPDEC of a k-byte ciphertext below n with a usable private key completes with the decoded
message of c^d mod n at ARG2 and its length in RES, or with DECRYPT when decoding fails; when the hash unit answers one
of its digests with "unsupported" it is UNSUPPORTED_HASH (R190).
The lists of the agents' answers are the model's form of the ports (log 3, 4). -/
def Obligations.OaepdecCompletesOrDecrypt : Prop :=
  ∀ (s : State) (h : HashId) (k : Slot) (q : Ports),
    s.hashSupported h = true → KeyUsable s k s.ports q → (s.slot k).priv = true →
    let n := (s.slot k).n.val
    let kb := ceil8 (bitlen n)
    let c := os2ip (s.memRead (s.argLatched 0) (s.argLatched 1))
    s.argLatched 0 + s.argLatched 1 ≤ s.par.bufBytes →
    s.argLatched 2 + (kb - 2 * hLen h - 2) ≤ s.par.bufBytes →
    s.argLatched 1 = kb → 2 * hLen h + 2 ≤ kb → c < n →
    let p : Ports := { q with hash := q.hash.drop (oaepRequests h kb) }
    (∀ m, HashAnswers q → oaepDecode h kb (i2osp (c ^ (s.slot k).d.val % n) kb) = some m →
      exec (.oaepdec h k) s = .next ({ s.markChecked k with
        buf := memWriteBytes s.buf (s.argLatched 2) m
        res := BitVec.ofNat 32 m.length
        ports := p }.doneWith .ok)) ∧
    (HashAnswers q → oaepDecode h kb (i2osp (c ^ (s.slot k).d.val % n) kb) = none →
      exec (.oaepdec h k) s = .next ({ s with ports := p }.doneWith .decrypt)) ∧
    (∀ r : Ports, HashRefuses q (oaepRequests h kb) r →
      exec (.oaepdec h k) s = .next ({ s with ports := r }.doneWith .unsupportedHash))

/-- R246, R250: PSSSIGN with a usable private key, a salt that fits and its bytes delivered completes: the
signature EM^d mod n is stored in k bytes at ARG2, RES is k; a salt that does not fit is ENCODING. When the RNG fails
among the salt bytes it is ENTROPY (R171), and when the hash unit answers a digest, before the salt or after it, with
"unsupported" UNSUPPORTED_HASH (R190).
The lists of the agents' answers, and what a failed request consumes, are the model's (log 3, 4, 21). -/
def Obligations.PsssignCompletes : Prop :=
  ∀ (s : State) (h : HashId) (k : Slot) (sh : Bool) (q : Ports),
    s.hashSupported h = true → KeyUsable s k s.ports q → (s.slot k).priv = true →
    let n := (s.slot k).n.val
    let kb := ceil8 (bitlen n)
    let emBits := bitlen n - 1
    let sLen := if sh then hLen h else s.argLatched 5
    let calls := 1 + mgf1Requests h (ceil8 emBits - hLen h - 1)
    let ends (p : Ports) (e : ErrCode) : Prop := exec (.psssign h k sh) s = .next ({ s with ports := p }.doneWith e)
    s.argLatched 0 + s.argLatched 1 ≤ s.par.bufBytes → s.argLatched 2 + kb ≤ s.par.bufBytes →
    (hLen h + sLen + 2 ≤ ceil8 emBits →
      (∀ p : Ports, HashRefuses q 1 p → ends p .unsupportedHash) ∧
      (∀ (salt : Bytes) (rest : List RngAnswer), q.rng = salt.map .byte ++ rest →
        (salt.length = sLen → HashAnswers q →
          let em := pssEncode h emBits (hashFn h (s.memRead (s.argLatched 0) (s.argLatched 1))) salt
          exec (.psssign h k sh) s = .next ({ s.markChecked k with
            buf := memWriteBytes s.buf (s.argLatched 2) (i2osp (os2ip em ^ (s.slot k).d.val % n) kb)
            res := BitVec.ofNat 32 kb
            ports := { q with rng := rest, hash := q.hash.drop (1 + calls) } }.doneWith .ok)) ∧
        (salt.length < sLen → rest.head? = some .fail → HashAnswers q →
          ends { q with rng := rest.tail, hash := q.hash.drop 1 } .entropy) ∧
        (∀ p : Ports, salt.length = sLen → q.hash.head? = some .digest →
          HashRefuses { q with rng := rest, hash := q.hash.tail } calls p → ends p .unsupportedHash))) ∧
    (ceil8 emBits < hLen h + sLen + 2 → ends q .encoding)

/-- R251, R252, R254: PSSVER with a usable key and ranges inside BUF, the hash unit answering every request with the
digest, completes without error; it writes only B_FLAG and RES (and CHECKED), 1 exactly when the signature is k bytes,
below n, its e-th power fits in emLen bytes and PSSVerifyCore accepts it.
The lists of the agents' answers are the model's form of the ports (log 3, 4); HashAnswers says that no listed answer of the
hash unit is another than the digest, and beyond the list it answers digests (log 4). -/
def Obligations.PssverIsAPredicate : Prop :=
  ∀ (s : State) (h : HashId) (k : Slot) (sh : Bool) (q : Ports),
    s.hashSupported h = true → KeyUsable s k s.ports q → HashAnswers q →
    let n := (s.slot k).n.val
    let emBits := bitlen n - 1
    let sLen := if sh then hLen h else s.argLatched 5
    let sig := os2ip (s.memRead (s.argLatched 3) (s.argLatched 4))
    let m := sig ^ (s.slot k).e.val % n
    s.argLatched 0 + s.argLatched 1 ≤ s.par.bufBytes → s.argLatched 3 + s.argLatched 4 ≤ s.par.bufBytes →
    ∃ (ok : Bool) (p : Ports), p.rng = q.rng ∧ p.rngFree = q.rngFree ∧
      (ok = true ↔ s.argLatched 4 = ceil8 (bitlen n) ∧ sig < n ∧ m < 256 ^ ceil8 emBits ∧
        pssVerifyCore h emBits (hashFn h (s.memRead (s.argLatched 0) (s.argLatched 1))) (i2osp m (ceil8 emBits)) sLen =
          true) ∧
      exec (.pssver h k sh) s = .next ({ s.markChecked k with
        bFlag := ok
        res := if ok then 1#32 else 0#32
        ports := p }.doneWith .ok)

/-- R216 (3): for distinct primes p and q, n = p q and e d = 1 mod lcm(p - 1, q - 1), raising to e and then to d
gives x back for every x in [0, n), in the model's exponentiation. -/
def Obligations.RsaExponentiationInverts : Prop :=
  ∀ p q n e d x : Nat, p.Prime → q.Prime → p ≠ q → n = p * q →
    ((Nat.lcm (p - 1) (q - 1) : Nat) : Int) ∣ (e : Int) * d - 1 → x < n →
    powMod (powMod x e n) d n = x

/-- R234: OAEPENC with the public half, then OAEPDEC of the k bytes with the private slot (p, q distinct
primes), gives the message back with its length in RES, whatever seed was drawn. The private slot may be used when OAEPDEC
runs: CHECKED, or passing Validate with the draws made.
The lists of the agents' answers, the hash unit's all digests, are the model's form of the ports (log 3, 4). -/
def Obligations.OaepRoundTrip : Prop :=
  ∀ (s t : State) (h : HashId) (ke kd : Slot) (dst : Word) (q : Ports),
    HashAnswers s.ports → s.Inv → (s.slot kd).priv = true →
    (s.slot kd).p.val.Prime → (s.slot kd).q.val.Prime → (s.slot kd).p.val ≠ (s.slot kd).q.val →
    (s.slot kd).p.val * (s.slot kd).q.val = (s.slot kd).n.val →
    ((Nat.lcm ((s.slot kd).p.val - 1) ((s.slot kd).q.val - 1) : Nat) : Int) ∣
      ((s.slot kd).e.val : Int) * (s.slot kd).d.val - 1 →
    (s.slot ke).n = (s.slot kd).n → (s.slot ke).e = (s.slot kd).e →
    exec (.oaepenc h ke) s = .next t → t.err = .ok →
    let t' : State := { t with argL := ((t.argL.set 0 (s.argL[2])).set 1 t.res).set 2 dst }
    KeyUsable t' kd t'.ports q →
    dst.toNat + (ceil8 (bitlen (s.slot kd).n.val) - 2 * hLen h - 2) ≤ s.par.bufBytes →
    ∃ u, exec (.oaepdec h kd) t' = .next u ∧ u.err = .ok ∧ u.res.toNat = s.argLatched 1 ∧
      u.memRead dst.toNat (s.argLatched 1) = s.memRead (s.argLatched 0) (s.argLatched 1)

/-- R253 (1): PSSSIGN, then PSSVER of the k bytes with the public half and the same message and salt length,
gives B_FLAG = 1, whatever salt was drawn (p, q distinct primes; the signature's place does not overlap the message). The
verifying slot may be used when PSSVER runs: CHECKED, or passing Validate with the draws made.
The lists of the agents' answers, the hash unit's all digests, are the model's form of the ports (log 3, 4). -/
def Obligations.PssRoundTrip : Prop :=
  ∀ (s t : State) (h : HashId) (kd ke : Slot) (sh : Bool) (q : Ports),
    HashAnswers s.ports → s.Inv → (s.slot kd).priv = true →
    (s.slot kd).p.val.Prime → (s.slot kd).q.val.Prime → (s.slot kd).p.val ≠ (s.slot kd).q.val →
    (s.slot kd).p.val * (s.slot kd).q.val = (s.slot kd).n.val →
    ((Nat.lcm ((s.slot kd).p.val - 1) ((s.slot kd).q.val - 1) : Nat) : Int) ∣
      ((s.slot kd).e.val : Int) * (s.slot kd).d.val - 1 →
    (s.slot ke).n = (s.slot kd).n → (s.slot ke).e = (s.slot kd).e →
    (s.argLatched 0 + s.argLatched 1 ≤ s.argLatched 2 ∨
      s.argLatched 2 + ceil8 (bitlen (s.slot kd).n.val) ≤ s.argLatched 0) →
    exec (.psssign h kd sh) s = .next t → t.err = .ok →
    let t' : State := { t with argL := (t.argL.set 3 (s.argL[2])).set 4 t.res }
    KeyUsable t' ke t'.ports q →
    ∃ u, exec (.pssver h ke sh) t' = .next u ∧ u.err = .ok ∧ u.bFlag = true ∧ u.res = 1#32
end

