-- ==== Sys2Proof/Laws/Cmd.lean ====
section
/-! SUPPORT. How the shared operations of command bodies run: one equation per operation, and the inversions of bind and of `runBody` that say what a command that ends well, or badly, has done. -/

namespace Sys2Proof.Machine

open Sys2Proof

section
variable {α β : Type}

@[simp] theorem pure_apply (a : α) (p : Ports) : (pure a : Cmd α) p = .ok a p := rfl

@[simp] theorem raise_apply (e : ErrCode) (p : Ports) : (raise e : Cmd α) p = .error (.raise e) p := rfl

theorem bind_apply (c : Cmd α) (f : α → Cmd β) (p : Ports) :
    (c >>= f) p = match c p with
      | .ok a q => f a q
      | .error e q => .error e q := by
  show EStateM.bind c f p = _
  unfold EStateM.bind
  cases c p <;> rfl

theorem bind_of_ok {c : Cmd α} {f : α → Cmd β} {p q : Ports} {a : α} (h : c p = .ok a q) : (c >>= f) p = f a q := by
  rw [bind_apply, h]

theorem bind_of_error {c : Cmd α} {f : α → Cmd β} {p q : Ports} {e : Stop} (h : c p = .error e q) :
    (c >>= f) p = .error e q := by
  rw [bind_apply, h]

/-- A body of two parts ends well exactly when both do. -/
theorem bind_eq_ok {c : Cmd α} {f : α → Cmd β} {p r : Ports} {b : β} :
    (c >>= f) p = .ok b r ↔ ∃ a q, c p = .ok a q ∧ f a q = .ok b r := by
  rw [bind_apply]
  cases c p <;> simp

/-- A body of two parts ends badly when the first does, or the first ends well and the second badly. -/
theorem bind_eq_error {c : Cmd α} {f : α → Cmd β} {p r : Ports} {e : Stop} :
    (c >>= f) p = .error e r ↔ c p = .error e r ∨ ∃ a q, c p = .ok a q ∧ f a q = .error e r := by
  rw [bind_apply]
  cases c p <;> simp

theorem raiseIf_apply (c : Prop) [Decidable c] (e : ErrCode) (p : Ports) :
    raiseIf c e p = if c then .error (.raise e) p else .ok () p := by
  unfold raiseIf
  split <;> rfl

@[simp] theorem raiseIf_eq_ok {c : Prop} [Decidable c] {e : ErrCode} {p q : Ports} {u : Unit} :
    raiseIf c e p = .ok u q ↔ ¬c ∧ p = q := by
  rw [raiseIf_apply]
  split <;> simp_all

@[simp] theorem readReg_eq_ok {s : State} {r : RegIdx} {p q : Ports} {v : Int} :
    readReg s r p = .ok v q ↔ (s.reg r).valid = true ∧ (s.reg r).val = v ∧ p = q := by
  unfold readReg
  split <;> simp_all

@[simp] theorem stageReg_eq_ok {s t : State} {r : RegIdx} {v : Int} {p q : Ports} :
    stageReg s r v p = .ok t q ↔ v.natAbs < 2 ^ s.par.wBits ∧ s.putReg r v = t ∧ p = q := by
  unfold stageReg
  split <;> simp_all

theorem readReg_of_valid {s : State} {r : RegIdx} (h : (s.reg r).valid = true) (p : Ports) :
    readReg s r p = .ok (s.reg r).val p :=
  readReg_eq_ok.2 ⟨h, rfl, rfl⟩

theorem readReg_of_unwritten {s : State} {r : RegIdx} (h : (s.reg r).valid = false) (p : Ports) :
    readReg s r p = .error (.raise .undefOperand) p := by
  unfold readReg
  rw [if_neg (by simp [h])]
  rfl

theorem raiseIf_of_not {c : Prop} [Decidable c] (h : ¬c) (e : ErrCode) (p : Ports) : raiseIf c e p = .ok () p :=
  raiseIf_eq_ok.2 ⟨h, rfl⟩

theorem raiseIf_of {c : Prop} [Decidable c] (h : c) (e : ErrCode) (p : Ports) : raiseIf c e p = .error (.raise e) p := by
  rw [raiseIf_apply, if_pos h]

theorem stageResult_apply (s : State) (rd : RegIdx) (v : Int) (p : Ports) :
    stageResult s rd v p =
      if v.natAbs < 2 ^ s.par.wBits then .ok ((s.putReg rd v).flagsOf v) p else .error (.raise .overflow) p := by
  unfold stageResult stageReg
  split <;> rfl

@[simp] theorem stageResult_eq_ok {s t : State} {rd : RegIdx} {v : Int} {p q : Ports} :
    stageResult s rd v p = .ok t q ↔ v.natAbs < 2 ^ s.par.wBits ∧ (s.putReg rd v).flagsOf v = t ∧ p = q := by
  rw [stageResult_apply]
  split <;> simp_all

theorem stageResult_of_fits {s : State} {v : Int} (h : v.natAbs < 2 ^ s.par.wBits) (rd : RegIdx) (p : Ports) :
    stageResult s rd v p = .ok (s.withResult rd v) p :=
  stageResult_eq_ok.2 ⟨h, rfl, rfl⟩

theorem stageResult_of_overflow {s : State} {v : Int} (h : 2 ^ s.par.wBits ≤ v.natAbs) (rd : RegIdx) (p : Ports) :
    stageResult s rd v p = .error (.raise .overflow) p := by
  rw [stageResult_apply, if_neg (by omega)]

end

/-- A body that ends well completes with OK. -/
theorem runBody_of_ok {s u : State} {body : Cmd State} {p : Ports} (h : body s.ports = .ok u p) :
    runBody s body = .next (u.completeWith .ok p) := by
  unfold runBody
  rw [h]

/-- A body that raises ends with its code, on the state before it. -/
theorem runBody_of_raise {s : State} {body : Cmd State} {p : Ports} {e : ErrCode}
    (h : body s.ports = .error (.raise e) p) : runBody s body = .next (s.takeError e p) := by
  unfold runBody
  rw [h]

/-- What a command that answers a next state has done: its body ended well, and the staged state is
completed, or the body raised, and nothing of it is left but the code and the answers consumed. -/
theorem runBody_next {s t : State} {body : Cmd State} (h : runBody s body = .next t) :
    (∃ u p, body s.ports = .ok u p ∧ t = u.completeWith .ok p) ∨
    (∃ e p, body s.ports = .error (.raise e) p ∧ t = s.takeError e p) := by
  unfold runBody at h
  split at h
  · next u p hb => exact .inl ⟨u, p, hb, by simpa using h.symm⟩
  · next e p hb => exact .inr ⟨e, p, hb, by simpa using h.symm⟩
  · cases h

end Sys2Proof.Machine
end

