-- ==== Sys2Proof/Laws/Agents.lean ====
section
/-! SUPPORT. Which agents a body asks, and how it may stop: one predicate, closed under sequencing, and one lemma per shared operation; and what the shared operations answer when the agents answer. -/

namespace Sys2Proof.Machine

open Sys2Proof

/-- What a body that may ask the RNG (`rng`) and the hash unit (`hash`) leaves of the ports. -/
structure Ports.LeftBy (rng hash : Bool) (p q : Ports) : Prop where
  rngKept : rng = false → q.rng = p.rng ∧ q.rngFree = p.rngFree
  rngRest : q.rng <:+ p.rng ∧ p.rngFree ≤ q.rngFree
  hashKept : hash = false → q.hash = p.hash
  hashRest : q.hash <:+ p.hash

/-- The RNG may be silent at a request: a listed answer is silence, or a free one is. -/
def Ports.RngMayBeSilent (p : Ports) : Prop :=
  RngAnswer.silent ∈ p.rng ∨ ∃ k, p.rngFree ≤ k ∧ Config.rngDraw k = .silent

/-- How such a body may stop. -/
structure Stop.AllowedBy (rng hash : Bool) (p : Ports) (e : Stop) : Prop where
  code : e ≠ .raise .ok
  rngSilent : e = .stalled .rngSilent → rng = true ∧ p.RngMayBeSilent
  hashSilent : e = .stalled .hashSilent → hash = true ∧ HashAnswer.silent ∈ p.hash

/-- A body that asks at most the agents named, and stops only with a code that is not OK or for want of an answer. -/
def Asks (rng hash : Bool) {α : Type} (c : Cmd α) : Prop :=
  ∀ p, match c p with
    | .ok _ q => Ports.LeftBy rng hash p q
    | .error e q => Ports.LeftBy rng hash p q ∧ Stop.AllowedBy rng hash p e

section
variable {α β : Type} {rng hash : Bool}

theorem Ports.LeftBy.refl (p : Ports) : Ports.LeftBy rng hash p p :=
  ⟨fun _ => ⟨rfl, rfl⟩, ⟨List.suffix_refl _, Nat.le_refl _⟩, fun _ => rfl, List.suffix_refl _⟩

theorem Ports.LeftBy.trans {p q r : Ports} (h : Ports.LeftBy rng hash p q) (k : Ports.LeftBy rng hash q r) :
    Ports.LeftBy rng hash p r :=
  ⟨fun e => ⟨(k.rngKept e).1.trans (h.rngKept e).1, (k.rngKept e).2.trans (h.rngKept e).2⟩,
    ⟨k.rngRest.1.trans h.rngRest.1, h.rngRest.2.trans k.rngRest.2⟩, fun e => (k.hashKept e).trans (h.hashKept e), k.hashRest.trans h.hashRest⟩

theorem Ports.RngMayBeSilent.of_left {p q : Ports} (h : Ports.LeftBy rng hash p q) (k : q.RngMayBeSilent) :
    p.RngMayBeSilent :=
  k.imp (fun k => h.rngRest.1.subset k) fun ⟨n, hn, k⟩ => ⟨n, h.rngRest.2.trans hn, k⟩

theorem Stop.AllowedBy.of_left {p q : Ports} {e : Stop} (h : Ports.LeftBy rng hash p q)
    (k : Stop.AllowedBy rng hash q e) : Stop.AllowedBy rng hash p e :=
  ⟨k.code, fun e => ⟨(k.rngSilent e).1, (k.rngSilent e).2.of_left h⟩, fun e => ⟨(k.hashSilent e).1, h.hashRest.subset (k.hashSilent e).2⟩⟩

theorem asks_pure (a : α) : Asks rng hash (pure a : Cmd α) := fun p => Ports.LeftBy.refl p

theorem asks_raise {e : ErrCode} (h : e ≠ .ok) : Asks rng hash (raise e : Cmd α) := fun p =>
  ⟨Ports.LeftBy.refl p, ⟨by simpa using h, by simp, by simp⟩⟩

theorem asks_bind {c : Cmd α} {f : α → Cmd β} (h : Asks rng hash c) (k : ∀ a, Asks rng hash (f a)) :
    Asks rng hash (c >>= f) := by
  intro p
  have hp := h p
  rw [bind_apply]
  cases hc : c p with
  | ok a q =>
    rw [hc] at hp
    have hq := k a q
    cases hf : f a q with
    | ok b r =>
      rw [hf] at hq
      simpa [hf] using hp.trans hq
    | error e r =>
      rw [hf] at hq
      simpa [hf] using (⟨hp.trans hq.1, hq.2.of_left hp⟩ : _ ∧ _)
  | error e q =>
    rw [hc] at hp
    exact hp

theorem asks_ite {c : Prop} [Decidable c] {x y : Cmd α} (h : Asks rng hash x) (k : Asks rng hash y) :
    Asks rng hash (if c then x else y) := by
  split
  · exact h
  · exact k

theorem asks_raiseIf {c : Prop} [Decidable c] {e : ErrCode} (h : e ≠ .ok) : Asks rng hash (raiseIf c e) :=
  asks_ite (asks_raise h) (asks_pure ())

theorem asks_readReg (s : State) (r : RegIdx) : Asks rng hash (readReg s r) :=
  asks_ite (asks_pure _) (asks_raise (by decide))

theorem asks_stageReg (s : State) (r : RegIdx) (v : Int) : Asks rng hash (stageReg s r v) :=
  asks_ite (asks_pure _) (asks_raise (by decide))

theorem asks_stageResult (s : State) (r : RegIdx) (v : Int) : Asks rng hash (stageResult s r v) :=
  asks_bind (asks_stageReg s r v) (fun _ => asks_pure _)

theorem asks_checkRange (s : State) (off len : Nat) : Asks rng hash (checkRange s off len) :=
  asks_raiseIf (by decide)

theorem asks_requireHash (s : State) (h : HashId) : Asks rng hash (requireHash s h) :=
  asks_raiseIf (by decide)

theorem asks_checkModulus (m : Int) : Asks rng hash (checkModulus m) :=
  asks_bind (asks_raiseIf (by decide)) (fun _ => asks_raiseIf (by decide))

/-- Asking the RNG takes the first listed answer, or the next free one when none is listed. -/
theorem Ports.nextRng_cases (p : Ports) :
    (∃ a t, p.rng = a :: t ∧ p.nextRng = (a, { p with rng := t })) ∨
    (p.rng = [] ∧ p.nextRng = (Config.rngDraw p.rngFree, { p with rngFree := p.rngFree + 1 })) := by
  unfold Ports.nextRng
  split
  · next a t h => exact .inl ⟨a, t, h, rfl⟩
  · next h => exact .inr ⟨h, rfl⟩

theorem Ports.nextRng_left (p : Ports) : Ports.LeftBy true hash p p.nextRng.2 := by
  rcases p.nextRng_cases with ⟨a, t, hp, h⟩ | ⟨hp, h⟩
  · rw [h]
    exact ⟨by simp, ⟨hp ▸ List.suffix_cons a t, Nat.le_refl _⟩, fun _ => rfl, List.suffix_refl _⟩
  · rw [h]
    exact ⟨by simp, ⟨List.suffix_refl _, Nat.le_succ _⟩, fun _ => rfl, List.suffix_refl _⟩

theorem Ports.nextRng_silent {p q : Ports} (h : p.nextRng = (.silent, q)) : p.RngMayBeSilent := by
  rcases p.nextRng_cases with ⟨a, t, hp, h'⟩ | ⟨hp, h'⟩
  · rw [h] at h'
    exact .inl (by simp [hp, ← (Prod.mk.inj h').1])
  · rw [h] at h'
    exact .inr ⟨_, Nat.le_refl _, (Prod.mk.inj h').1.symm⟩

theorem asks_rngByte : Asks true hash rngByte := by
  intro p
  have h := p.nextRng_left (hash := hash)
  unfold rngByte
  cases hp : p.nextRng with
  | mk a q =>
    rw [hp] at h
    cases a with
    | byte b => exact h
    | fail => exact ⟨h, ⟨by simp, by simp, by simp⟩⟩
    | silent => exact ⟨h, ⟨by simp, fun _ => ⟨rfl, Ports.nextRng_silent hp⟩, by simp⟩⟩

theorem asks_rngBytes (n : Nat) : Asks true hash (rngBytes n) := by
  induction n with
  | zero => exact asks_pure []
  | succ n ih => exact asks_bind asks_rngByte fun _ => asks_bind ih fun _ => asks_pure _

theorem asks_randBelow (limit bound : Nat) : Asks true hash (randBelow limit bound) := by
  have h : ∀ tries, Asks true hash (randBelowLoop tries bound) := by
    intro tries
    induction tries with
    | zero => exact asks_raise (by decide)
    | succ n ih => exact asks_bind (asks_rngBytes _) fun _ => asks_ite (asks_pure _) ih
  exact asks_ite (asks_pure 0) (h limit)

theorem asks_hashRequest : Asks rng true hashRequest := by
  intro p
  unfold hashRequest
  cases hp : p.hash with
  | nil => exact Ports.LeftBy.refl p
  | cons a t =>
    have h : Ports.LeftBy rng true p { p with hash := t } :=
      ⟨fun _ => ⟨rfl, rfl⟩, ⟨List.suffix_refl _, Nat.le_refl _⟩, by simp, by rw [hp]; exact List.suffix_cons a t⟩
    cases a with
    | digest => exact h
    | unsupported => exact ⟨h, ⟨by simp, by simp, by simp⟩⟩
    | silent => exact ⟨h, ⟨by simp, by simp, fun _ => ⟨rfl, by simp [hp]⟩⟩⟩

theorem asks_hashRequests (k : Nat) : Asks rng true (hashRequests k) := by
  induction k with
  | zero => exact asks_pure ()
  | succ k ih => exact asks_bind asks_hashRequest fun _ => ih

theorem asks_millerRabin (limit r : Nat) (n : Int) : Asks true hash (millerRabin limit r n) := by
  have h : ∀ m, Asks true hash (millerRabinRounds limit r m) := by
    intro m
    induction r with
    | zero => exact asks_pure true
    | succ r ih => exact asks_bind (asks_randBelow _ _) fun _ => asks_ite ih (asks_pure false)
  exact asks_ite (asks_pure _) (asks_ite (asks_pure _) (asks_ite (asks_pure _) (h _)))

theorem asks_validatePrivate (s : State) (ks : KeySlot) : Asks true hash (validatePrivate s ks) :=
  asks_ite
    (asks_bind (asks_raiseIf (by decide)) fun _ => asks_bind (asks_millerRabin _ _ _) fun _ =>
      asks_bind (asks_raiseIf (by decide)) fun _ => asks_bind (asks_millerRabin _ _ _) fun _ =>
      asks_bind (asks_raiseIf (by decide)) fun _ => asks_bind (asks_raiseIf (by decide)) fun _ =>
      asks_raiseIf (by decide))
    (asks_pure ())

theorem asks_validate (s : State) (k : Slot) : Asks true hash (validate s k) :=
  asks_ite (asks_pure s)
    (asks_bind (asks_raiseIf (by decide)) fun _ => asks_bind (asks_validatePrivate s _) fun _ => asks_pure _)

theorem asks_keyForPublic (s : State) (k : Slot) : Asks true hash (keyForPublic s k) :=
  asks_bind (asks_raiseIf (by decide)) fun _ => asks_validate s k

theorem asks_keyForPrivate (s : State) (k : Slot) : Asks true hash (keyForPrivate s k) :=
  asks_bind (asks_raiseIf (by decide)) fun _ => asks_bind (asks_raiseIf (by decide)) fun _ => asks_validate s k

end

/-- A command whose body asks some agents and answers a next state: what it leaves of the ports, and what a raise
leaves of the state. -/
theorem runBody_asks {rng hash : Bool} {s t : State} {body : Cmd State} (hc : Asks rng hash body)
    (h : runBody s body = .next t) :
    (∃ u p, body s.ports = .ok u p ∧ t = u.completeWith .ok p ∧ Ports.LeftBy rng hash s.ports p) ∨
    (∃ e p, e ≠ .ok ∧ t = s.takeError e p ∧ Ports.LeftBy rng hash s.ports p) := by
  have hp := hc s.ports
  rcases runBody_next h with ⟨u, p, hb, rfl⟩ | ⟨e, p, hb, rfl⟩
  · rw [hb] at hp
    exact .inl ⟨u, p, hb, rfl, hp⟩
  · rw [hb] at hp
    exact .inr ⟨e, p, by simpa using hp.2.code, rfl, hp.1⟩

/-! ### What the operations answer -/

/-- The RNG delivers the bytes of its list in order. -/
theorem rngBytes_deliver {bs : Bytes} {p : Ports} {rest : List RngAnswer} (h : p.rng = bs.map .byte ++ rest) :
    rngBytes bs.length p = .ok bs { p with rng := rest } := by
  induction bs generalizing p with
  | nil => cases p; simp_all [rngBytes]
  | cons v t ih =>
    have h1 : rngByte p = .ok v { p with rng := t.map .byte ++ rest } := by
      unfold rngByte Ports.nextRng
      rw [h]
      rfl
    show (rngByte >>= fun v => rngBytes t.length >>= fun t => pure (v :: t)) p = _
    rw [bind_of_ok h1, bind_of_ok (ih (p := { p with rng := t.map .byte ++ rest }) rfl), pure_apply]

/-- A failure among the bytes asked for ends the request with ENTROPY; the answers before it are consumed. -/
theorem rngBytes_fail {bs : Bytes} {n : Nat} {p : Ports} {rest : List RngAnswer} (hn : bs.length < n)
    (h : p.rng = bs.map .byte ++ .fail :: rest) :
    rngBytes n p = .error (.raise .entropy) { p with rng := rest } := by
  induction bs generalizing p n with
  | nil =>
    obtain ⟨n, rfl⟩ := Nat.exists_eq_succ_of_ne_zero (Nat.ne_of_gt hn)
    have h1 : rngByte p = .error (.raise .entropy) { p with rng := rest } := by
      unfold rngByte Ports.nextRng
      rw [h]
      rfl
    exact bind_of_error h1
  | cons v t ih =>
    obtain ⟨n, rfl⟩ := Nat.exists_eq_succ_of_ne_zero (Nat.ne_of_gt (Nat.zero_lt_of_lt hn))
    have h1 : rngByte p = .ok v { p with rng := t.map .byte ++ .fail :: rest } := by
      unfold rngByte Ports.nextRng
      rw [h]
      rfl
    show (rngByte >>= fun v => rngBytes n >>= fun t => pure (v :: t)) p = _
    rw [bind_of_ok h1, bind_of_error (ih (p := { p with rng := t.map .byte ++ .fail :: rest })
      (by simpa using hn) rfl)]

theorem rngBytes_fail_of_head {bs : Bytes} {n : Nat} {p : Ports} {rest : List RngAnswer} (hn : bs.length < n)
    (h : p.rng = bs.map .byte ++ rest) (hr : rest.head? = some .fail) :
    rngBytes n p = .error (.raise .entropy) { p with rng := rest.tail } := by
  obtain ⟨t, rfl⟩ := List.head?_eq_some_iff.1 hr
  exact rngBytes_fail hn h

/-- The bytes a request delivers are as many as it asked for. -/
theorem rngBytes_length {n : Nat} {p q : Ports} {bs : Bytes} (h : rngBytes n p = .ok bs q) : bs.length = n := by
  induction n generalizing p q bs with
  | zero =>
    simp only [rngBytes, pure_apply, EStateM.Result.ok.injEq] at h
    simp [← h.1]
  | succ n ih =>
    obtain ⟨v, r, _, h⟩ := bind_eq_ok.1 h
    obtain ⟨t, r', ht, h⟩ := bind_eq_ok.1 h
    simp only [pure_apply, EStateM.Result.ok.injEq] at h
    rw [← h.1, List.length_cons, ih ht]

/-- RandBelow answers a value below the bound. -/
theorem randBelow_lt {limit bound x : Nat} {p q : Ports} (_hb : 1 ≤ bound) (h : randBelow limit bound p = .ok x q) :
    x < bound := by
  have hl : ∀ tries (p : Ports), randBelowLoop tries bound p = .ok x q → x < bound := by
    intro tries
    induction tries with
    | zero => intro p h; cases h
    | succ n ih =>
      intro p h
      obtain ⟨bs, r, _, h⟩ := bind_eq_ok.1 h
      split at h
      · next hlt =>
        simp only [pure_apply, EStateM.Result.ok.injEq] at h
        exact h.1 ▸ hlt
      · exact ih _ h
  unfold randBelow at h
  split at h
  · simp only [pure_apply, EStateM.Result.ok.injEq] at h
    omega
  · exact hl _ _ h

/-- When no listed answer is another than the digest, a request succeeds and consumes its answer. -/
theorem hashRequest_answered {p : Ports} (h : HashAnswers p) :
    hashRequest p = .ok () { p with hash := p.hash.drop 1 } := by
  unfold hashRequest
  cases hp : p.hash with
  | nil => cases p; simp_all
  | cons a t =>
    have : a = .digest := h a (by simp [hp])
    subst this
    rfl

theorem hashRequests_answered {p : Ports} (h : HashAnswers p) (k : Nat) :
    hashRequests k p = .ok () { p with hash := p.hash.drop k } := by
  induction k generalizing p with
  | zero => rfl
  | succ k ih =>
    show (hashRequest >>= fun _ => hashRequests k) p = _
    rw [bind_of_ok (hashRequest_answered h),
      ih (p := { p with hash := p.hash.drop 1 }) (fun a ha => h a (List.drop_subset _ _ ha))]
    simp

/-- An answer "unsupported" among the requests ends them with UNSUPPORTED_HASH. -/
theorem hashRequests_refused {p q : Ports} {k : Nat} (h : HashRefuses p k q) :
    hashRequests k p = .error (.raise .unsupportedHash) q := by
  obtain ⟨j, rest, hj, hp, rfl⟩ := h
  induction j generalizing p k with
  | zero =>
    obtain ⟨k, rfl⟩ := Nat.exists_eq_succ_of_ne_zero (Nat.ne_of_gt hj)
    refine bind_of_error ?_
    unfold hashRequest
    rw [hp]
    rfl
  | succ j ih =>
    obtain ⟨k, rfl⟩ := Nat.exists_eq_succ_of_ne_zero (Nat.ne_of_gt (Nat.zero_lt_of_lt hj))
    have h1 : hashRequest p = .ok () { p with hash := List.replicate j .digest ++ .unsupported :: rest } := by
      unfold hashRequest
      rw [hp]
      rfl
    show (hashRequest >>= fun _ => hashRequests k) p = _
    rw [bind_of_ok h1, ih (p := { p with hash := _ }) (by simpa using hj) rfl]

theorem hashRequest_refused {p q : Ports} (h : HashRefuses p 1 q) :
    hashRequest p = .error (.raise .unsupportedHash) q := by
  obtain ⟨j, rest, hj, hp, rfl⟩ := h
  obtain rfl : j = 0 := by omega
  unfold hashRequest
  rw [hp]
  rfl

/-- A rejected attempt leaves one attempt less. -/
theorem randBelowLoop_reject {tries bound : Nat} {bs : Bytes} {p : Ports} {rest : List RngAnswer}
    (hl : bs.length = ceil8 (bitlen (bound - 1))) (hb : bound ≤ os2ip bs % 2 ^ bitlen (bound - 1))
    (h : p.rng = bs.map .byte ++ rest) :
    randBelowLoop (tries + 1) bound p = randBelowLoop tries bound { p with rng := rest } := by
  rw [randBelowLoop, ← hl, bind_of_ok (rngBytes_deliver h)]
  simp only [if_neg (Nat.not_lt.2 hb)]

/-- An accepted attempt ends the loop. -/
theorem randBelowLoop_accept {tries bound : Nat} {bs : Bytes} {p : Ports} {rest : List RngAnswer}
    (hl : bs.length = ceil8 (bitlen (bound - 1))) (hb : os2ip bs % 2 ^ bitlen (bound - 1) < bound)
    (h : p.rng = bs.map .byte ++ rest) :
    randBelowLoop (tries + 1) bound p = .ok (os2ip bs % 2 ^ bitlen (bound - 1)) { p with rng := rest } := by
  rw [randBelowLoop, ← hl, bind_of_ok (rngBytes_deliver h)]
  simp only [if_pos hb, pure_apply]

theorem randBelow_of_gives {limit bound x : Nat} {p q : Ports} (hb : bound ≠ 1) (h : RandBelowGives limit bound p x q) :
    randBelow limit bound p = .ok x q := by
  rw [randBelow, if_neg hb]
  obtain ⟨rej, acc, rest, hr, hl, ha, rfl, hx, hp, rfl⟩ := h
  induction rej generalizing p limit with
  | nil =>
    obtain ⟨n, rfl⟩ := Nat.exists_eq_succ_of_ne_zero (Nat.ne_of_gt hl)
    exact randBelowLoop_accept ha hx (by simpa using hp)
  | cons v t ih =>
    obtain ⟨hv, hvb⟩ := hr v (by simp)
    obtain ⟨n, rfl⟩ := Nat.exists_eq_succ_of_ne_zero (Nat.ne_of_gt (Nat.zero_lt_of_lt hl))
    rw [randBelowLoop_reject hv hvb (rest := (t.flatten ++ acc).map .byte ++ rest) (by simpa using hp)]
    exact ih (p := { p with rng := _ }) (fun bs hbs => hr bs (by simp [hbs])) (by simpa using hl) rfl

theorem randBelow_of_fails {limit bound : Nat} {p q : Ports} {e : ErrCode} (hb : bound ≠ 1)
    (h : RandBelowFails limit bound p e q) : randBelow limit bound p = .error (.raise e) q := by
  rw [randBelow, if_neg hb]
  obtain ⟨rej, rest, hr, rfl, h⟩ := h
  induction rej generalizing p limit with
  | nil =>
    rcases h with ⟨rfl, hl, bs, hbs, hp⟩ | ⟨rfl, hl, hp⟩
    · obtain ⟨n, rfl⟩ := Nat.exists_eq_succ_of_ne_zero (Nat.ne_of_gt hl)
      exact bind_of_error (rngBytes_fail hbs (by simpa using hp))
    · obtain rfl : limit = 0 := by simpa using hl.symm
      cases p
      simp_all [randBelowLoop]
  | cons v t ih =>
    obtain ⟨hv, hvb⟩ := hr v (by simp)
    have ht : ∀ bs ∈ t, _ := fun bs hbs => hr bs (by simp [hbs])
    rcases h with ⟨rfl, hl, bs, hbs, hp⟩ | ⟨rfl, hl, hp⟩
    · obtain ⟨n, rfl⟩ := Nat.exists_eq_succ_of_ne_zero (Nat.ne_of_gt (Nat.zero_lt_of_lt hl))
      rw [randBelowLoop_reject hv hvb (rest := (t.flatten ++ bs).map .byte ++ .fail :: rest) (by simpa using hp)]
      exact ih (p := { p with rng := _ }) ht (.inl ⟨rfl, by simpa using hl, bs, hbs, rfl⟩)
    · obtain ⟨n, rfl⟩ : ∃ n, limit = n + 1 := ⟨t.length, by simpa using hl.symm⟩
      rw [randBelowLoop_reject hv hvb (rest := t.flatten.map .byte ++ rest) (by simpa using hp)]
      exact ih (p := { p with rng := _ }) ht (.inr ⟨rfl, by simpa using hl, rfl⟩)

end Sys2Proof.Machine
end

