-- ==== Sys2Proof/Laws/State.lean ====
section
/-! SUPPORT. What each named update of the state does to each field, one lemma each, so that no proof unfolds a record update; and the reads of registers, key slots and BUF bytes through the updates. -/

namespace Sys2Proof.Machine

open Sys2Proof

section fields

variable (s : State)

/-! ### completeWith -/

@[simp] theorem State.completeWith_par (e : ErrCode) (p : Ports) : (s.completeWith e p).par = s.par := rfl
@[simp] theorem State.completeWith_b (e : ErrCode) (p : Ports) : (s.completeWith e p).b = s.b := rfl
@[simp] theorem State.completeWith_k0 (e : ErrCode) (p : Ports) : (s.completeWith e p).k0 = s.k0 := rfl
@[simp] theorem State.completeWith_k1 (e : ErrCode) (p : Ports) : (s.completeWith e p).k1 = s.k1 := rfl
@[simp] theorem State.completeWith_buf (e : ErrCode) (p : Ports) : (s.completeWith e p).buf = s.buf := rfl
@[simp] theorem State.completeWith_z (e : ErrCode) (p : Ports) : (s.completeWith e p).z = s.z := rfl
@[simp] theorem State.completeWith_n (e : ErrCode) (p : Ports) : (s.completeWith e p).n = s.n := rfl
@[simp] theorem State.completeWith_bFlag (e : ErrCode) (p : Ports) : (s.completeWith e p).bFlag = s.bFlag := rfl
@[simp] theorem State.completeWith_phase (e : ErrCode) (p : Ports) : (s.completeWith e p).phase = .idle := rfl
@[simp] theorem State.completeWith_done (e : ErrCode) (p : Ports) : (s.completeWith e p).done = true := rfl
@[simp] theorem State.completeWith_err (e : ErrCode) (p : Ports) : (s.completeWith e p).err = e := rfl
@[simp] theorem State.completeWith_ovr (e : ErrCode) (p : Ports) : (s.completeWith e p).ovr = s.ovr := rfl
@[simp] theorem State.completeWith_berr (e : ErrCode) (p : Ports) : (s.completeWith e p).berr = s.berr := rfl
@[simp] theorem State.completeWith_mrRounds (e : ErrCode) (p : Ports) : (s.completeWith e p).mrRounds = s.mrRounds := rfl
@[simp] theorem State.completeWith_expWin (e : ErrCode) (p : Ports) : (s.completeWith e p).expWin = s.expWin := rfl
@[simp] theorem State.completeWith_ie (e : ErrCode) (p : Ports) : (s.completeWith e p).ie = s.ie := rfl
@[simp] theorem State.completeWith_res (e : ErrCode) (p : Ports) : (s.completeWith e p).res = s.res := rfl
@[simp] theorem State.completeWith_arg (e : ErrCode) (p : Ports) : (s.completeWith e p).arg = s.arg := rfl
@[simp] theorem State.completeWith_lastCmd (e : ErrCode) (p : Ports) : (s.completeWith e p).lastCmd = s.lastCmd := rfl
@[simp] theorem State.completeWith_cur (e : ErrCode) (p : Ports) : (s.completeWith e p).cur = s.cur := rfl
@[simp] theorem State.completeWith_argL (e : ErrCode) (p : Ports) : (s.completeWith e p).argL = s.argL := rfl
@[simp] theorem State.completeWith_mrRoundsL (e : ErrCode) (p : Ports) : (s.completeWith e p).mrRoundsL = s.mrRoundsL := rfl
@[simp] theorem State.completeWith_expWinL (e : ErrCode) (p : Ports) : (s.completeWith e p).expWinL = s.expWinL := rfl
@[simp] theorem State.completeWith_ports (e : ErrCode) (p : Ports) : (s.completeWith e p).ports = p := rfl
@[simp] theorem State.completeWith_events (e : ErrCode) (p : Ports) : (s.completeWith e p).events = s.events := rfl
@[simp] theorem State.completeWith_busOut (e : ErrCode) (p : Ports) : (s.completeWith e p).busOut = s.busOut := rfl
@[simp] theorem State.completeWith_resets (e : ErrCode) (p : Ports) : (s.completeWith e p).resets = s.resets := rfl

/-! ### takeError -/

@[simp] theorem State.takeError_par (e : ErrCode) (p : Ports) : (s.takeError e p).par = s.par := rfl
@[simp] theorem State.takeError_b (e : ErrCode) (p : Ports) : (s.takeError e p).b = s.b := rfl
@[simp] theorem State.takeError_k0 (e : ErrCode) (p : Ports) : (s.takeError e p).k0 = s.k0 := rfl
@[simp] theorem State.takeError_k1 (e : ErrCode) (p : Ports) : (s.takeError e p).k1 = s.k1 := rfl
@[simp] theorem State.takeError_buf (e : ErrCode) (p : Ports) : (s.takeError e p).buf = s.buf := rfl
@[simp] theorem State.takeError_z (e : ErrCode) (p : Ports) : (s.takeError e p).z = s.z := rfl
@[simp] theorem State.takeError_n (e : ErrCode) (p : Ports) : (s.takeError e p).n = s.n := rfl
@[simp] theorem State.takeError_bFlag (e : ErrCode) (p : Ports) : (s.takeError e p).bFlag = s.bFlag := rfl
@[simp] theorem State.takeError_phase (e : ErrCode) (p : Ports) : (s.takeError e p).phase = .idle := rfl
@[simp] theorem State.takeError_done (e : ErrCode) (p : Ports) : (s.takeError e p).done = true := rfl
@[simp] theorem State.takeError_err (e : ErrCode) (p : Ports) : (s.takeError e p).err = e := rfl
@[simp] theorem State.takeError_ovr (e : ErrCode) (p : Ports) : (s.takeError e p).ovr = s.ovr := rfl
@[simp] theorem State.takeError_berr (e : ErrCode) (p : Ports) : (s.takeError e p).berr = s.berr := rfl
@[simp] theorem State.takeError_mrRounds (e : ErrCode) (p : Ports) : (s.takeError e p).mrRounds = s.mrRounds := rfl
@[simp] theorem State.takeError_expWin (e : ErrCode) (p : Ports) : (s.takeError e p).expWin = s.expWin := rfl
@[simp] theorem State.takeError_ie (e : ErrCode) (p : Ports) : (s.takeError e p).ie = s.ie := rfl
@[simp] theorem State.takeError_res (e : ErrCode) (p : Ports) : (s.takeError e p).res = s.res := rfl
@[simp] theorem State.takeError_arg (e : ErrCode) (p : Ports) : (s.takeError e p).arg = s.arg := rfl
@[simp] theorem State.takeError_lastCmd (e : ErrCode) (p : Ports) : (s.takeError e p).lastCmd = s.lastCmd := rfl
@[simp] theorem State.takeError_cur (e : ErrCode) (p : Ports) : (s.takeError e p).cur = s.cur := rfl
@[simp] theorem State.takeError_argL (e : ErrCode) (p : Ports) : (s.takeError e p).argL = s.argL := rfl
@[simp] theorem State.takeError_mrRoundsL (e : ErrCode) (p : Ports) : (s.takeError e p).mrRoundsL = s.mrRoundsL := rfl
@[simp] theorem State.takeError_expWinL (e : ErrCode) (p : Ports) : (s.takeError e p).expWinL = s.expWinL := rfl
@[simp] theorem State.takeError_ports (e : ErrCode) (p : Ports) : (s.takeError e p).ports = p := rfl
@[simp] theorem State.takeError_events (e : ErrCode) (p : Ports) : (s.takeError e p).events = s.events := rfl
@[simp] theorem State.takeError_busOut (e : ErrCode) (p : Ports) : (s.takeError e p).busOut = s.busOut := rfl
@[simp] theorem State.takeError_resets (e : ErrCode) (p : Ports) : (s.takeError e p).resets = s.resets := rfl

/-! ### doneWith -/

@[simp] theorem State.doneWith_par (e : ErrCode) : (s.doneWith e).par = s.par := rfl
@[simp] theorem State.doneWith_b (e : ErrCode) : (s.doneWith e).b = s.b := rfl
@[simp] theorem State.doneWith_k0 (e : ErrCode) : (s.doneWith e).k0 = s.k0 := rfl
@[simp] theorem State.doneWith_k1 (e : ErrCode) : (s.doneWith e).k1 = s.k1 := rfl
@[simp] theorem State.doneWith_buf (e : ErrCode) : (s.doneWith e).buf = s.buf := rfl
@[simp] theorem State.doneWith_z (e : ErrCode) : (s.doneWith e).z = s.z := rfl
@[simp] theorem State.doneWith_n (e : ErrCode) : (s.doneWith e).n = s.n := rfl
@[simp] theorem State.doneWith_bFlag (e : ErrCode) : (s.doneWith e).bFlag = s.bFlag := rfl
@[simp] theorem State.doneWith_phase (e : ErrCode) : (s.doneWith e).phase = .idle := rfl
@[simp] theorem State.doneWith_done (e : ErrCode) : (s.doneWith e).done = true := rfl
@[simp] theorem State.doneWith_err (e : ErrCode) : (s.doneWith e).err = e := rfl
@[simp] theorem State.doneWith_ovr (e : ErrCode) : (s.doneWith e).ovr = s.ovr := rfl
@[simp] theorem State.doneWith_berr (e : ErrCode) : (s.doneWith e).berr = s.berr := rfl
@[simp] theorem State.doneWith_mrRounds (e : ErrCode) : (s.doneWith e).mrRounds = s.mrRounds := rfl
@[simp] theorem State.doneWith_expWin (e : ErrCode) : (s.doneWith e).expWin = s.expWin := rfl
@[simp] theorem State.doneWith_ie (e : ErrCode) : (s.doneWith e).ie = s.ie := rfl
@[simp] theorem State.doneWith_res (e : ErrCode) : (s.doneWith e).res = s.res := rfl
@[simp] theorem State.doneWith_arg (e : ErrCode) : (s.doneWith e).arg = s.arg := rfl
@[simp] theorem State.doneWith_lastCmd (e : ErrCode) : (s.doneWith e).lastCmd = s.lastCmd := rfl
@[simp] theorem State.doneWith_cur (e : ErrCode) : (s.doneWith e).cur = s.cur := rfl
@[simp] theorem State.doneWith_argL (e : ErrCode) : (s.doneWith e).argL = s.argL := rfl
@[simp] theorem State.doneWith_mrRoundsL (e : ErrCode) : (s.doneWith e).mrRoundsL = s.mrRoundsL := rfl
@[simp] theorem State.doneWith_expWinL (e : ErrCode) : (s.doneWith e).expWinL = s.expWinL := rfl
@[simp] theorem State.doneWith_ports (e : ErrCode) : (s.doneWith e).ports = s.ports := rfl
@[simp] theorem State.doneWith_events (e : ErrCode) : (s.doneWith e).events = s.events := rfl
@[simp] theorem State.doneWith_busOut (e : ErrCode) : (s.doneWith e).busOut = s.busOut := rfl
@[simp] theorem State.doneWith_resets (e : ErrCode) : (s.doneWith e).resets = s.resets := rfl

/-! ### clearDone -/

@[simp] theorem State.clearDone_par : (s.clearDone).par = s.par := rfl
@[simp] theorem State.clearDone_b : (s.clearDone).b = s.b := rfl
@[simp] theorem State.clearDone_k0 : (s.clearDone).k0 = s.k0 := rfl
@[simp] theorem State.clearDone_k1 : (s.clearDone).k1 = s.k1 := rfl
@[simp] theorem State.clearDone_buf : (s.clearDone).buf = s.buf := rfl
@[simp] theorem State.clearDone_z : (s.clearDone).z = s.z := rfl
@[simp] theorem State.clearDone_n : (s.clearDone).n = s.n := rfl
@[simp] theorem State.clearDone_bFlag : (s.clearDone).bFlag = s.bFlag := rfl
@[simp] theorem State.clearDone_phase : (s.clearDone).phase = s.phase := rfl
@[simp] theorem State.clearDone_done : (s.clearDone).done = false := rfl
@[simp] theorem State.clearDone_err : (s.clearDone).err = s.err := rfl
@[simp] theorem State.clearDone_ovr : (s.clearDone).ovr = s.ovr := rfl
@[simp] theorem State.clearDone_berr : (s.clearDone).berr = s.berr := rfl
@[simp] theorem State.clearDone_mrRounds : (s.clearDone).mrRounds = s.mrRounds := rfl
@[simp] theorem State.clearDone_expWin : (s.clearDone).expWin = s.expWin := rfl
@[simp] theorem State.clearDone_ie : (s.clearDone).ie = s.ie := rfl
@[simp] theorem State.clearDone_res : (s.clearDone).res = s.res := rfl
@[simp] theorem State.clearDone_arg : (s.clearDone).arg = s.arg := rfl
@[simp] theorem State.clearDone_lastCmd : (s.clearDone).lastCmd = s.lastCmd := rfl
@[simp] theorem State.clearDone_cur : (s.clearDone).cur = s.cur := rfl
@[simp] theorem State.clearDone_argL : (s.clearDone).argL = s.argL := rfl
@[simp] theorem State.clearDone_mrRoundsL : (s.clearDone).mrRoundsL = s.mrRoundsL := rfl
@[simp] theorem State.clearDone_expWinL : (s.clearDone).expWinL = s.expWinL := rfl
@[simp] theorem State.clearDone_ports : (s.clearDone).ports = s.ports := rfl
@[simp] theorem State.clearDone_events : (s.clearDone).events = s.events := rfl
@[simp] theorem State.clearDone_busOut : (s.clearDone).busOut = s.busOut := rfl
@[simp] theorem State.clearDone_resets : (s.clearDone).resets = s.resets := rfl

/-! ### accept -/

@[simp] theorem State.accept_par (w : Word) : (s.accept w).par = s.par := rfl
@[simp] theorem State.accept_b (w : Word) : (s.accept w).b = s.b := rfl
@[simp] theorem State.accept_k0 (w : Word) : (s.accept w).k0 = s.k0 := rfl
@[simp] theorem State.accept_k1 (w : Word) : (s.accept w).k1 = s.k1 := rfl
@[simp] theorem State.accept_buf (w : Word) : (s.accept w).buf = s.buf := rfl
@[simp] theorem State.accept_z (w : Word) : (s.accept w).z = s.z := rfl
@[simp] theorem State.accept_n (w : Word) : (s.accept w).n = s.n := rfl
@[simp] theorem State.accept_bFlag (w : Word) : (s.accept w).bFlag = s.bFlag := rfl
@[simp] theorem State.accept_phase (w : Word) : (s.accept w).phase = .busy := rfl
@[simp] theorem State.accept_done (w : Word) : (s.accept w).done = false := rfl
@[simp] theorem State.accept_err (w : Word) : (s.accept w).err = s.err := rfl
@[simp] theorem State.accept_ovr (w : Word) : (s.accept w).ovr = s.ovr := rfl
@[simp] theorem State.accept_berr (w : Word) : (s.accept w).berr = s.berr := rfl
@[simp] theorem State.accept_mrRounds (w : Word) : (s.accept w).mrRounds = s.mrRounds := rfl
@[simp] theorem State.accept_expWin (w : Word) : (s.accept w).expWin = s.expWin := rfl
@[simp] theorem State.accept_ie (w : Word) : (s.accept w).ie = s.ie := rfl
@[simp] theorem State.accept_res (w : Word) : (s.accept w).res = s.res := rfl
@[simp] theorem State.accept_arg (w : Word) : (s.accept w).arg = s.arg := rfl
@[simp] theorem State.accept_lastCmd (w : Word) : (s.accept w).lastCmd = w := rfl
@[simp] theorem State.accept_cur (w : Word) : (s.accept w).cur = w := rfl
@[simp] theorem State.accept_argL (w : Word) : (s.accept w).argL = s.arg := rfl
@[simp] theorem State.accept_mrRoundsL (w : Word) : (s.accept w).mrRoundsL = s.mrRounds := rfl
@[simp] theorem State.accept_expWinL (w : Word) : (s.accept w).expWinL = s.expWin := rfl
@[simp] theorem State.accept_ports (w : Word) : (s.accept w).ports = s.ports := rfl
@[simp] theorem State.accept_events (w : Word) : (s.accept w).events = s.events := rfl
@[simp] theorem State.accept_busOut (w : Word) : (s.accept w).busOut = s.busOut := rfl
@[simp] theorem State.accept_resets (w : Word) : (s.accept w).resets = s.resets := rfl

/-! ### resetEvent -/

@[simp] theorem State.resetEvent_par : (s.resetEvent).par = s.par := rfl
@[simp] theorem State.resetEvent_b : (s.resetEvent).b = Vector.replicate 16 ⟨0, false⟩ := rfl
@[simp] theorem State.resetEvent_k0 : (s.resetEvent).k0 = KeySlot.empty := rfl
@[simp] theorem State.resetEvent_k1 : (s.resetEvent).k1 = KeySlot.empty := rfl
@[simp] theorem State.resetEvent_buf : (s.resetEvent).buf = [] := rfl
@[simp] theorem State.resetEvent_z : (s.resetEvent).z = false := rfl
@[simp] theorem State.resetEvent_n : (s.resetEvent).n = false := rfl
@[simp] theorem State.resetEvent_bFlag : (s.resetEvent).bFlag = false := rfl
@[simp] theorem State.resetEvent_phase : (s.resetEvent).phase = .idle := rfl
@[simp] theorem State.resetEvent_done : (s.resetEvent).done = false := rfl
@[simp] theorem State.resetEvent_err : (s.resetEvent).err = .ok := rfl
@[simp] theorem State.resetEvent_ovr : (s.resetEvent).ovr = false := rfl
@[simp] theorem State.resetEvent_berr : (s.resetEvent).berr = false := rfl
@[simp] theorem State.resetEvent_mrRounds : (s.resetEvent).mrRounds = s.par.mrRoundsReset := rfl
@[simp] theorem State.resetEvent_expWin : (s.resetEvent).expWin = s.par.expWinReset := rfl
@[simp] theorem State.resetEvent_ie : (s.resetEvent).ie = false := rfl
@[simp] theorem State.resetEvent_res : (s.resetEvent).res = 0#32 := rfl
@[simp] theorem State.resetEvent_arg : (s.resetEvent).arg = Vector.replicate 8 0#32 := rfl
@[simp] theorem State.resetEvent_lastCmd : (s.resetEvent).lastCmd = 0#32 := rfl
@[simp] theorem State.resetEvent_cur : (s.resetEvent).cur = 0#32 := rfl
@[simp] theorem State.resetEvent_argL : (s.resetEvent).argL = Vector.replicate 8 0#32 := rfl
@[simp] theorem State.resetEvent_mrRoundsL : (s.resetEvent).mrRoundsL = 0#8 := rfl
@[simp] theorem State.resetEvent_expWinL : (s.resetEvent).expWinL = 0#4 := rfl
@[simp] theorem State.resetEvent_ports : (s.resetEvent).ports = s.ports := rfl
@[simp] theorem State.resetEvent_events : (s.resetEvent).events = s.events := rfl
@[simp] theorem State.resetEvent_busOut : (s.resetEvent).busOut = none := rfl
@[simp] theorem State.resetEvent_resets : (s.resetEvent).resets = s.resets + 1 := rfl

/-! ### flagsOf -/

@[simp] theorem State.flagsOf_par (v : Int) : (s.flagsOf v).par = s.par := rfl
@[simp] theorem State.flagsOf_b (v : Int) : (s.flagsOf v).b = s.b := rfl
@[simp] theorem State.flagsOf_k0 (v : Int) : (s.flagsOf v).k0 = s.k0 := rfl
@[simp] theorem State.flagsOf_k1 (v : Int) : (s.flagsOf v).k1 = s.k1 := rfl
@[simp] theorem State.flagsOf_buf (v : Int) : (s.flagsOf v).buf = s.buf := rfl
@[simp] theorem State.flagsOf_z (v : Int) : (s.flagsOf v).z = decide (v = 0) := rfl
@[simp] theorem State.flagsOf_n (v : Int) : (s.flagsOf v).n = decide (v < 0) := rfl
@[simp] theorem State.flagsOf_bFlag (v : Int) : (s.flagsOf v).bFlag = s.bFlag := rfl
@[simp] theorem State.flagsOf_phase (v : Int) : (s.flagsOf v).phase = s.phase := rfl
@[simp] theorem State.flagsOf_done (v : Int) : (s.flagsOf v).done = s.done := rfl
@[simp] theorem State.flagsOf_err (v : Int) : (s.flagsOf v).err = s.err := rfl
@[simp] theorem State.flagsOf_ovr (v : Int) : (s.flagsOf v).ovr = s.ovr := rfl
@[simp] theorem State.flagsOf_berr (v : Int) : (s.flagsOf v).berr = s.berr := rfl
@[simp] theorem State.flagsOf_mrRounds (v : Int) : (s.flagsOf v).mrRounds = s.mrRounds := rfl
@[simp] theorem State.flagsOf_expWin (v : Int) : (s.flagsOf v).expWin = s.expWin := rfl
@[simp] theorem State.flagsOf_ie (v : Int) : (s.flagsOf v).ie = s.ie := rfl
@[simp] theorem State.flagsOf_res (v : Int) : (s.flagsOf v).res = s.res := rfl
@[simp] theorem State.flagsOf_arg (v : Int) : (s.flagsOf v).arg = s.arg := rfl
@[simp] theorem State.flagsOf_lastCmd (v : Int) : (s.flagsOf v).lastCmd = s.lastCmd := rfl
@[simp] theorem State.flagsOf_cur (v : Int) : (s.flagsOf v).cur = s.cur := rfl
@[simp] theorem State.flagsOf_argL (v : Int) : (s.flagsOf v).argL = s.argL := rfl
@[simp] theorem State.flagsOf_mrRoundsL (v : Int) : (s.flagsOf v).mrRoundsL = s.mrRoundsL := rfl
@[simp] theorem State.flagsOf_expWinL (v : Int) : (s.flagsOf v).expWinL = s.expWinL := rfl
@[simp] theorem State.flagsOf_ports (v : Int) : (s.flagsOf v).ports = s.ports := rfl
@[simp] theorem State.flagsOf_events (v : Int) : (s.flagsOf v).events = s.events := rfl
@[simp] theorem State.flagsOf_busOut (v : Int) : (s.flagsOf v).busOut = s.busOut := rfl
@[simp] theorem State.flagsOf_resets (v : Int) : (s.flagsOf v).resets = s.resets := rfl

/-! ### flagsCompare -/

@[simp] theorem State.flagsCompare_par (v w : Int) : (s.flagsCompare v w).par = s.par := rfl
@[simp] theorem State.flagsCompare_b (v w : Int) : (s.flagsCompare v w).b = s.b := rfl
@[simp] theorem State.flagsCompare_k0 (v w : Int) : (s.flagsCompare v w).k0 = s.k0 := rfl
@[simp] theorem State.flagsCompare_k1 (v w : Int) : (s.flagsCompare v w).k1 = s.k1 := rfl
@[simp] theorem State.flagsCompare_buf (v w : Int) : (s.flagsCompare v w).buf = s.buf := rfl
@[simp] theorem State.flagsCompare_z (v w : Int) : (s.flagsCompare v w).z = decide (v = w) := rfl
@[simp] theorem State.flagsCompare_n (v w : Int) : (s.flagsCompare v w).n = decide (v < w) := rfl
@[simp] theorem State.flagsCompare_bFlag (v w : Int) : (s.flagsCompare v w).bFlag = s.bFlag := rfl
@[simp] theorem State.flagsCompare_phase (v w : Int) : (s.flagsCompare v w).phase = s.phase := rfl
@[simp] theorem State.flagsCompare_done (v w : Int) : (s.flagsCompare v w).done = s.done := rfl
@[simp] theorem State.flagsCompare_err (v w : Int) : (s.flagsCompare v w).err = s.err := rfl
@[simp] theorem State.flagsCompare_ovr (v w : Int) : (s.flagsCompare v w).ovr = s.ovr := rfl
@[simp] theorem State.flagsCompare_berr (v w : Int) : (s.flagsCompare v w).berr = s.berr := rfl
@[simp] theorem State.flagsCompare_mrRounds (v w : Int) : (s.flagsCompare v w).mrRounds = s.mrRounds := rfl
@[simp] theorem State.flagsCompare_expWin (v w : Int) : (s.flagsCompare v w).expWin = s.expWin := rfl
@[simp] theorem State.flagsCompare_ie (v w : Int) : (s.flagsCompare v w).ie = s.ie := rfl
@[simp] theorem State.flagsCompare_res (v w : Int) : (s.flagsCompare v w).res = s.res := rfl
@[simp] theorem State.flagsCompare_arg (v w : Int) : (s.flagsCompare v w).arg = s.arg := rfl
@[simp] theorem State.flagsCompare_lastCmd (v w : Int) : (s.flagsCompare v w).lastCmd = s.lastCmd := rfl
@[simp] theorem State.flagsCompare_cur (v w : Int) : (s.flagsCompare v w).cur = s.cur := rfl
@[simp] theorem State.flagsCompare_argL (v w : Int) : (s.flagsCompare v w).argL = s.argL := rfl
@[simp] theorem State.flagsCompare_mrRoundsL (v w : Int) : (s.flagsCompare v w).mrRoundsL = s.mrRoundsL := rfl
@[simp] theorem State.flagsCompare_expWinL (v w : Int) : (s.flagsCompare v w).expWinL = s.expWinL := rfl
@[simp] theorem State.flagsCompare_ports (v w : Int) : (s.flagsCompare v w).ports = s.ports := rfl
@[simp] theorem State.flagsCompare_events (v w : Int) : (s.flagsCompare v w).events = s.events := rfl
@[simp] theorem State.flagsCompare_busOut (v w : Int) : (s.flagsCompare v w).busOut = s.busOut := rfl
@[simp] theorem State.flagsCompare_resets (v w : Int) : (s.flagsCompare v w).resets = s.resets := rfl

/-! ### setBFlag -/

@[simp] theorem State.setBFlag_par (v : Bool) : (s.setBFlag v).par = s.par := rfl
@[simp] theorem State.setBFlag_b (v : Bool) : (s.setBFlag v).b = s.b := rfl
@[simp] theorem State.setBFlag_k0 (v : Bool) : (s.setBFlag v).k0 = s.k0 := rfl
@[simp] theorem State.setBFlag_k1 (v : Bool) : (s.setBFlag v).k1 = s.k1 := rfl
@[simp] theorem State.setBFlag_buf (v : Bool) : (s.setBFlag v).buf = s.buf := rfl
@[simp] theorem State.setBFlag_z (v : Bool) : (s.setBFlag v).z = s.z := rfl
@[simp] theorem State.setBFlag_n (v : Bool) : (s.setBFlag v).n = s.n := rfl
@[simp] theorem State.setBFlag_bFlag (v : Bool) : (s.setBFlag v).bFlag = v := rfl
@[simp] theorem State.setBFlag_phase (v : Bool) : (s.setBFlag v).phase = s.phase := rfl
@[simp] theorem State.setBFlag_done (v : Bool) : (s.setBFlag v).done = s.done := rfl
@[simp] theorem State.setBFlag_err (v : Bool) : (s.setBFlag v).err = s.err := rfl
@[simp] theorem State.setBFlag_ovr (v : Bool) : (s.setBFlag v).ovr = s.ovr := rfl
@[simp] theorem State.setBFlag_berr (v : Bool) : (s.setBFlag v).berr = s.berr := rfl
@[simp] theorem State.setBFlag_mrRounds (v : Bool) : (s.setBFlag v).mrRounds = s.mrRounds := rfl
@[simp] theorem State.setBFlag_expWin (v : Bool) : (s.setBFlag v).expWin = s.expWin := rfl
@[simp] theorem State.setBFlag_ie (v : Bool) : (s.setBFlag v).ie = s.ie := rfl
@[simp] theorem State.setBFlag_res (v : Bool) : (s.setBFlag v).res = s.res := rfl
@[simp] theorem State.setBFlag_arg (v : Bool) : (s.setBFlag v).arg = s.arg := rfl
@[simp] theorem State.setBFlag_lastCmd (v : Bool) : (s.setBFlag v).lastCmd = s.lastCmd := rfl
@[simp] theorem State.setBFlag_cur (v : Bool) : (s.setBFlag v).cur = s.cur := rfl
@[simp] theorem State.setBFlag_argL (v : Bool) : (s.setBFlag v).argL = s.argL := rfl
@[simp] theorem State.setBFlag_mrRoundsL (v : Bool) : (s.setBFlag v).mrRoundsL = s.mrRoundsL := rfl
@[simp] theorem State.setBFlag_expWinL (v : Bool) : (s.setBFlag v).expWinL = s.expWinL := rfl
@[simp] theorem State.setBFlag_ports (v : Bool) : (s.setBFlag v).ports = s.ports := rfl
@[simp] theorem State.setBFlag_events (v : Bool) : (s.setBFlag v).events = s.events := rfl
@[simp] theorem State.setBFlag_busOut (v : Bool) : (s.setBFlag v).busOut = s.busOut := rfl
@[simp] theorem State.setBFlag_resets (v : Bool) : (s.setBFlag v).resets = s.resets := rfl

/-! ### setRes -/

@[simp] theorem State.setRes_par (v : Nat) : (s.setRes v).par = s.par := rfl
@[simp] theorem State.setRes_b (v : Nat) : (s.setRes v).b = s.b := rfl
@[simp] theorem State.setRes_k0 (v : Nat) : (s.setRes v).k0 = s.k0 := rfl
@[simp] theorem State.setRes_k1 (v : Nat) : (s.setRes v).k1 = s.k1 := rfl
@[simp] theorem State.setRes_buf (v : Nat) : (s.setRes v).buf = s.buf := rfl
@[simp] theorem State.setRes_z (v : Nat) : (s.setRes v).z = s.z := rfl
@[simp] theorem State.setRes_n (v : Nat) : (s.setRes v).n = s.n := rfl
@[simp] theorem State.setRes_bFlag (v : Nat) : (s.setRes v).bFlag = s.bFlag := rfl
@[simp] theorem State.setRes_phase (v : Nat) : (s.setRes v).phase = s.phase := rfl
@[simp] theorem State.setRes_done (v : Nat) : (s.setRes v).done = s.done := rfl
@[simp] theorem State.setRes_err (v : Nat) : (s.setRes v).err = s.err := rfl
@[simp] theorem State.setRes_ovr (v : Nat) : (s.setRes v).ovr = s.ovr := rfl
@[simp] theorem State.setRes_berr (v : Nat) : (s.setRes v).berr = s.berr := rfl
@[simp] theorem State.setRes_mrRounds (v : Nat) : (s.setRes v).mrRounds = s.mrRounds := rfl
@[simp] theorem State.setRes_expWin (v : Nat) : (s.setRes v).expWin = s.expWin := rfl
@[simp] theorem State.setRes_ie (v : Nat) : (s.setRes v).ie = s.ie := rfl
@[simp] theorem State.setRes_res (v : Nat) : (s.setRes v).res = BitVec.ofNat 32 v := rfl
@[simp] theorem State.setRes_arg (v : Nat) : (s.setRes v).arg = s.arg := rfl
@[simp] theorem State.setRes_lastCmd (v : Nat) : (s.setRes v).lastCmd = s.lastCmd := rfl
@[simp] theorem State.setRes_cur (v : Nat) : (s.setRes v).cur = s.cur := rfl
@[simp] theorem State.setRes_argL (v : Nat) : (s.setRes v).argL = s.argL := rfl
@[simp] theorem State.setRes_mrRoundsL (v : Nat) : (s.setRes v).mrRoundsL = s.mrRoundsL := rfl
@[simp] theorem State.setRes_expWinL (v : Nat) : (s.setRes v).expWinL = s.expWinL := rfl
@[simp] theorem State.setRes_ports (v : Nat) : (s.setRes v).ports = s.ports := rfl
@[simp] theorem State.setRes_events (v : Nat) : (s.setRes v).events = s.events := rfl
@[simp] theorem State.setRes_busOut (v : Nat) : (s.setRes v).busOut = s.busOut := rfl
@[simp] theorem State.setRes_resets (v : Nat) : (s.setRes v).resets = s.resets := rfl

/-! ### putReg -/

@[simp] theorem State.putReg_par (r : RegIdx) (v : Int) : (s.putReg r v).par = s.par := rfl
@[simp] theorem State.putReg_b (r : RegIdx) (v : Int) : (s.putReg r v).b = s.b.set r.toNat ⟨v, true⟩ r.isLt := rfl
@[simp] theorem State.putReg_k0 (r : RegIdx) (v : Int) : (s.putReg r v).k0 = s.k0 := rfl
@[simp] theorem State.putReg_k1 (r : RegIdx) (v : Int) : (s.putReg r v).k1 = s.k1 := rfl
@[simp] theorem State.putReg_buf (r : RegIdx) (v : Int) : (s.putReg r v).buf = s.buf := rfl
@[simp] theorem State.putReg_z (r : RegIdx) (v : Int) : (s.putReg r v).z = s.z := rfl
@[simp] theorem State.putReg_n (r : RegIdx) (v : Int) : (s.putReg r v).n = s.n := rfl
@[simp] theorem State.putReg_bFlag (r : RegIdx) (v : Int) : (s.putReg r v).bFlag = s.bFlag := rfl
@[simp] theorem State.putReg_phase (r : RegIdx) (v : Int) : (s.putReg r v).phase = s.phase := rfl
@[simp] theorem State.putReg_done (r : RegIdx) (v : Int) : (s.putReg r v).done = s.done := rfl
@[simp] theorem State.putReg_err (r : RegIdx) (v : Int) : (s.putReg r v).err = s.err := rfl
@[simp] theorem State.putReg_ovr (r : RegIdx) (v : Int) : (s.putReg r v).ovr = s.ovr := rfl
@[simp] theorem State.putReg_berr (r : RegIdx) (v : Int) : (s.putReg r v).berr = s.berr := rfl
@[simp] theorem State.putReg_mrRounds (r : RegIdx) (v : Int) : (s.putReg r v).mrRounds = s.mrRounds := rfl
@[simp] theorem State.putReg_expWin (r : RegIdx) (v : Int) : (s.putReg r v).expWin = s.expWin := rfl
@[simp] theorem State.putReg_ie (r : RegIdx) (v : Int) : (s.putReg r v).ie = s.ie := rfl
@[simp] theorem State.putReg_res (r : RegIdx) (v : Int) : (s.putReg r v).res = s.res := rfl
@[simp] theorem State.putReg_arg (r : RegIdx) (v : Int) : (s.putReg r v).arg = s.arg := rfl
@[simp] theorem State.putReg_lastCmd (r : RegIdx) (v : Int) : (s.putReg r v).lastCmd = s.lastCmd := rfl
@[simp] theorem State.putReg_cur (r : RegIdx) (v : Int) : (s.putReg r v).cur = s.cur := rfl
@[simp] theorem State.putReg_argL (r : RegIdx) (v : Int) : (s.putReg r v).argL = s.argL := rfl
@[simp] theorem State.putReg_mrRoundsL (r : RegIdx) (v : Int) : (s.putReg r v).mrRoundsL = s.mrRoundsL := rfl
@[simp] theorem State.putReg_expWinL (r : RegIdx) (v : Int) : (s.putReg r v).expWinL = s.expWinL := rfl
@[simp] theorem State.putReg_ports (r : RegIdx) (v : Int) : (s.putReg r v).ports = s.ports := rfl
@[simp] theorem State.putReg_events (r : RegIdx) (v : Int) : (s.putReg r v).events = s.events := rfl
@[simp] theorem State.putReg_busOut (r : RegIdx) (v : Int) : (s.putReg r v).busOut = s.busOut := rfl
@[simp] theorem State.putReg_resets (r : RegIdx) (v : Int) : (s.putReg r v).resets = s.resets := rfl

/-! ### withResult -/

@[simp] theorem State.withResult_par (r : RegIdx) (v : Int) : (s.withResult r v).par = s.par := rfl
@[simp] theorem State.withResult_b (r : RegIdx) (v : Int) : (s.withResult r v).b = s.b.set r.toNat ⟨v, true⟩ r.isLt := rfl
@[simp] theorem State.withResult_k0 (r : RegIdx) (v : Int) : (s.withResult r v).k0 = s.k0 := rfl
@[simp] theorem State.withResult_k1 (r : RegIdx) (v : Int) : (s.withResult r v).k1 = s.k1 := rfl
@[simp] theorem State.withResult_buf (r : RegIdx) (v : Int) : (s.withResult r v).buf = s.buf := rfl
@[simp] theorem State.withResult_z (r : RegIdx) (v : Int) : (s.withResult r v).z = decide (v = 0) := rfl
@[simp] theorem State.withResult_n (r : RegIdx) (v : Int) : (s.withResult r v).n = decide (v < 0) := rfl
@[simp] theorem State.withResult_bFlag (r : RegIdx) (v : Int) : (s.withResult r v).bFlag = s.bFlag := rfl
@[simp] theorem State.withResult_phase (r : RegIdx) (v : Int) : (s.withResult r v).phase = s.phase := rfl
@[simp] theorem State.withResult_done (r : RegIdx) (v : Int) : (s.withResult r v).done = s.done := rfl
@[simp] theorem State.withResult_err (r : RegIdx) (v : Int) : (s.withResult r v).err = s.err := rfl
@[simp] theorem State.withResult_ovr (r : RegIdx) (v : Int) : (s.withResult r v).ovr = s.ovr := rfl
@[simp] theorem State.withResult_berr (r : RegIdx) (v : Int) : (s.withResult r v).berr = s.berr := rfl
@[simp] theorem State.withResult_mrRounds (r : RegIdx) (v : Int) : (s.withResult r v).mrRounds = s.mrRounds := rfl
@[simp] theorem State.withResult_expWin (r : RegIdx) (v : Int) : (s.withResult r v).expWin = s.expWin := rfl
@[simp] theorem State.withResult_ie (r : RegIdx) (v : Int) : (s.withResult r v).ie = s.ie := rfl
@[simp] theorem State.withResult_res (r : RegIdx) (v : Int) : (s.withResult r v).res = s.res := rfl
@[simp] theorem State.withResult_arg (r : RegIdx) (v : Int) : (s.withResult r v).arg = s.arg := rfl
@[simp] theorem State.withResult_lastCmd (r : RegIdx) (v : Int) : (s.withResult r v).lastCmd = s.lastCmd := rfl
@[simp] theorem State.withResult_cur (r : RegIdx) (v : Int) : (s.withResult r v).cur = s.cur := rfl
@[simp] theorem State.withResult_argL (r : RegIdx) (v : Int) : (s.withResult r v).argL = s.argL := rfl
@[simp] theorem State.withResult_mrRoundsL (r : RegIdx) (v : Int) : (s.withResult r v).mrRoundsL = s.mrRoundsL := rfl
@[simp] theorem State.withResult_expWinL (r : RegIdx) (v : Int) : (s.withResult r v).expWinL = s.expWinL := rfl
@[simp] theorem State.withResult_ports (r : RegIdx) (v : Int) : (s.withResult r v).ports = s.ports := rfl
@[simp] theorem State.withResult_events (r : RegIdx) (v : Int) : (s.withResult r v).events = s.events := rfl
@[simp] theorem State.withResult_busOut (r : RegIdx) (v : Int) : (s.withResult r v).busOut = s.busOut := rfl
@[simp] theorem State.withResult_resets (r : RegIdx) (v : Int) : (s.withResult r v).resets = s.resets := rfl

/-! ### memWrite -/

@[simp] theorem State.memWrite_par (off : Nat) (bs : Bytes) : (s.memWrite off bs).par = s.par := rfl
@[simp] theorem State.memWrite_b (off : Nat) (bs : Bytes) : (s.memWrite off bs).b = s.b := rfl
@[simp] theorem State.memWrite_k0 (off : Nat) (bs : Bytes) : (s.memWrite off bs).k0 = s.k0 := rfl
@[simp] theorem State.memWrite_k1 (off : Nat) (bs : Bytes) : (s.memWrite off bs).k1 = s.k1 := rfl
@[simp] theorem State.memWrite_buf (off : Nat) (bs : Bytes) : (s.memWrite off bs).buf = memWriteBytes s.buf off bs := rfl
@[simp] theorem State.memWrite_z (off : Nat) (bs : Bytes) : (s.memWrite off bs).z = s.z := rfl
@[simp] theorem State.memWrite_n (off : Nat) (bs : Bytes) : (s.memWrite off bs).n = s.n := rfl
@[simp] theorem State.memWrite_bFlag (off : Nat) (bs : Bytes) : (s.memWrite off bs).bFlag = s.bFlag := rfl
@[simp] theorem State.memWrite_phase (off : Nat) (bs : Bytes) : (s.memWrite off bs).phase = s.phase := rfl
@[simp] theorem State.memWrite_done (off : Nat) (bs : Bytes) : (s.memWrite off bs).done = s.done := rfl
@[simp] theorem State.memWrite_err (off : Nat) (bs : Bytes) : (s.memWrite off bs).err = s.err := rfl
@[simp] theorem State.memWrite_ovr (off : Nat) (bs : Bytes) : (s.memWrite off bs).ovr = s.ovr := rfl
@[simp] theorem State.memWrite_berr (off : Nat) (bs : Bytes) : (s.memWrite off bs).berr = s.berr := rfl
@[simp] theorem State.memWrite_mrRounds (off : Nat) (bs : Bytes) : (s.memWrite off bs).mrRounds = s.mrRounds := rfl
@[simp] theorem State.memWrite_expWin (off : Nat) (bs : Bytes) : (s.memWrite off bs).expWin = s.expWin := rfl
@[simp] theorem State.memWrite_ie (off : Nat) (bs : Bytes) : (s.memWrite off bs).ie = s.ie := rfl
@[simp] theorem State.memWrite_res (off : Nat) (bs : Bytes) : (s.memWrite off bs).res = s.res := rfl
@[simp] theorem State.memWrite_arg (off : Nat) (bs : Bytes) : (s.memWrite off bs).arg = s.arg := rfl
@[simp] theorem State.memWrite_lastCmd (off : Nat) (bs : Bytes) : (s.memWrite off bs).lastCmd = s.lastCmd := rfl
@[simp] theorem State.memWrite_cur (off : Nat) (bs : Bytes) : (s.memWrite off bs).cur = s.cur := rfl
@[simp] theorem State.memWrite_argL (off : Nat) (bs : Bytes) : (s.memWrite off bs).argL = s.argL := rfl
@[simp] theorem State.memWrite_mrRoundsL (off : Nat) (bs : Bytes) : (s.memWrite off bs).mrRoundsL = s.mrRoundsL := rfl
@[simp] theorem State.memWrite_expWinL (off : Nat) (bs : Bytes) : (s.memWrite off bs).expWinL = s.expWinL := rfl
@[simp] theorem State.memWrite_ports (off : Nat) (bs : Bytes) : (s.memWrite off bs).ports = s.ports := rfl
@[simp] theorem State.memWrite_events (off : Nat) (bs : Bytes) : (s.memWrite off bs).events = s.events := rfl
@[simp] theorem State.memWrite_busOut (off : Nat) (bs : Bytes) : (s.memWrite off bs).busOut = s.busOut := rfl
@[simp] theorem State.memWrite_resets (off : Nat) (bs : Bytes) : (s.memWrite off bs).resets = s.resets := rfl

/-! ### setSlot -/

@[simp] theorem State.setSlot_par (k : Slot) (v : KeySlot) : (s.setSlot k v).par = s.par := by cases k <;> rfl
@[simp] theorem State.setSlot_b (k : Slot) (v : KeySlot) : (s.setSlot k v).b = s.b := by cases k <;> rfl
@[simp] theorem State.setSlot_buf (k : Slot) (v : KeySlot) : (s.setSlot k v).buf = s.buf := by cases k <;> rfl
@[simp] theorem State.setSlot_z (k : Slot) (v : KeySlot) : (s.setSlot k v).z = s.z := by cases k <;> rfl
@[simp] theorem State.setSlot_n (k : Slot) (v : KeySlot) : (s.setSlot k v).n = s.n := by cases k <;> rfl
@[simp] theorem State.setSlot_bFlag (k : Slot) (v : KeySlot) : (s.setSlot k v).bFlag = s.bFlag := by cases k <;> rfl
@[simp] theorem State.setSlot_phase (k : Slot) (v : KeySlot) : (s.setSlot k v).phase = s.phase := by cases k <;> rfl
@[simp] theorem State.setSlot_done (k : Slot) (v : KeySlot) : (s.setSlot k v).done = s.done := by cases k <;> rfl
@[simp] theorem State.setSlot_err (k : Slot) (v : KeySlot) : (s.setSlot k v).err = s.err := by cases k <;> rfl
@[simp] theorem State.setSlot_ovr (k : Slot) (v : KeySlot) : (s.setSlot k v).ovr = s.ovr := by cases k <;> rfl
@[simp] theorem State.setSlot_berr (k : Slot) (v : KeySlot) : (s.setSlot k v).berr = s.berr := by cases k <;> rfl
@[simp] theorem State.setSlot_mrRounds (k : Slot) (v : KeySlot) : (s.setSlot k v).mrRounds = s.mrRounds := by cases k <;> rfl
@[simp] theorem State.setSlot_expWin (k : Slot) (v : KeySlot) : (s.setSlot k v).expWin = s.expWin := by cases k <;> rfl
@[simp] theorem State.setSlot_ie (k : Slot) (v : KeySlot) : (s.setSlot k v).ie = s.ie := by cases k <;> rfl
@[simp] theorem State.setSlot_res (k : Slot) (v : KeySlot) : (s.setSlot k v).res = s.res := by cases k <;> rfl
@[simp] theorem State.setSlot_arg (k : Slot) (v : KeySlot) : (s.setSlot k v).arg = s.arg := by cases k <;> rfl
@[simp] theorem State.setSlot_lastCmd (k : Slot) (v : KeySlot) : (s.setSlot k v).lastCmd = s.lastCmd := by cases k <;> rfl
@[simp] theorem State.setSlot_cur (k : Slot) (v : KeySlot) : (s.setSlot k v).cur = s.cur := by cases k <;> rfl
@[simp] theorem State.setSlot_argL (k : Slot) (v : KeySlot) : (s.setSlot k v).argL = s.argL := by cases k <;> rfl
@[simp] theorem State.setSlot_mrRoundsL (k : Slot) (v : KeySlot) : (s.setSlot k v).mrRoundsL = s.mrRoundsL := by cases k <;> rfl
@[simp] theorem State.setSlot_expWinL (k : Slot) (v : KeySlot) : (s.setSlot k v).expWinL = s.expWinL := by cases k <;> rfl
@[simp] theorem State.setSlot_ports (k : Slot) (v : KeySlot) : (s.setSlot k v).ports = s.ports := by cases k <;> rfl
@[simp] theorem State.setSlot_events (k : Slot) (v : KeySlot) : (s.setSlot k v).events = s.events := by cases k <;> rfl
@[simp] theorem State.setSlot_busOut (k : Slot) (v : KeySlot) : (s.setSlot k v).busOut = s.busOut := by cases k <;> rfl
@[simp] theorem State.setSlot_resets (k : Slot) (v : KeySlot) : (s.setSlot k v).resets = s.resets := by cases k <;> rfl

/-! ### markChecked -/

@[simp] theorem State.markChecked_par (k : Slot) : (s.markChecked k).par = s.par := by cases k <;> rfl
@[simp] theorem State.markChecked_b (k : Slot) : (s.markChecked k).b = s.b := by cases k <;> rfl
@[simp] theorem State.markChecked_buf (k : Slot) : (s.markChecked k).buf = s.buf := by cases k <;> rfl
@[simp] theorem State.markChecked_z (k : Slot) : (s.markChecked k).z = s.z := by cases k <;> rfl
@[simp] theorem State.markChecked_n (k : Slot) : (s.markChecked k).n = s.n := by cases k <;> rfl
@[simp] theorem State.markChecked_bFlag (k : Slot) : (s.markChecked k).bFlag = s.bFlag := by cases k <;> rfl
@[simp] theorem State.markChecked_phase (k : Slot) : (s.markChecked k).phase = s.phase := by cases k <;> rfl
@[simp] theorem State.markChecked_done (k : Slot) : (s.markChecked k).done = s.done := by cases k <;> rfl
@[simp] theorem State.markChecked_err (k : Slot) : (s.markChecked k).err = s.err := by cases k <;> rfl
@[simp] theorem State.markChecked_ovr (k : Slot) : (s.markChecked k).ovr = s.ovr := by cases k <;> rfl
@[simp] theorem State.markChecked_berr (k : Slot) : (s.markChecked k).berr = s.berr := by cases k <;> rfl
@[simp] theorem State.markChecked_mrRounds (k : Slot) : (s.markChecked k).mrRounds = s.mrRounds := by cases k <;> rfl
@[simp] theorem State.markChecked_expWin (k : Slot) : (s.markChecked k).expWin = s.expWin := by cases k <;> rfl
@[simp] theorem State.markChecked_ie (k : Slot) : (s.markChecked k).ie = s.ie := by cases k <;> rfl
@[simp] theorem State.markChecked_res (k : Slot) : (s.markChecked k).res = s.res := by cases k <;> rfl
@[simp] theorem State.markChecked_arg (k : Slot) : (s.markChecked k).arg = s.arg := by cases k <;> rfl
@[simp] theorem State.markChecked_lastCmd (k : Slot) : (s.markChecked k).lastCmd = s.lastCmd := by cases k <;> rfl
@[simp] theorem State.markChecked_cur (k : Slot) : (s.markChecked k).cur = s.cur := by cases k <;> rfl
@[simp] theorem State.markChecked_argL (k : Slot) : (s.markChecked k).argL = s.argL := by cases k <;> rfl
@[simp] theorem State.markChecked_mrRoundsL (k : Slot) : (s.markChecked k).mrRoundsL = s.mrRoundsL := by cases k <;> rfl
@[simp] theorem State.markChecked_expWinL (k : Slot) : (s.markChecked k).expWinL = s.expWinL := by cases k <;> rfl
@[simp] theorem State.markChecked_ports (k : Slot) : (s.markChecked k).ports = s.ports := by cases k <;> rfl
@[simp] theorem State.markChecked_events (k : Slot) : (s.markChecked k).events = s.events := by cases k <;> rfl
@[simp] theorem State.markChecked_busOut (k : Slot) : (s.markChecked k).busOut = s.busOut := by cases k <;> rfl
@[simp] theorem State.markChecked_resets (k : Slot) : (s.markChecked k).resets = s.resets := by cases k <;> rfl

end fields

section reads

variable (s : State)

@[simp] theorem State.setSlot_slot_self (k : Slot) (v : KeySlot) : (s.setSlot k v).slot k = v := by cases k <;> rfl

theorem State.setSlot_slot (k j : Slot) (v : KeySlot) :
    (s.setSlot k v).slot j = if j = k then v else s.slot j := by
  cases k <;> cases j <;> rfl

theorem State.markChecked_slot (k j : Slot) :
    (s.markChecked k).slot j = if j = k then { s.slot k with checked := true } else s.slot j :=
  s.setSlot_slot k j _

/-- Reading a register after a register was written. -/
theorem State.putReg_reg (r j : RegIdx) (v : Int) :
    (s.putReg r v).reg j = if j = r then ⟨v, true⟩ else s.reg j := by
  unfold State.reg
  simp only [State.putReg_b, Vector.getElem_set]
  by_cases h : j = r
  · simp [h]
  · rw [if_neg (fun hc => h (BitVec.eq_of_toNat_eq hc.symm)), if_neg h]

@[simp] theorem State.putReg_reg_self (r : RegIdx) (v : Int) : (s.putReg r v).reg r = ⟨v, true⟩ := by
  simp [State.putReg_reg]

theorem State.withResult_eq (r : RegIdx) (v : Int) : s.withResult r v = (s.putReg r v).flagsOf v := rfl

theorem State.withResult_reg (r j : RegIdx) (v : Int) :
    (s.withResult r v).reg j = if j = r then ⟨v, true⟩ else s.reg j :=
  s.putReg_reg r j v

/-- A completion that consumed no answer. -/
theorem State.completeWith_ports_self (e : ErrCode) : s.completeWith e s.ports = s.doneWith e := rfl

@[simp] theorem State.completeWith_reg (e : ErrCode) (p : Ports) (j : RegIdx) : (s.completeWith e p).reg j = s.reg j := rfl
@[simp] theorem State.completeWith_slot (e : ErrCode) (p : Ports) (j : Slot) : (s.completeWith e p).slot j = s.slot j := by cases j <;> rfl
@[simp] theorem State.completeWith_bufByte (e : ErrCode) (p : Ports) (j : Nat) : (s.completeWith e p).bufByte j = s.bufByte j := rfl
@[simp] theorem State.completeWith_argLatched (e : ErrCode) (p : Ports) (j : Fin 8) : (s.completeWith e p).argLatched j = s.argLatched j := rfl
@[simp] theorem State.takeError_reg (e : ErrCode) (p : Ports) (j : RegIdx) : (s.takeError e p).reg j = s.reg j := rfl
@[simp] theorem State.takeError_slot (e : ErrCode) (p : Ports) (j : Slot) : (s.takeError e p).slot j = s.slot j := by cases j <;> rfl
@[simp] theorem State.takeError_bufByte (e : ErrCode) (p : Ports) (j : Nat) : (s.takeError e p).bufByte j = s.bufByte j := rfl
@[simp] theorem State.takeError_argLatched (e : ErrCode) (p : Ports) (j : Fin 8) : (s.takeError e p).argLatched j = s.argLatched j := rfl
@[simp] theorem State.doneWith_reg (e : ErrCode) (j : RegIdx) : (s.doneWith e).reg j = s.reg j := rfl
@[simp] theorem State.doneWith_slot (e : ErrCode) (j : Slot) : (s.doneWith e).slot j = s.slot j := by cases j <;> rfl
@[simp] theorem State.doneWith_bufByte (e : ErrCode) (j : Nat) : (s.doneWith e).bufByte j = s.bufByte j := rfl
@[simp] theorem State.doneWith_argLatched (e : ErrCode) (j : Fin 8) : (s.doneWith e).argLatched j = s.argLatched j := rfl
@[simp] theorem State.clearDone_reg (j : RegIdx) : (s.clearDone).reg j = s.reg j := rfl
@[simp] theorem State.clearDone_slot (j : Slot) : (s.clearDone).slot j = s.slot j := by cases j <;> rfl
@[simp] theorem State.clearDone_bufByte (j : Nat) : (s.clearDone).bufByte j = s.bufByte j := rfl
@[simp] theorem State.clearDone_argLatched (j : Fin 8) : (s.clearDone).argLatched j = s.argLatched j := rfl
@[simp] theorem State.accept_reg (w : Word) (j : RegIdx) : (s.accept w).reg j = s.reg j := rfl
@[simp] theorem State.accept_slot (w : Word) (j : Slot) : (s.accept w).slot j = s.slot j := by cases j <;> rfl
@[simp] theorem State.accept_bufByte (w : Word) (j : Nat) : (s.accept w).bufByte j = s.bufByte j := rfl
@[simp] theorem State.flagsOf_reg (v : Int) (j : RegIdx) : (s.flagsOf v).reg j = s.reg j := rfl
@[simp] theorem State.flagsOf_slot (v : Int) (j : Slot) : (s.flagsOf v).slot j = s.slot j := by cases j <;> rfl
@[simp] theorem State.flagsOf_bufByte (v : Int) (j : Nat) : (s.flagsOf v).bufByte j = s.bufByte j := rfl
@[simp] theorem State.flagsOf_argLatched (v : Int) (j : Fin 8) : (s.flagsOf v).argLatched j = s.argLatched j := rfl
@[simp] theorem State.flagsCompare_reg (v w : Int) (j : RegIdx) : (s.flagsCompare v w).reg j = s.reg j := rfl
@[simp] theorem State.flagsCompare_slot (v w : Int) (j : Slot) : (s.flagsCompare v w).slot j = s.slot j := by cases j <;> rfl
@[simp] theorem State.flagsCompare_bufByte (v w : Int) (j : Nat) : (s.flagsCompare v w).bufByte j = s.bufByte j := rfl
@[simp] theorem State.flagsCompare_argLatched (v w : Int) (j : Fin 8) : (s.flagsCompare v w).argLatched j = s.argLatched j := rfl
@[simp] theorem State.setBFlag_reg (v : Bool) (j : RegIdx) : (s.setBFlag v).reg j = s.reg j := rfl
@[simp] theorem State.setBFlag_slot (v : Bool) (j : Slot) : (s.setBFlag v).slot j = s.slot j := by cases j <;> rfl
@[simp] theorem State.setBFlag_bufByte (v : Bool) (j : Nat) : (s.setBFlag v).bufByte j = s.bufByte j := rfl
@[simp] theorem State.setBFlag_argLatched (v : Bool) (j : Fin 8) : (s.setBFlag v).argLatched j = s.argLatched j := rfl
@[simp] theorem State.setRes_reg (v : Nat) (j : RegIdx) : (s.setRes v).reg j = s.reg j := rfl
@[simp] theorem State.setRes_slot (v : Nat) (j : Slot) : (s.setRes v).slot j = s.slot j := by cases j <;> rfl
@[simp] theorem State.setRes_bufByte (v : Nat) (j : Nat) : (s.setRes v).bufByte j = s.bufByte j := rfl
@[simp] theorem State.setRes_argLatched (v : Nat) (j : Fin 8) : (s.setRes v).argLatched j = s.argLatched j := rfl
@[simp] theorem State.putReg_slot (r : RegIdx) (v : Int) (j : Slot) : (s.putReg r v).slot j = s.slot j := by cases j <;> rfl
@[simp] theorem State.putReg_bufByte (r : RegIdx) (v : Int) (j : Nat) : (s.putReg r v).bufByte j = s.bufByte j := rfl
@[simp] theorem State.putReg_argLatched (r : RegIdx) (v : Int) (j : Fin 8) : (s.putReg r v).argLatched j = s.argLatched j := rfl
@[simp] theorem State.withResult_slot (r : RegIdx) (v : Int) (j : Slot) : (s.withResult r v).slot j = s.slot j := by cases j <;> rfl
@[simp] theorem State.withResult_bufByte (r : RegIdx) (v : Int) (j : Nat) : (s.withResult r v).bufByte j = s.bufByte j := rfl
@[simp] theorem State.withResult_argLatched (r : RegIdx) (v : Int) (j : Fin 8) : (s.withResult r v).argLatched j = s.argLatched j := rfl
@[simp] theorem State.memWrite_reg (off : Nat) (bs : Bytes) (j : RegIdx) : (s.memWrite off bs).reg j = s.reg j := rfl
@[simp] theorem State.memWrite_slot (off : Nat) (bs : Bytes) (j : Slot) : (s.memWrite off bs).slot j = s.slot j := by cases j <;> rfl
@[simp] theorem State.memWrite_argLatched (off : Nat) (bs : Bytes) (j : Fin 8) : (s.memWrite off bs).argLatched j = s.argLatched j := rfl
@[simp] theorem State.setSlot_reg (k : Slot) (v : KeySlot) (j : RegIdx) : (s.setSlot k v).reg j = s.reg j := by cases k <;> rfl
@[simp] theorem State.setSlot_bufByte (k : Slot) (v : KeySlot) (j : Nat) : (s.setSlot k v).bufByte j = s.bufByte j := by cases k <;> rfl
@[simp] theorem State.setSlot_argLatched (k : Slot) (v : KeySlot) (j : Fin 8) : (s.setSlot k v).argLatched j = s.argLatched j := by cases k <;> rfl
@[simp] theorem State.markChecked_reg (k : Slot) (j : RegIdx) : (s.markChecked k).reg j = s.reg j := by cases k <;> rfl
@[simp] theorem State.markChecked_bufByte (k : Slot) (j : Nat) : (s.markChecked k).bufByte j = s.bufByte j := by cases k <;> rfl
@[simp] theorem State.markChecked_argLatched (k : Slot) (j : Fin 8) : (s.markChecked k).argLatched j = s.argLatched j := by cases k <;> rfl

end reads

end Sys2Proof.Machine
end

