-- ==== Sys2Proof/Laws/Memory.lean ====
section
/-! SUPPORT. BUF: every memory operation keeps the canonical form, a write is read back, and every other byte reads as before. -/

namespace Sys2Proof.Machine

open Sys2Proof

/-! ### One byte -/

theorem memInsert_keys {m : List Host.Cell} {a : Nat} {v : Byte} {c : Host.Cell} (h : c ∈ memInsert m a v) :
    c = (a, v) ∨ c ∈ m := by
  induction m with
  | nil => exact .inl (by simpa [memInsert] using h)
  | cons d t ih =>
    unfold memInsert at h
    split at h
    · simpa using h
    · split at h
      · rcases List.mem_cons.1 h with h | h
        · exact .inl h
        · exact .inr (List.mem_cons_of_mem _ h)
      · rcases List.mem_cons.1 h with h | h
        · exact .inr (h ▸ List.mem_cons_self)
        · rcases ih h with h | h
          · exact .inl h
          · exact .inr (List.mem_cons_of_mem _ h)

/-- A byte write keeps the canonical form. -/
theorem memInsert_wf {m : List Host.Cell} (h : Memory.wf m) (a : Nat) (v : Byte) : Memory.wf (memInsert m a v) := by
  induction m with
  | nil => simp [memInsert, Memory.wf]
  | cons c t ih =>
    obtain ⟨hc, ht⟩ := List.pairwise_cons.1 h
    unfold memInsert
    split
    · next hlt =>
      refine List.pairwise_cons.2 ⟨?_, h⟩
      intro d hd
      rcases List.mem_cons.1 hd with rfl | hd
      · exact hlt
      · exact hlt.trans (hc d hd)
    · split
      · next heq =>
        refine List.pairwise_cons.2 ⟨?_, ht⟩
        intro d hd
        exact heq ▸ hc d hd
      · next hlt hne =>
        refine List.pairwise_cons.2 ⟨?_, ih ht⟩
        intro d hd
        rcases memInsert_keys hd with rfl | hd
        · show c.1 < a
          omega
        · exact hc d hd

/-- Reading a byte after a byte was written. -/
theorem memLookup_memInsert (m : List Host.Cell) (a j : Nat) (v : Byte) :
    memLookup (memInsert m a v) j = if j = a then some v else memLookup m j := by
  induction m with
  | nil => simp [memInsert, memLookup, eq_comm]
  | cons c t ih =>
    unfold memInsert
    split
    · simp only [memLookup, eq_comm]
    · split
      · next heq =>
        simp only [memLookup, heq]
        by_cases hj : j = c.1
        · simp [hj]
        · rw [if_neg (fun h => hj h.symm), if_neg hj, if_neg (fun h => hj h.symm)]
      · next hne =>
        simp only [memLookup, ih]
        by_cases hj : c.1 = j
        · rw [if_pos hj, if_neg (fun h => hne (by rw [← h, hj])), if_pos hj]
        · rw [if_neg hj, if_neg hj]

/-! ### A byte string -/

theorem memWriteBytes_wf {m : List Host.Cell} (h : Memory.wf m) (a : Nat) (bs : Bytes) :
    Memory.wf (memWriteBytes m a bs) := by
  induction bs generalizing m a with
  | nil => exact h
  | cons v t ih => exact ih (memInsert_wf h a v) (a + 1)

/-- Every index a string write leaves listed was listed, or is one of the string's. -/
theorem memWriteBytes_keys {m : List Host.Cell} {a : Nat} {bs : Bytes} {c : Host.Cell}
    (h : c ∈ memWriteBytes m a bs) : c ∈ m ∨ (a ≤ c.1 ∧ c.1 < a + bs.length) := by
  induction bs generalizing m a with
  | nil => exact .inl h
  | cons v t ih =>
    rcases ih (m := memInsert m a v) (a := a + 1) h with h | ⟨h1, h2⟩
    · rcases memInsert_keys h with rfl | h
      · exact .inr ⟨Nat.le_refl _, by simp⟩
      · exact .inl h
    · exact .inr ⟨by omega, by simp only [List.length_cons]; omega⟩

/-- Reading a byte after a string was written. -/
theorem memLookup_memWriteBytes (m : List Host.Cell) (a j : Nat) (bs : Bytes) :
    memLookup (memWriteBytes m a bs) j =
      if h : a ≤ j ∧ j < a + bs.length then some (bs[j - a]'(by omega)) else memLookup m j := by
  induction bs generalizing m a with
  | nil => rw [dif_neg (by simp only [List.length_nil]; omega)]; rfl
  | cons v t ih =>
    show memLookup (memWriteBytes (memInsert m a v) (a + 1) t) j = _
    rw [ih, memLookup_memInsert]
    by_cases h1 : j = a
    · subst h1
      rw [dif_neg (by omega), if_pos rfl, dif_pos (by simp)]
      simp
    · by_cases h2 : a + 1 ≤ j ∧ j < a + 1 + t.length
      · rw [dif_pos h2, dif_pos (by simp only [List.length_cons]; omega)]
        congr 1
        rw [List.getElem_cons, dif_neg (by omega)]
        rfl
      · rw [dif_neg h2, if_neg h1, dif_neg (by simp only [List.length_cons]; omega)]

/-! ### BUF as the machine reads it -/

theorem State.memWrite_bufByte (s : State) (off j : Nat) (bs : Bytes) :
    (s.memWrite off bs).bufByte j =
      if h : off ≤ j ∧ j < off + bs.length then bs[j - off]'(by omega) else s.bufByte j := by
  unfold State.bufByte
  simp only [State.memWrite_buf, State.memWrite_resets, memLookup_memWriteBytes]
  split <;> rfl

theorem State.memWrite_bufByte_outside (s : State) {off j : Nat} {bs : Bytes} (h : j < off ∨ off + bs.length ≤ j) :
    (s.memWrite off bs).bufByte j = s.bufByte j := by
  rw [State.memWrite_bufByte, dif_neg (by omega)]

@[simp] theorem State.memRead_length (s : State) (off n : Nat) : (s.memRead off n).length = n := by
  simp [State.memRead]

/-- A string read depends on the bytes it reads only. -/
theorem State.memRead_congr {s t : State} {off n : Nat} (h : ∀ j, off ≤ j → j < off + n → s.bufByte j = t.bufByte j) :
    s.memRead off n = t.memRead off n := by
  refine List.map_congr_left fun j hj => h _ (by omega) ?_
  have := List.mem_range.1 hj
  omega

/-- The state after reset has BUF in its canonical form. -/
theorem State.resetWith_wf (p : Params) : Memory.wf (State.resetWith p).buf := List.Pairwise.nil

end Sys2Proof.Machine
end

