-- ==== Sys2Proof/Laws/Bus.lean ====
section
/-! SUPPORT. What one host transaction does, by what it reaches. -/

namespace Sys2Proof.Machine

open Sys2Proof

theorem State.hostAccess_read (s : State) (w : Width) (a : BusAddr) :
    s.hostAccess (.read w a) = match s.busTarget w a.toNat with
      | none => { s with berr := true, busOut := some ⟨true, some 0#32⟩ }
      | some g => { s with busOut := some ⟨false, some (s.readTarget g)⟩ } := rfl

theorem State.hostAccess_write (s : State) (w : Width) (a : BusAddr) (d : Word) :
    s.hostAccess (.write w a d) = match s.busTarget w a.toNat with
      | none => { s with berr := true, busOut := some ⟨true, none⟩ }
      | some g => { s.writeTarget g d with busOut := some ⟨false, none⟩ } := rfl

theorem State.hostAccess_read_of_some {s : State} {w : Width} {a : BusAddr} {g : BusTarget}
    (h : s.busTarget w a.toNat = some g) :
    s.hostAccess (.read w a) = { s with busOut := some ⟨false, some (s.readTarget g)⟩ } := by
  rw [hostAccess_read, h]

theorem State.hostAccess_read_of_none {s : State} {w : Width} {a : BusAddr} (h : s.busTarget w a.toNat = none) :
    s.hostAccess (.read w a) = { s with berr := true, busOut := some ⟨true, some 0#32⟩ } := by
  rw [hostAccess_read, h]

theorem State.hostAccess_write_of_some {s : State} {w : Width} {a : BusAddr} {d : Word} {g : BusTarget}
    (h : s.busTarget w a.toNat = some g) :
    s.hostAccess (.write w a d) = { s.writeTarget g d with busOut := some ⟨false, none⟩ } := by
  rw [hostAccess_write, h]

theorem State.hostAccess_write_of_none {s : State} {w : Width} {a : BusAddr} {d : Word}
    (h : s.busTarget w a.toNat = none) :
    s.hostAccess (.write w a d) = { s with berr := true, busOut := some ⟨true, none⟩ } := by
  rw [hostAccess_write, h]

/-- What a 32-bit access to a register's address reaches, idle or busy. -/
theorem State.busTarget_reg (s : State) {a : Nat} {r : HostReg} (h : hostRegAt a = some r) (h1 : a < 0x10000)
    (h2 : a % 4 = 0) : s.busTarget .w32 a = some (.reg r) := by
  simp [State.busTarget, h1, h2, h]

/-- When an access reaches a byte of BUF. -/
theorem State.busTarget_bufByte {s : State} {w : Width} {a i : Nat} (h : s.busTarget w a = some (.bufByte i)) :
    w = .w8 ∧ s.phase = .idle ∧ a = 0x10000 + i ∧ i < s.par.bufBytes := by
  unfold State.busTarget at h
  by_cases h1 : a < 0x10000
  · rw [if_pos h1] at h
    cases w with
    | w8 => cases h
    | w32 => simp only at h; split at h <;> simp at h
  · rw [if_neg h1] at h
    cases hp : s.phase with
    | busy => rw [if_pos hp] at h; cases h
    | idle =>
      rw [if_neg (by simp [hp])] at h
      cases w with
      | w32 => simp only at h; split at h <;> simp at h
      | w8 =>
        simp only at h
        split at h
        · simp only [Option.some.injEq, BusTarget.bufByte.injEq] at h
          exact ⟨rfl, rfl, by omega, by omega⟩
        · cases h

/-- When an access reaches a word of BUF. -/
theorem State.busTarget_bufWord {s : State} {w : Width} {a i : Nat} (h : s.busTarget w a = some (.bufWord i)) :
    w = .w32 ∧ s.phase = .idle ∧ a = 0x10000 + i ∧ i % 4 = 0 ∧ i + 3 < s.par.bufBytes := by
  unfold State.busTarget at h
  by_cases h1 : a < 0x10000
  · rw [if_pos h1] at h
    cases w with
    | w8 => cases h
    | w32 => simp only at h; split at h <;> simp at h
  · rw [if_neg h1] at h
    cases hp : s.phase with
    | busy => rw [if_pos hp] at h; cases h
    | idle =>
      rw [if_neg (by simp [hp])] at h
      cases w with
      | w8 => simp only at h; split at h <;> simp at h
      | w32 =>
        simp only at h
        split at h
        · simp only [Option.some.injEq, BusTarget.bufWord.injEq] at h
          exact ⟨rfl, rfl, by omega, by omega, by omega⟩
        · cases h

/-- A register write changes what the host owns: CFG, the arguments, the command's acceptance, the bits of STATUS
the host clears. -/
theorem State.writeHostReg_frame (s : State) (r : HostReg) (d : Word) :
    (s.writeHostReg r d).par = s.par ∧ (s.writeHostReg r d).b = s.b ∧ (s.writeHostReg r d).k0 = s.k0 ∧
    (s.writeHostReg r d).k1 = s.k1 ∧ (s.writeHostReg r d).buf = s.buf ∧ (s.writeHostReg r d).z = s.z ∧
    (s.writeHostReg r d).n = s.n ∧ (s.writeHostReg r d).bFlag = s.bFlag ∧ (s.writeHostReg r d).err = s.err ∧
    (s.writeHostReg r d).res = s.res ∧ (s.writeHostReg r d).ports = s.ports ∧
    (s.writeHostReg r d).events = s.events ∧ (s.writeHostReg r d).resets = s.resets := by
  cases r <;> try exact ⟨rfl, rfl, rfl, rfl, rfl, rfl, rfl, rfl, rfl, rfl, rfl, rfl, rfl⟩
  · simp only [State.writeHostReg, State.writeCmd]
    split <;> exact ⟨rfl, rfl, rfl, rfl, rfl, rfl, rfl, rfl, rfl, rfl, rfl, rfl, rfl⟩
  · simp only [State.writeHostReg, State.writeStatus]
    split <;> exact ⟨rfl, rfl, rfl, rfl, rfl, rfl, rfl, rfl, rfl, rfl, rfl, rfl, rfl⟩

/-- A host access changes no big register, key slot, flag, code, result or answer. -/
theorem State.hostAccess_frame (s : State) (t : Txn) :
    (s.hostAccess t).par = s.par ∧ (s.hostAccess t).b = s.b ∧ (s.hostAccess t).k0 = s.k0 ∧
    (s.hostAccess t).k1 = s.k1 ∧ (s.hostAccess t).z = s.z ∧ (s.hostAccess t).n = s.n ∧
    (s.hostAccess t).bFlag = s.bFlag ∧ (s.hostAccess t).err = s.err ∧ (s.hostAccess t).res = s.res ∧
    (s.hostAccess t).ports = s.ports ∧ (s.hostAccess t).events = s.events ∧ (s.hostAccess t).resets = s.resets := by
  cases t with
  | read w a =>
    rw [hostAccess_read]
    split <;> exact ⟨rfl, rfl, rfl, rfl, rfl, rfl, rfl, rfl, rfl, rfl, rfl, rfl⟩
  | write w a d =>
    rw [hostAccess_write]
    split
    · exact ⟨rfl, rfl, rfl, rfl, rfl, rfl, rfl, rfl, rfl, rfl, rfl, rfl⟩
    · next g _ =>
      cases g with
      | bufByte i => exact ⟨rfl, rfl, rfl, rfl, rfl, rfl, rfl, rfl, rfl, rfl, rfl, rfl⟩
      | bufWord i => exact ⟨rfl, rfl, rfl, rfl, rfl, rfl, rfl, rfl, rfl, rfl, rfl, rfl⟩
      | reg r =>
        obtain ⟨h1, h2, h3, h4, _, h6, h7, h8, h9, h10, h11, h12, h13⟩ := s.writeHostReg_frame r d
        exact ⟨h1, h2, h3, h4, h6, h7, h8, h9, h10, h11, h12, h13⟩

/-- A host access keeps BUF's list in its canonical form. -/
theorem State.hostAccess_wf {s : State} (h : Memory.wf s.buf) (t : Txn) : Memory.wf (s.hostAccess t).buf := by
  cases t with
  | read w a =>
    rw [hostAccess_read]
    split <;> exact h
  | write w a d =>
    rw [hostAccess_write]
    split
    · exact h
    · next g _ =>
      cases g with
      | bufByte i => exact memWriteBytes_wf h i _
      | bufWord i => exact memWriteBytes_wf h i _
      | reg r =>
        show Memory.wf (s.writeHostReg r d).buf
        rw [(s.writeHostReg_frame r d).2.2.2.2.1]
        exact h

end Sys2Proof.Machine
end

