-- ==== Sys2Proof/Laws/Decode.lean ====
section
/-! SUPPORT. The fields of a word built from its fields, a word as the word of its fields, and masks field by field. -/

namespace Sys2Proof

section
variable (op : BitVec 6) (rd rs1 rs2 rs3 hid : BitVec 4) (ks sh : BitVec 1) (imm : BitVec 22)

@[simp] theorem opOf_wordR : opOf (wordR op rd rs1 rs2 rs3 hid ks sh) = op := by
  refine BitVec.eq_of_getLsbD_eq fun i hi => ?_
  simp only [opOf, wordR, BitVec.getLsbD_extractLsb', BitVec.getLsbD_append]
  interval_cases i <;> simp

@[simp] theorem rdOf_wordR : rdOf (wordR op rd rs1 rs2 rs3 hid ks sh) = rd := by
  refine BitVec.eq_of_getLsbD_eq fun i hi => ?_
  simp only [rdOf, wordR, BitVec.getLsbD_extractLsb', BitVec.getLsbD_append]
  interval_cases i <;> simp

@[simp] theorem rs1Of_wordR : rs1Of (wordR op rd rs1 rs2 rs3 hid ks sh) = rs1 := by
  refine BitVec.eq_of_getLsbD_eq fun i hi => ?_
  simp only [rs1Of, wordR, BitVec.getLsbD_extractLsb', BitVec.getLsbD_append]
  interval_cases i <;> simp

@[simp] theorem rs2Of_wordR : rs2Of (wordR op rd rs1 rs2 rs3 hid ks sh) = rs2 := by
  refine BitVec.eq_of_getLsbD_eq fun i hi => ?_
  simp only [rs2Of, wordR, BitVec.getLsbD_extractLsb', BitVec.getLsbD_append]
  interval_cases i <;> simp

@[simp] theorem rs3Of_wordR : rs3Of (wordR op rd rs1 rs2 rs3 hid ks sh) = rs3 := by
  refine BitVec.eq_of_getLsbD_eq fun i hi => ?_
  simp only [rs3Of, wordR, BitVec.getLsbD_extractLsb', BitVec.getLsbD_append]
  interval_cases i <;> simp

@[simp] theorem hidOf_wordR : hidOf (wordR op rd rs1 rs2 rs3 hid ks sh) = hid := by
  refine BitVec.eq_of_getLsbD_eq fun i hi => ?_
  simp only [hidOf, wordR, BitVec.getLsbD_extractLsb', BitVec.getLsbD_append]
  interval_cases i <;> simp

@[simp] theorem ksBit_wordR : ksBit (wordR op rd rs1 rs2 rs3 hid ks sh) = ks := by
  refine BitVec.eq_of_getLsbD_eq fun i hi => ?_
  simp only [ksBit, wordR, BitVec.getLsbD_extractLsb', BitVec.getLsbD_append]
  interval_cases i ; simp

@[simp] theorem shBit_wordR : shBit (wordR op rd rs1 rs2 rs3 hid ks sh) = sh := by
  refine BitVec.eq_of_getLsbD_eq fun i hi => ?_
  simp only [shBit, wordR, BitVec.getLsbD_extractLsb', BitVec.getLsbD_append]
  interval_cases i ; simp

@[simp] theorem opOf_wordI : opOf (wordI op rd imm) = op := by
  refine BitVec.eq_of_getLsbD_eq fun i hi => ?_
  simp only [opOf, wordI, BitVec.getLsbD_extractLsb', BitVec.getLsbD_append]
  interval_cases i <;> simp

@[simp] theorem rdOf_wordI : rdOf (wordI op rd imm) = rd := by
  refine BitVec.eq_of_getLsbD_eq fun i hi => ?_
  simp only [rdOf, wordI, BitVec.getLsbD_extractLsb', BitVec.getLsbD_append]
  interval_cases i <;> simp

@[simp] theorem immOf_wordI : immOf (wordI op rd imm) = imm := by
  refine BitVec.eq_of_getLsbD_eq fun i hi => ?_
  simp only [immOf, wordI, BitVec.getLsbD_extractLsb', BitVec.getLsbD_append]
  simp [hi]

end

/-- RSV, bits 3:0 of a format R word (30_encoding.md R91). -/
def rsvOf (w : Word) : BitVec 4 := w.extractLsb' 0 4

/-- A word is the word of its format R fields when RSV is 0. -/
theorem word_eq_wordR {w : Word} (h : rsvOf w = 0#4) :
    w = wordR (opOf w) (rdOf w) (rs1Of w) (rs2Of w) (rs3Of w) (hidOf w) (ksBit w) (shBit w) := by
  unfold wordR
  rw [← h]
  refine BitVec.eq_of_getLsbD_eq fun i hi => ?_
  simp only [rsvOf, opOf, rdOf, rs1Of, rs2Of, rs3Of, hidOf, ksBit, shBit, BitVec.getLsbD_extractLsb', BitVec.getLsbD_append]
  interval_cases i <;> simp

/-- A word is the word of its format I fields. -/
theorem word_eq_wordI (w : Word) : w = wordI (opOf w) (rdOf w) (immOf w) := by
  unfold wordI
  refine BitVec.eq_of_getLsbD_eq fun i hi => ?_
  simp only [opOf, rdOf, immOf, BitVec.getLsbD_extractLsb', BitVec.getLsbD_append]
  interval_cases i <;> simp

/-- The mask of a row, field by field (30_encoding.md R94). -/
def maskR (rd rs1 rs2 rs3 hid : BitVec 4) (ks sh : BitVec 1) : Word :=
  0x3F#6 ++ rd ++ rs1 ++ rs2 ++ rs3 ++ hid ++ ks ++ sh ++ 0xF#4

/-- A word under a mask. -/
theorem wordR_and_maskR (op : BitVec 6) (rd rs1 rs2 rs3 hid rd' rs1' rs2' rs3' hid' : BitVec 4) (ks sh ks' sh' : BitVec 1) :
    wordR op rd rs1 rs2 rs3 hid ks sh &&& maskR rd' rs1' rs2' rs3' hid' ks' sh' =
      wordR op (rd &&& rd') (rs1 &&& rs1') (rs2 &&& rs2') (rs3 &&& rs3') (hid &&& hid') (ks &&& ks') (sh &&& sh') := by
  refine BitVec.eq_of_getLsbD_eq fun i hi => ?_
  simp only [wordR, maskR, BitVec.getLsbD_and, BitVec.getLsbD_append]
  interval_cases i <;> simp

/-- The fields of a word that meets a mask and match: each masked field is the match's. -/
theorem fields_of_and_maskR {w : Word} {op : BitVec 6} {rd rs1 rs2 rs3 hid rd' rs1' rs2' rs3' hid' : BitVec 4}
    {ks sh ks' sh' : BitVec 1}
    (h : w &&& maskR rd' rs1' rs2' rs3' hid' ks' sh' = wordR op rd rs1 rs2 rs3 hid ks sh) :
    opOf w = op ∧ rdOf w &&& rd' = rd ∧ rs1Of w &&& rs1' = rs1 ∧ rs2Of w &&& rs2' = rs2 ∧ rs3Of w &&& rs3' = rs3 ∧
      hidOf w &&& hid' = hid ∧ ksBit w &&& ks' = ks ∧ shBit w &&& sh' = sh ∧ rsvOf w = 0#4 := by
  have hm : w &&& maskR rd' rs1' rs2' rs3' hid' ks' sh' =
      (opOf w ++ (rdOf w &&& rd') ++ (rs1Of w &&& rs1') ++ (rs2Of w &&& rs2') ++ (rs3Of w &&& rs3') ++
        (hidOf w &&& hid') ++ (ksBit w &&& ks') ++ (shBit w &&& sh') ++ rsvOf w : Word) := by
    refine BitVec.eq_of_getLsbD_eq fun i hi => ?_
    simp only [maskR, rsvOf, opOf, rdOf, rs1Of, rs2Of, rs3Of, hidOf, ksBit, shBit, BitVec.getLsbD_extractLsb',
      BitVec.getLsbD_append, BitVec.getLsbD_and]
    interval_cases i <;> simp
  rw [hm] at h
  unfold wordR at h
  have split : ∀ {n m : Nat} {a b : BitVec n} {c d : BitVec m}, a ++ c = b ++ d → a = b ∧ c = d := by
    intro n m a b c d h
    refine ⟨?_, ?_⟩
    · refine BitVec.eq_of_getLsbD_eq fun i hi => ?_
      have := congrArg (fun v => v.getLsbD (m + i)) h
      simpa [BitVec.getLsbD_append] using this
    · refine BitVec.eq_of_getLsbD_eq fun i hi => ?_
      have := congrArg (fun v => v.getLsbD i) h
      simpa [BitVec.getLsbD_append, hi] using this
  obtain ⟨h, h9⟩ := split h
  obtain ⟨h, h8⟩ := split h
  obtain ⟨h, h7⟩ := split h
  obtain ⟨h, h6⟩ := split h
  obtain ⟨h, h5⟩ := split h
  obtain ⟨h, h4⟩ := split h
  obtain ⟨h, h3⟩ := split h
  obtain ⟨h1, h2⟩ := split h
  exact ⟨h1, h2, h3, h4, h5, h6, h7, h8, h9⟩

@[simp] theorem slotOfBit_bitOfSlot (k : Slot) : slotOfBit (bitOfSlot k) = k := by cases k <;> rfl

@[simp] theorem bitOfSlot_slotOfBit (b : BitVec 1) : bitOfSlot (slotOfBit b) = b := by
  revert b
  decide

@[simp] theorem compOfBits_bitsOfComp (c : Comp) : compOfBits (bitsOfComp c) = some c := by cases c <;> rfl

theorem compOfBits_eq_some {v : BitVec 4} {c : Comp} (h : compOfBits v = some c) : bitsOfComp c = v := by
  revert v c
  decide

theorem compOfBits_eq_none {v : BitVec 4} : compOfBits v = none ↔ 4 < v.toNat := by
  revert v
  decide

theorem bitOfSh_beq (b : BitVec 1) : bitOfSh (b == 1#1) = b := by
  revert b
  decide

theorem beq_bitOfSh (sh : Bool) : (bitOfSh sh == 1#1) = sh := by cases sh <;> rfl

end Sys2Proof
end

