-- ==== Sys2Proof/Laws/Numbers.lean ====
section
/-! SUPPORT. The integer and byte-string procedures of the pseudocode: lengths, values, modular powers, Euclid's invariants. -/

namespace Sys2Proof.Machine

open Sys2Proof

/-! ### Bit lengths -/

theorem lt_two_pow_bitlen (a : Nat) : a < 2 ^ bitlen a := by
  unfold bitlen
  split
  · simp_all
  · exact Nat.lt_log2_self

theorem bitlen_le {a m : Nat} (h : a < 2 ^ m) : bitlen a ≤ m := by
  unfold bitlen
  split
  · omega
  · next h0 => exact (Nat.log2_lt h0).2 h

theorem two_pow_bitlen_le {a : Nat} (h : a ≠ 0) : 2 ^ (bitlen a - 1) ≤ a := by
  unfold bitlen
  rw [if_neg h, Nat.add_sub_cancel]
  exact Nat.log2_self_le h

/-! ### Byte strings -/

theorem i2ospOnto_eq (l x : Nat) (acc : Bytes) : i2ospOnto l x acc = i2ospOnto l x [] ++ acc := by
  induction l generalizing x acc with
  | zero => rfl
  | succ l ih =>
    unfold i2ospOnto
    rw [ih, ih (x / 256) [_]]
    simp

theorem i2osp_succ (x l : Nat) : i2osp x (l + 1) = i2osp (x / 256) l ++ [BitVec.ofNat 8 (x % 256)] := by
  unfold i2osp
  rw [i2ospOnto, i2ospOnto_eq]

@[simp] theorem i2osp_length (x l : Nat) : (i2osp x l).length = l := by
  induction l generalizing x with
  | zero => rfl
  | succ l ih => rw [i2osp_succ, List.length_append, ih, List.length_singleton]

theorem os2ipFrom_eq (acc : Nat) (bs : Bytes) : os2ipFrom acc bs = acc * 256 ^ bs.length + os2ip bs := by
  unfold os2ip
  induction bs generalizing acc with
  | nil => simp [os2ipFrom]
  | cons v t ih =>
    rw [os2ipFrom, os2ipFrom, ih, ih (0 * 256 + v.toNat), List.length_cons, pow_succ]
    ring

theorem os2ip_cons (v : Byte) (t : Bytes) : os2ip (v :: t) = v.toNat * 256 ^ t.length + os2ip t := by
  rw [os2ip, os2ipFrom, os2ipFrom_eq, Nat.zero_mul, Nat.zero_add]

theorem os2ip_append (a b : Bytes) : os2ip (a ++ b) = os2ip a * 256 ^ b.length + os2ip b := by
  induction a with
  | nil => simp [os2ip, os2ipFrom]
  | cons v t ih =>
    rw [List.cons_append, os2ip_cons, os2ip_cons, ih, List.length_append, pow_add]
    ring

theorem os2ip_lt (bs : Bytes) : os2ip bs < 256 ^ bs.length := by
  induction bs with
  | nil => simp [os2ip, os2ipFrom]
  | cons v t ih =>
    rw [os2ip_cons, List.length_cons, pow_succ]
    have h : v.toNat < 256 := v.isLt
    calc v.toNat * 256 ^ t.length + os2ip t < v.toNat * 256 ^ t.length + 256 ^ t.length := by omega
      _ = (v.toNat + 1) * 256 ^ t.length := by ring
      _ ≤ 256 * 256 ^ t.length := Nat.mul_le_mul_right _ h
      _ = 256 ^ t.length * 256 := Nat.mul_comm _ _

theorem os2ip_i2osp_mod (x l : Nat) : os2ip (i2osp x l) = x % 256 ^ l := by
  induction l generalizing x with
  | zero => simp [i2osp, i2ospOnto, os2ip, os2ipFrom, Nat.mod_one]
  | succ l ih =>
    rw [i2osp_succ, os2ip_append, ih, os2ip_cons, List.length_singleton, pow_one, List.length_nil, pow_zero, Nat.mul_one,
      pow_succ', Nat.mod_mul]
    simp only [BitVec.toNat_ofNat, Nat.reducePow, Nat.mod_mod, os2ip, os2ipFrom]
    ring

theorem i2osp_os2ip (bs : Bytes) : i2osp (os2ip bs) bs.length = bs := by
  induction bs using List.reverseRecOn with
  | nil => rfl
  | append_singleton t v ih =>
    have h : v.toNat < 256 := v.isLt
    rw [List.length_append, List.length_singleton, i2osp_succ, os2ip_append, List.length_singleton, pow_one]
    have h1 : os2ip [v] = v.toNat := by simp [os2ip, os2ipFrom]
    rw [h1, show (os2ip t * 256 + v.toNat) / 256 = os2ip t by omega, ih,
      show (os2ip t * 256 + v.toNat) % 256 = v.toNat by omega]
    simp

theorem lt_256_pow_ceil8 {x l : Nat} (h : x < 2 ^ l) : x < 256 ^ ceil8 l := by
  have : (256 : Nat) ^ ceil8 l = 2 ^ (8 * ceil8 l) := by rw [pow_mul]; norm_num
  rw [this]
  exact h.trans_le (Nat.pow_le_pow_right (by norm_num) (by unfold ceil8; omega))

theorem xorBytes_length (a b : Bytes) : (xorBytes a b).length = min a.length b.length := by
  simp [xorBytes]

/-! ### Digests -/

@[simp] theorem hashFn_length (h : HashId) (m : Bytes) : (hashFn h m).length = hLen h := by
  simp [hashFn, zeros]

theorem mgf1Blocks_length (h : HashId) (z : Bytes) (c k : Nat) : (mgf1Blocks h z c k).length = k * hLen h := by
  induction k generalizing c with
  | zero => simp [mgf1Blocks]
  | succ k ih => rw [mgf1Blocks, List.length_append, hashFn_length, ih]; ring

theorem mgf1Fn_length {h : HashId} (hl : 0 < hLen h) (z : Bytes) (l : Nat) : (mgf1Fn h z l).length = l := by
  unfold mgf1Fn mgf1Requests
  rw [List.length_take, mgf1Blocks_length]
  have h1 := Nat.div_add_mod (l + hLen h - 1) (hLen h)
  have h2 := Nat.mod_lt (l + hLen h - 1) hl
  rw [Nat.mul_comm]
  generalize (l + hLen h - 1) / hLen h = k at *
  omega

theorem hLen_pos_of_supported {s : State} {h : HashId} (hs : s.hashSupported h = true) : 0 < hLen h := by
  unfold State.hashSupported at hs
  unfold hLen
  split at hs <;> simp_all

/-- A decoded message is at most as long as the capacity. -/
theorem oaepDecode_length {h : HashId} {k : Nat} {em m : Bytes} (he : em.length = k) (hd : oaepDecode h k em = some m) :
    m.length ≤ (oaepCapacity k h).toNat := by
  have hz : ∀ bs, (skipZeros bs).length ≤ bs.length := by
    intro bs
    induction bs with
    | nil => exact Nat.le_refl _
    | cons v t ih =>
      unfold skipZeros
      split
      · exact ih.trans (by simp)
      · exact Nat.le_refl _
  unfold oaepDecode at hd
  simp only at hd
  split at hd
  · cases hd
    rw [List.length_tail]
    have h1 := hz ((xorBytes (em.drop (hLen h + 1))
      (mgf1Fn h (xorBytes ((em.drop 1).take (hLen h)) (mgf1Fn h (em.drop (hLen h + 1)) (hLen h)))
        (k - hLen h - 1))).drop (hLen h))
    have h2 : ((xorBytes (em.drop (hLen h + 1))
      (mgf1Fn h (xorBytes ((em.drop 1).take (hLen h)) (mgf1Fn h (em.drop (hLen h + 1)) (hLen h)))
        (k - hLen h - 1))).drop (hLen h)).length ≤ k - (hLen h + 1) - hLen h := by
      rw [List.length_drop, xorBytes_length, List.length_drop, he]
      omega
    unfold oaepCapacity
    omega
  · cases hd

/-! ### Modular powers -/

theorem powModBits_eq (m : Nat) (fuel b e : Nat) (h : e < 2 ^ fuel) : powModBits m fuel b e = b ^ e % m := by
  induction fuel generalizing b e with
  | zero =>
    have : e = 0 := by simpa using h
    subst this
    simp [powModBits]
  | succ fuel ih =>
    have he : e / 2 < 2 ^ fuel := by rw [pow_succ] at h; omega
    unfold powModBits
    rw [ih _ _ he, ← Nat.pow_mod, ← pow_two, ← pow_mul]
    simp only
    split
    · next h1 =>
      rw [Nat.mul_mod, Nat.mod_mod, ← Nat.mul_mod, ← pow_succ']
      congr 2
      omega
    · next h1 =>
      congr 2
      omega

theorem powMod_eq (b e m : Nat) : powMod b e m = b ^ e % m := powModBits_eq m _ b e (lt_two_pow_bitlen e)

theorem powModInt_eq {b e m : Int} (_he : 0 ≤ e) (hm : 0 < m) : powModInt b e m = b ^ e.toNat % m := by
  obtain ⟨m, rfl⟩ := Int.eq_ofNat_of_zero_le hm.le
  have hb : 0 ≤ b % (m : Int) := Int.emod_nonneg _ hm.ne'
  unfold powModInt
  rw [powMod_eq]
  simp only [Int.toNat_natCast, Int.ofNat_eq_natCast, Int.natCast_emod, Int.natCast_pow, Int.toNat_of_nonneg hb]
  exact (Int.ModEq.pow _ (Int.mod_modEq b m) :)

/-! ### Euclid -/

/-- The loop keeps both combinations and ends with the gcd. -/
theorem euclidLoop_spec (a b : Int) (fuel r0 r1 : Nat) (s0 s1 t0 t1 : Int) (hf : r1 < fuel)
    (h0 : a * s0 + b * t0 = r0) (h1 : a * s1 + b * t1 = r1) :
    (euclidLoop fuel r0 r1 s0 s1 t0 t1).1 = Nat.gcd r0 r1 ∧
      a * (euclidLoop fuel r0 r1 s0 s1 t0 t1).2.1 + b * (euclidLoop fuel r0 r1 s0 s1 t0 t1).2.2 = Nat.gcd r0 r1 := by
  induction fuel generalizing r0 r1 s0 s1 t0 t1 with
  | zero => omega
  | succ fuel ih =>
    unfold euclidLoop
    split
    · next hr => subst hr; simpa using h0
    · next hr =>
      have hm : r0 - r0 / r1 * r1 = r0 % r1 := by
        have := Nat.div_add_mod r0 r1
        rw [Nat.mul_comm] at this
        omega
      have hlt : r0 % r1 < r1 := Nat.mod_lt _ (Nat.pos_of_ne_zero hr)
      have hg : Nat.gcd r1 (r0 % r1) = Nat.gcd r0 r1 := by rw [Nat.gcd_comm r1, ← Nat.gcd_rec, Nat.gcd_comm]
      simp only [hm]
      rw [← hg]
      refine ih r1 (r0 % r1) s1 _ t1 _ (by omega) h1 ?_
      have hd : (r0 : Int) = (r0 / r1 : Nat) * r1 + (r0 % r1 : Nat) := by
        exact_mod_cast (by rw [Nat.mul_comm]; exact (Nat.div_add_mod r0 r1).symm)
      linear_combination h0 - ((r0 / r1 : Nat) : Int) * h1 + hd

theorem extEuclid_spec (a b : Int) :
    (extEuclid a b).1 = Int.gcd a b ∧ a * (extEuclid a b).2.1 + b * (extEuclid a b).2.2 = Int.gcd a b := by
  have h := euclidLoop_spec a.natAbs b.natAbs (b.natAbs + 1) a.natAbs b.natAbs 1 0 0 1 (Nat.lt_succ_self _) (by simp)
    (by simp)
  have hs : ∀ x : Int, x * signFactor x = x.natAbs := by
    intro x
    unfold signFactor
    split <;> omega
  unfold extEuclid
  refine ⟨h.1, ?_⟩
  simp only
  rw [← mul_assoc, ← mul_assoc, hs, hs]
  exact h.2

end Sys2Proof.Machine
end

