-- ==== Sys2Proof/Laws/Key.lean ====
section
/-! SUPPORT. The key access procedures: when they let a command go on, what they leave, and that they do nothing else; with which error a key that is not valid, or a draw of its validation that fails, ends. -/

namespace Sys2Proof.Machine

open Sys2Proof

theorem State.markChecked_of_checked {s : State} {k : Slot} (h : (s.slot k).checked = true) : s.markChecked k = s := by
  unfold State.markChecked
  have : { s.slot k with checked := true } = s.slot k := by
    cases hk : s.slot k
    simp_all
  rw [this]
  cases k <;> rfl

/-- The private clauses hold exactly in the cases of R203. -/
theorem validatePrivate_eq_ok {s : State} {ks : KeySlot} {p q : Ports} {u : Unit} :
    validatePrivate s ks p = .ok u q ↔
      (ks.priv = false ∧ p = q) ∨
      (ks.priv = true ∧ ks.p.val * ks.q.val = ks.n.val ∧
        (∃ r, millerRabin s.par.retryLimit s.mrRoundsL.toNat ks.p.val p = .ok true r ∧
          millerRabin s.par.retryLimit s.mrRoundsL.toNat ks.q.val r = .ok true q) ∧
        Nat.gcd ks.e.val ks.lambda = 1 ∧ ((ks.lambda : Nat) : Int) ∣ (ks.e.val : Int) * ks.d.val - 1) := by
  unfold validatePrivate
  cases ks.priv with
  | false => simp
  | true =>
    simp only [if_true, bind_eq_ok, raiseIf_eq_ok, Int.dvd_iff_emod_eq_zero]
    constructor
    · rintro ⟨_, _, ⟨h1, rfl⟩, bp, r1, hp, _, _, ⟨hbp, rfl⟩, bq, r2, hq, _, _, ⟨hbq, rfl⟩, _, _, ⟨h2, rfl⟩, h3, rfl⟩
      have hp' : bp = true := by simpa using hbp
      have hq' : bq = true := by simpa using hbq
      subst hp' hq'
      exact .inr ⟨trivial, not_not.1 h1, ⟨_, hp, hq⟩, not_not.1 h2, not_not.1 h3⟩
    · rintro (⟨h, _⟩ | ⟨_, h1, ⟨r, hp, hq⟩, h2, h3⟩)
      · cases h
      · exact ⟨(), _, ⟨not_not.2 h1, rfl⟩, true, r, hp, (), r, ⟨by simp, rfl⟩, true, q, hq, (), q, ⟨by simp, rfl⟩, (), q,
          ⟨not_not.2 h2, rfl⟩, not_not.2 h3, rfl⟩

/-- A validation that does not raise leaves the state with the slot CHECKED, and nothing else. -/
theorem validate_eq_ok {s t : State} {k : Slot} {p q : Ports} (h : validate s k p = .ok t q) :
    t = s.markChecked k ∧ ((s.slot k).checked = false → 2 ≤ (s.slot k).n.val ∧ 1 ≤ (s.slot k).e.val) := by
  unfold validate at h
  split at h
  · next hc =>
    simp only [pure_apply, EStateM.Result.ok.injEq] at h
    exact ⟨h.1 ▸ (State.markChecked_of_checked hc).symm, fun hf => by simp [hc] at hf⟩
  · obtain ⟨_, _, h1, h⟩ := bind_eq_ok.1 h
    obtain ⟨_, _, _, h⟩ := bind_eq_ok.1 h
    simp only [pure_apply, EStateM.Result.ok.injEq] at h
    rw [raiseIf_eq_ok] at h1
    exact ⟨h.1.symm, fun _ => by omega⟩

theorem keyForPublic_eq_ok {s t : State} {k : Slot} {p q : Ports} (h : keyForPublic s k p = .ok t q) :
    (s.slot k).hasPublic = true ∧ validate s k p = .ok t q := by
  obtain ⟨_, _, h1, h⟩ := bind_eq_ok.1 h
  obtain ⟨h1, rfl⟩ := raiseIf_eq_ok.1 h1
  exact ⟨by simpa using h1, h⟩

theorem keyForPrivate_eq_ok {s t : State} {k : Slot} {p q : Ports} (h : keyForPrivate s k p = .ok t q) :
    (s.slot k).priv = true ∧ (s.slot k).hasPublic = true ∧ validate s k p = .ok t q := by
  obtain ⟨_, _, h1, h⟩ := bind_eq_ok.1 h
  obtain ⟨h1, rfl⟩ := raiseIf_eq_ok.1 h1
  obtain ⟨_, _, h2, h⟩ := bind_eq_ok.1 h
  obtain ⟨h2, rfl⟩ := raiseIf_eq_ok.1 h2
  exact ⟨by simpa using h1, by simpa using h2, h⟩

/-- A slot that may be used validates. -/
theorem validate_of_usable {s : State} {k : Slot} {p q : Ports} (h : KeyUsable s k p q) :
    validate s k p = .ok (s.markChecked k) q := by
  obtain ⟨_, ⟨hc, rfl⟩ | ⟨hc, ⟨_, _, hn, he⟩, hp, rfl⟩ | ⟨hc, ⟨_, _, hn, he⟩, hp, h1, h2, h3, h4⟩⟩ := h
  · rw [State.markChecked_of_checked hc]
    unfold validate
    rw [if_pos hc]
    rfl
  · unfold validate
    rw [if_neg (by simp [hc]), bind_of_ok (a := ()) (q := p) (raiseIf_eq_ok.2 ⟨by omega, rfl⟩),
      bind_of_ok (a := ()) (q := p) (validatePrivate_eq_ok.2 (.inl ⟨hp, rfl⟩))]
    rfl
  · unfold validate
    rw [if_neg (by simp [hc]), bind_of_ok (a := ()) (q := p) (raiseIf_eq_ok.2 ⟨by omega, rfl⟩),
      bind_of_ok (a := ()) (q := q) (validatePrivate_eq_ok.2 (.inr ⟨hp, h1, h2, h3, h4⟩))]
    rfl

theorem keyForPublic_of_usable {s : State} {k : Slot} {p q : Ports} (h : KeyUsable s k p q) :
    keyForPublic s k p = .ok (s.markChecked k) q := by
  unfold keyForPublic
  rw [bind_of_ok (a := ()) (q := p) (raiseIf_eq_ok.2 ⟨by simp [h.1], rfl⟩), validate_of_usable h]

theorem keyForPrivate_of_usable {s : State} {k : Slot} {p q : Ports} (h : KeyUsable s k p q)
    (hp : (s.slot k).priv = true) : keyForPrivate s k p = .ok (s.markChecked k) q := by
  unfold keyForPrivate
  rw [bind_of_ok (a := ()) (q := p) (raiseIf_eq_ok.2 ⟨by simp [hp], rfl⟩),
    bind_of_ok (a := ()) (q := p) (raiseIf_eq_ok.2 ⟨by simp [h.1], rfl⟩), validate_of_usable h]

/-! ### Failing draws and keys that are not valid -/

/-- Bases that pass are rounds done. -/
theorem millerRabinRounds_of_pass {limit n : Nat} {xs : List Nat} {p q : Ports} (hn : 5 ≤ n)
    (h : BasesPass limit n xs p q) (r : Nat) :
    millerRabinRounds limit (r + xs.length) n p = millerRabinRounds limit r n q := by
  induction xs generalizing p with
  | nil => rw [show q = p from h, List.length_nil, Nat.add_zero]
  | cons x xs ih =>
    obtain ⟨hx, t, ht, h⟩ := h
    rw [List.length_cons, ← Nat.add_assoc, millerRabinRounds, bind_of_ok (randBelow_of_gives (by omega) ht), if_pos hx, ih h]

/-- Past the answers for small and even n, MillerRabin is its rounds. -/
theorem millerRabin_odd {n : Int} (hn : 5 ≤ n) (ho : n % 2 = 1) (limit rounds : Nat) :
    millerRabin limit rounds n = millerRabinRounds limit rounds n.toNat := by
  unfold millerRabin
  rw [if_neg (by omega), if_neg (by omega), if_neg (by omega)]

theorem millerRabin_of_pass {limit : Nat} {n : Int} {xs : List Nat} {p q : Ports} (hn : 5 ≤ n) (ho : n % 2 = 1)
    (h : BasesPass limit n.toNat xs p q) : millerRabin limit xs.length n p = .ok true q := by
  have := millerRabinRounds_of_pass (by omega) h 0
  rw [Nat.zero_add] at this
  rw [millerRabin_odd hn ho, this]
  rfl

theorem millerRabin_of_witness {limit rounds x : Nat} {n : Int} {xs : List Nat} {p q r : Ports} (hn : 5 ≤ n)
    (ho : n % 2 = 1) (h : BasesPass limit n.toNat xs p r) (hr : xs.length < rounds)
    (hx : RandBelowGives limit (n.toNat - 3) r x q) (hw : strongProbe n.toNat (2 + x) = false) :
    millerRabin limit rounds n p = .ok false q := by
  obtain ⟨k, rfl⟩ := Nat.exists_eq_add_of_lt hr
  rw [millerRabin_odd hn ho, show xs.length + k + 1 = (k + 1) + xs.length by omega, millerRabinRounds_of_pass (by omega) h,
    millerRabinRounds, bind_of_ok (randBelow_of_gives (by omega) hx), if_neg (by simp [hw]), pure_apply]

theorem millerRabin_of_fails {limit rounds n : Nat} {p q : Ports} {e : ErrCode}
    (h : MillerRabinFails limit rounds n p e q) : millerRabin limit rounds n p = .error (.raise e) q := by
  obtain ⟨hn, ho, xs, r, hr, hx, hf⟩ := h
  obtain ⟨k, rfl⟩ := Nat.exists_eq_add_of_lt hr
  rw [millerRabin_odd (by omega) (by omega), Int.toNat_natCast, show xs.length + k + 1 = (k + 1) + xs.length by omega,
    millerRabinRounds_of_pass hn hx]
  exact bind_of_error (randBelow_of_fails (by omega) hf)

/-- A slot that is refused: Validate raises the error and leaves the ports said. -/
theorem validate_of_refused {s : State} {k : Slot} {p q : Ports} {e : ErrCode} (h : KeyRefused s k p e q) :
    validate s k p = .error (.raise e) q := by
  obtain ⟨_, hc, h⟩ := h
  unfold validate
  rw [if_neg (by simp [hc])]
  rcases h with ⟨rfl, rfl, h⟩ | ⟨hn, he, hp, h⟩
  · exact bind_of_error (raiseIf_of h _ _)
  rw [bind_of_ok (raiseIf_of_not (by omega) _ _)]
  refine bind_of_error ?_
  unfold validatePrivate
  rw [if_pos hp]
  rcases h with ⟨rfl, rfl, h⟩ | ⟨h, ⟨rfl, hf⟩ | hf | ⟨r, hr, ⟨rfl, hf⟩ | hf | ⟨rfl, hq, hed⟩⟩⟩
  · exact bind_of_error (raiseIf_of h _ _)
  all_goals rw [bind_of_ok (raiseIf_of_not (not_not.2 h) _ _)]
  · rw [bind_of_ok hf]
    exact bind_of_error (raiseIf_of rfl _ _)
  · exact bind_of_error (millerRabin_of_fails hf)
  all_goals rw [bind_of_ok hr, bind_of_ok (raiseIf_of_not (by simp) _ _)]
  · rw [bind_of_ok hf]
    exact bind_of_error (raiseIf_of rfl _ _)
  · exact bind_of_error (millerRabin_of_fails hf)
  · rw [bind_of_ok hq, bind_of_ok (raiseIf_of_not (by simp) _ _)]
    by_cases hg : Nat.gcd (s.slot k).e.val (s.slot k).lambda = 1
    · rw [bind_of_ok (raiseIf_of_not (not_not.2 hg) _ _)]
      rcases hed with hed | hed
      · exact absurd hg hed
      · have hd : ((s.slot k).e.val * (s.slot k).d.val - 1 : Int) % (s.slot k).lambda ≠ 0 :=
          fun hd => hed (Int.dvd_iff_emod_eq_zero.2 hd)
        exact raiseIf_of hd _ _
    · exact bind_of_error (raiseIf_of hg _ _)

theorem keyForPublic_of_refused {s : State} {k : Slot} {p q : Ports} {e : ErrCode} (h : KeyRefused s k p e q) :
    keyForPublic s k p = .error (.raise e) q := by
  unfold keyForPublic
  rw [bind_of_ok (raiseIf_of_not (by simp [h.1]) _ _), validate_of_refused h]

theorem keyForPrivate_of_refused {s : State} {k : Slot} {p q : Ports} {e : ErrCode} (h : KeyRefused s k p e q)
    (hp : (s.slot k).priv = true) : keyForPrivate s k p = .error (.raise e) q := by
  unfold keyForPrivate
  rw [bind_of_ok (raiseIf_of_not (by simp [hp]) _ _), bind_of_ok (raiseIf_of_not (by simp [h.1]) _ _), validate_of_refused h]

end Sys2Proof.Machine
end

