-- ==== Sys2Proof/Laws/Effect.lean ====
section
/-! SUPPORT. What each command can do to the state when it completes without error, said once; every statement about what commands leave alone follows from it. -/

namespace Sys2Proof.Machine

open Sys2Proof

/-- One destination register with the flags of its value. -/
def OneResult (s : State) (d : RegIdx) (u : State) : Prop :=
  ∃ v : Int, v.natAbs < 2 ^ s.par.wBits ∧ u = (s.putReg d v).flagsOf v

/-- A byte string stored inside BUF, its length in RES, on the staged state `t`. -/
def OneStore (s t : State) (off : Nat) (u : State) : Prop :=
  ∃ bs : Bytes, off + bs.length ≤ s.par.bufBytes ∧ u = (t.memWrite off bs).setRes bs.length

/-- What a validated slot has. -/
def Sealed (s : State) (k : Slot) : Prop :=
  (s.slot k).hasPublic = true ∧ ((s.slot k).checked = false → 2 ≤ (s.slot k).n.val ∧ 1 ≤ (s.slot k).e.val)

/-- The state `u` a command's writes leave, from the state `s`. -/
def Effect (i : Instr) (s u : State) : Prop :=
  match i with
  | .nop => u = s
  | .add d _ _ | .sub d _ _ | .mul d _ _ | .div d _ _ | .rem d _ _ | .neg d _ | .mov d _ | .ldi d _ | .bitlen d _ =>
    OneResult s d u
  | .modred d _ _ | .modmul d _ _ _ | .modexp d _ _ _ | .gcd d _ _ | .modinv d _ _ => OneResult s d u
  | .rndbelow d _ | .rndodd d _ | .ldb d | .kget d _ _ => OneResult s d u
  | .cmp a b => u = s.flagsCompare (s.reg a).val (s.reg b).val
  | .xgcd d _ _ => d.toNat ≤ 13 ∧ ∃ g x y : Int, g.natAbs < 2 ^ s.par.wBits ∧ x.natAbs < 2 ^ s.par.wBits ∧
      y.natAbs < 2 ^ s.par.wBits ∧ u = (((s.putReg d g).putReg (d + 1) x).putReg (d + 2) y).flagsOf g
  | .mrtest _ => ∃ r, u = (s.setBFlag r).setRes (boolScalar r)
  | .stb _ | .stbm _ | .rndb => OneStore s s (s.argLatched 0) u
  | .hash _ | .mgf1 _ => OneStore s s (s.argLatched 2) u
  | .kset k c a => (s.slot k).checked = false ∧ ((s.slot k).comp c).present = false ∧ 0 ≤ (s.reg a).val ∧
      u = s.setSlot k ((s.slot k).setComp c ⟨(s.reg a).val.toNat, true⟩)
  | .kclr k => u = s.setSlot k (s.slot k).cleared
  | .kchk k => Sealed s k ∧ u = ((s.markChecked k).setBFlag (s.slot k).priv).setRes (bitlen (s.slot k).n.val)
  | .kpub k => (s.slot k).hasPublic = true ∧
      u = s.setSlot (otherSlot k) { (s.slot (otherSlot k)).cleared with
        n := ⟨(s.slot k).n.val, true⟩, e := ⟨(s.slot k).e.val, true⟩ }
  | .oaepenc _ k | .oaepdec _ k | .psssign _ k _ => Sealed s k ∧ OneStore s (s.markChecked k) (s.argLatched 2) u
  | .pssver _ k _ => Sealed s k ∧ ∃ r, u = ((s.markChecked k).setBFlag r).setRes (boolScalar r)

theorem OneResult.intro {s u : State} {d : RegIdx} {v : Int} {q : Prop}
    (h : v.natAbs < 2 ^ s.par.wBits ∧ (s.putReg d v).flagsOf v = u ∧ q) : OneResult s d u :=
  ⟨v, h.1, h.2.1.symm⟩

theorem OneStore.intro {s t u : State} {off n : Nat} {bs : Bytes} (hl : bs.length = n)
    (hr : off + n ≤ s.par.bufBytes) (h : (t.memWrite off bs).setRes n = u) : OneStore s t off u :=
  ⟨bs, hl ▸ hr, hl ▸ h.symm⟩

theorem sealed_of_validate {s t : State} {k : Slot} {p q : Ports} (hp : (s.slot k).hasPublic = true)
    (h : validate s k p = .ok t q) : t = s.markChecked k ∧ Sealed s k :=
  ⟨(validate_eq_ok h).1, hp, (validate_eq_ok h).2⟩

theorem checkRange_eq_ok {s : State} {off len : Nat} {p q : Ports} {u : Unit} :
    checkRange s off len p = .ok u q ↔ off + len ≤ s.par.bufBytes ∧ p = q := by
  rw [checkRange, raiseIf_eq_ok, not_lt]

theorem requireHash_eq_ok {s : State} {h : HashId} {p q : Ports} {u : Unit} :
    requireHash s h p = .ok u q ↔ s.hashSupported h = true ∧ p = q := by
  rw [requireHash, raiseIf_eq_ok, Bool.not_eq_false]

theorem checkModulus_eq_ok {m : Int} {p q : Ports} {u : Unit} : checkModulus m p = .ok u q ↔ 0 < m ∧ p = q := by
  unfold checkModulus
  rw [bind_eq_ok]
  simp only [raiseIf_eq_ok]
  constructor
  · rintro ⟨_, _, ⟨h1, rfl⟩, h2, rfl⟩
    exact ⟨by omega, rfl⟩
  · rintro ⟨h, rfl⟩
    exact ⟨(), p, ⟨by omega, rfl⟩, by omega, rfl⟩

/-- The body of a command asks only the agents the command may ask. -/
theorem exec_asks (i : Instr) (s : State) :
    ∃ b, exec i s = runBody s b ∧ Asks (drawsRandom i) (usesHash i) b ∧ ∀ u p, b s.ports = .ok u p → Effect i s u := by
  cases i <;> simp only [exec, execNop, execKclr] <;> refine ⟨_, rfl, ?_, ?_⟩
  all_goals try (
    simp only [drawsRandom, usesHash]
    repeat (first
      | with_reducible exact asks_readReg _ _ | with_reducible exact asks_stageResult _ _ _
      | with_reducible exact asks_stageReg _ _ _ | with_reducible exact asks_pure _
      | with_reducible exact asks_checkRange _ _ _ | with_reducible exact asks_requireHash _ _
      | with_reducible exact asks_checkModulus _ | with_reducible exact asks_rngBytes _
      | with_reducible exact asks_randBelow _ _ | with_reducible exact asks_hashRequest
      | with_reducible exact asks_hashRequests _ | with_reducible exact asks_millerRabin _ _ _
      | with_reducible exact asks_validate _ _ | with_reducible exact asks_keyForPublic _ _
      | with_reducible exact asks_keyForPrivate _ _ | with_reducible exact asks_raiseIf (by decide)
      | with_reducible exact asks_raise (by decide) | with_reducible refine asks_bind ?_ fun _ => ?_ | split)
    done)
  all_goals intro u p h
  all_goals simp only [bind_eq_ok, pure_apply, EStateM.Result.ok.injEq, raiseIf_eq_ok, readReg_eq_ok, stageReg_eq_ok, stageResult_eq_ok,
    checkRange_eq_ok, requireHash_eq_ok, checkModulus_eq_ok] at h
  all_goals try solve | repeat (first | exact OneResult.intro h | obtain ⟨_, _, _, h⟩ := h)
  case nop => exact h.1.symm
  case cmp =>
    obtain ⟨_, _, ⟨_, rfl, _⟩, _, _, ⟨_, rfl, _⟩, h, _⟩ := h
    exact h.symm
  case xgcd =>
    obtain ⟨_, _, ⟨hd, _⟩, _, _, _, _, _, _, _, _, ⟨hg, rfl, _⟩, _, _, ⟨hx, rfl, _⟩, _, _, ⟨hy, rfl, _⟩, h, _⟩ := h
    exact ⟨not_lt.1 hd, _, _, _, hg, hx, hy, h.symm⟩
  case mrtest =>
    obtain ⟨_, _, _, _, _, _, h, _⟩ := h
    exact ⟨_, h.symm⟩
  case rndb =>
    obtain ⟨_, _, ⟨hr, _⟩, bs, _, hb, h, _⟩ := h
    exact OneStore.intro (rngBytes_length hb) hr h
  case stb =>
    obtain ⟨_, _, _, _, _, ⟨hr, _⟩, _, _, _, _, _, _, h, _⟩ := h
    exact OneStore.intro (i2osp_length _ _) hr h
  case stbm =>
    obtain ⟨_, _, _, _, _, _, _, _, ⟨hr, _⟩, h, _⟩ := h
    exact OneStore.intro rfl hr h
  case hash =>
    obtain ⟨_, _, _, _, _, _, _, _, ⟨hr, _⟩, _, _, _, h, _⟩ := h
    exact OneStore.intro (hashFn_length _ _) hr h
  case mgf1 =>
    obtain ⟨_, _, ⟨hs, _⟩, _, _, _, _, _, ⟨hr, _⟩, _, _, _, h, _⟩ := h
    exact OneStore.intro (mgf1Fn_length (hLen_pos_of_supported hs) _ _) hr h
  case kset =>
    obtain ⟨_, _, ⟨_, rfl, _⟩, _, _, ⟨hc, _⟩, _, _, ⟨hp, _⟩, _, _, ⟨hv, _⟩, h, _⟩ := h
    exact ⟨by simpa using hc, by simpa using hp, not_lt.1 hv, h.symm⟩
  case kclr => exact h.1.symm
  case kchk =>
    obtain ⟨_, _, ⟨hp, _⟩, _, _, hv, h, _⟩ := h
    obtain ⟨rfl, hs⟩ := sealed_of_validate (by simpa using hp) hv
    exact ⟨hs, h.symm⟩
  case kpub =>
    obtain ⟨_, _, ⟨hp, _⟩, h, _⟩ := h
    exact ⟨by simpa using hp, h.symm⟩
  case oaepenc =>
    obtain ⟨_, _, _, _, _, hk, _, _, _, _, _, ⟨hr, _⟩, _, _, _, _, _, _, _, _, _, h, _⟩ := h
    obtain ⟨rfl, hs⟩ := sealed_of_validate (keyForPublic_eq_ok hk).1 (keyForPublic_eq_ok hk).2
    exact ⟨hs, OneStore.intro (i2osp_length _ _) hr h⟩
  case oaepdec =>
    obtain ⟨_, _, _, _, _, hk, _, _, _, _, _, ⟨hr, _⟩, _, _, _, _, _, _, _, _, _, _, _, _, h⟩ := h
    obtain ⟨rfl, hs⟩ := sealed_of_validate (keyForPrivate_eq_ok hk).2.1 (keyForPrivate_eq_ok hk).2.2
    generalize hd : oaepDecode _ _ _ = r at h
    cases r with
    | none => cases h
    | some m =>
      have hl := oaepDecode_length (i2osp_length _ _) hd
      simp only [pure_apply, EStateM.Result.ok.injEq] at h
      exact ⟨hs, m, by omega, h.1.symm⟩
  case psssign =>
    obtain ⟨_, _, _, _, _, hk, _, _, _, _, _, ⟨hr, _⟩, _, _, _, _, _, _, _, _, _, _, _, _, h, _⟩ := h
    obtain ⟨rfl, hs⟩ := sealed_of_validate (keyForPrivate_eq_ok hk).2.1 (keyForPrivate_eq_ok hk).2.2
    exact ⟨hs, OneStore.intro (i2osp_length _ _) hr h⟩
  case pssver =>
    obtain ⟨_, _, _, _, _, hk, _, _, _, _, _, _, _, _, _, h⟩ := h
    obtain ⟨rfl, hs⟩ := sealed_of_validate (keyForPublic_eq_ok hk).1 (keyForPublic_eq_ok hk).2
    generalize pssRecover _ _ = r at h
    cases r with
    | none =>
      simp only [pure_apply, EStateM.Result.ok.injEq] at h
      exact ⟨hs, false, h.1.symm⟩
    | some em =>
      simp only [bind_eq_ok, pure_apply, EStateM.Result.ok.injEq] at h
      obtain ⟨_, _, _, h, _⟩ := h
      exact ⟨hs, _, h.symm⟩

/-- A command that answers a next state has had its effect and completed with OK, or it has ended with another
code, which leaves nothing but the code; and it asked only the agents it may ask. -/
theorem exec_next {i : Instr} {s t : State} (h : exec i s = .next t) :
    (∃ u p, Effect i s u ∧ t = u.completeWith .ok p ∧ Ports.LeftBy (drawsRandom i) (usesHash i) s.ports p) ∨
    (∃ e p, e ≠ .ok ∧ t = s.takeError e p ∧ Ports.LeftBy (drawsRandom i) (usesHash i) s.ports p) := by
  obtain ⟨b, hb, ha, he⟩ := exec_asks i s
  rcases runBody_asks ha (hb ▸ h) with ⟨u, p, hu, rfl, hl⟩ | h
  · exact .inl ⟨u, p, he u p hu, rfl, hl⟩
  · exact .inr h

end Sys2Proof.Machine
end

