-- ==== Sys2Proof/Laws/PerInstr.lean ====
section
/-! SUPPORT. The family Encoding: the word of a command meets the mask and match of its own row of the opcode map, and has its opcode (30_encoding.md R94, R95). -/

namespace Sys2Proof.Laws.Encoding

open Sys2Proof

/-- The word of a command meets its row. -/
def Statement (i : Instr) : Prop := encode i &&& tableMask i = tableMatch i ∧ opOf (encode i) = opOf (tableMatch i)

theorem of_fields {i : Instr} (op : BitVec 6) {rd rs1 rs2 rs3 hid : BitVec 4} {ks sh : BitVec 1}
    (d a b c h : BitVec 4) (k s : BitVec 1) (h1 : encode i = wordR op rd rs1 rs2 rs3 hid ks sh)
    (h2 : tableMask i = maskR d a b c h k s) (h3 : tableMatch i = wordR op 0#4 0#4 0#4 0#4 0#4 0#1 0#1)
    (f : rd &&& d = 0#4 ∧ rs1 &&& a = 0#4 ∧ rs2 &&& b = 0#4 ∧ rs3 &&& c = 0#4 ∧ hid &&& h = 0#4 ∧ ks &&& k = 0#1 ∧
      sh &&& s = 0#1) : Statement i := by
  obtain ⟨f1, f2, f3, f4, f5, f6, f7⟩ := f
  exact ⟨by rw [h1, h2, h3, wordR_and_maskR, f1, f2, f3, f4, f5, f6, f7], by rw [h1, h3, opOf_wordR, opOf_wordR]⟩

theorem of_immediate {i : Instr} (op : BitVec 6) {rd : BitVec 4} {imm : BitVec 22} (h1 : encode i = wordI op rd imm)
    (h2 : tableMask i = 0xFC000000#32) (h3 : tableMatch i = wordI op 0#4 0#22) : Statement i := by
  refine ⟨?_, by rw [h1, h3, opOf_wordI, opOf_wordI]⟩
  rw [h1, h2, h3]
  refine BitVec.eq_of_getLsbD_eq fun i hi => ?_
  simp only [wordI, BitVec.getLsbD_and, BitVec.getLsbD_append]
  interval_cases i <;> simp

theorem nop : Statement .nop :=
  of_fields 0x00#6 15#4 15#4 15#4 15#4 15#4 1#1 1#1 rfl rfl rfl
    ⟨BitVec.zero_and, BitVec.zero_and, BitVec.zero_and, BitVec.zero_and, BitVec.zero_and, BitVec.zero_and, BitVec.zero_and⟩

theorem add (rd rs1 rs2 : RegIdx) : Statement (.add rd rs1 rs2) :=
  of_fields 0x01#6 0#4 0#4 0#4 15#4 15#4 1#1 1#1 rfl rfl rfl
    ⟨BitVec.and_zero, BitVec.and_zero, BitVec.and_zero, BitVec.zero_and, BitVec.zero_and, BitVec.zero_and, BitVec.zero_and⟩

theorem sub (rd rs1 rs2 : RegIdx) : Statement (.sub rd rs1 rs2) :=
  of_fields 0x02#6 0#4 0#4 0#4 15#4 15#4 1#1 1#1 rfl rfl rfl
    ⟨BitVec.and_zero, BitVec.and_zero, BitVec.and_zero, BitVec.zero_and, BitVec.zero_and, BitVec.zero_and, BitVec.zero_and⟩

theorem mul (rd rs1 rs2 : RegIdx) : Statement (.mul rd rs1 rs2) :=
  of_fields 0x03#6 0#4 0#4 0#4 15#4 15#4 1#1 1#1 rfl rfl rfl
    ⟨BitVec.and_zero, BitVec.and_zero, BitVec.and_zero, BitVec.zero_and, BitVec.zero_and, BitVec.zero_and, BitVec.zero_and⟩

theorem div (rd rs1 rs2 : RegIdx) : Statement (.div rd rs1 rs2) :=
  of_fields 0x04#6 0#4 0#4 0#4 15#4 15#4 1#1 1#1 rfl rfl rfl
    ⟨BitVec.and_zero, BitVec.and_zero, BitVec.and_zero, BitVec.zero_and, BitVec.zero_and, BitVec.zero_and, BitVec.zero_and⟩

theorem rem (rd rs1 rs2 : RegIdx) : Statement (.rem rd rs1 rs2) :=
  of_fields 0x05#6 0#4 0#4 0#4 15#4 15#4 1#1 1#1 rfl rfl rfl
    ⟨BitVec.and_zero, BitVec.and_zero, BitVec.and_zero, BitVec.zero_and, BitVec.zero_and, BitVec.zero_and, BitVec.zero_and⟩

theorem neg (rd rs1 : RegIdx) : Statement (.neg rd rs1) :=
  of_fields 0x06#6 0#4 0#4 15#4 15#4 15#4 1#1 1#1 rfl rfl rfl
    ⟨BitVec.and_zero, BitVec.and_zero, BitVec.zero_and, BitVec.zero_and, BitVec.zero_and, BitVec.zero_and, BitVec.zero_and⟩

theorem mov (rd rs1 : RegIdx) : Statement (.mov rd rs1) :=
  of_fields 0x07#6 0#4 0#4 15#4 15#4 15#4 1#1 1#1 rfl rfl rfl
    ⟨BitVec.and_zero, BitVec.and_zero, BitVec.zero_and, BitVec.zero_and, BitVec.zero_and, BitVec.zero_and, BitVec.zero_and⟩

theorem ldi (rd : RegIdx) (imm : BitVec 22) : Statement (.ldi rd imm) :=
  of_immediate 0x08#6 rfl rfl rfl

theorem cmp (rs1 rs2 : RegIdx) : Statement (.cmp rs1 rs2) :=
  of_fields 0x09#6 15#4 0#4 0#4 15#4 15#4 1#1 1#1 rfl rfl rfl
    ⟨BitVec.zero_and, BitVec.and_zero, BitVec.and_zero, BitVec.zero_and, BitVec.zero_and, BitVec.zero_and, BitVec.zero_and⟩

theorem bitlen (rd rs1 : RegIdx) : Statement (.bitlen rd rs1) :=
  of_fields 0x0a#6 0#4 0#4 15#4 15#4 15#4 1#1 1#1 rfl rfl rfl
    ⟨BitVec.and_zero, BitVec.and_zero, BitVec.zero_and, BitVec.zero_and, BitVec.zero_and, BitVec.zero_and, BitVec.zero_and⟩

theorem modred (rd rs1 rs2 : RegIdx) : Statement (.modred rd rs1 rs2) :=
  of_fields 0x10#6 0#4 0#4 0#4 15#4 15#4 1#1 1#1 rfl rfl rfl
    ⟨BitVec.and_zero, BitVec.and_zero, BitVec.and_zero, BitVec.zero_and, BitVec.zero_and, BitVec.zero_and, BitVec.zero_and⟩

theorem modmul (rd rs1 rs2 rs3 : RegIdx) : Statement (.modmul rd rs1 rs2 rs3) :=
  of_fields 0x11#6 0#4 0#4 0#4 0#4 15#4 1#1 1#1 rfl rfl rfl
    ⟨BitVec.and_zero, BitVec.and_zero, BitVec.and_zero, BitVec.and_zero, BitVec.zero_and, BitVec.zero_and, BitVec.zero_and⟩

theorem modexp (rd rs1 rs2 rs3 : RegIdx) : Statement (.modexp rd rs1 rs2 rs3) :=
  of_fields 0x12#6 0#4 0#4 0#4 0#4 15#4 1#1 1#1 rfl rfl rfl
    ⟨BitVec.and_zero, BitVec.and_zero, BitVec.and_zero, BitVec.and_zero, BitVec.zero_and, BitVec.zero_and, BitVec.zero_and⟩

theorem gcd (rd rs1 rs2 : RegIdx) : Statement (.gcd rd rs1 rs2) :=
  of_fields 0x13#6 0#4 0#4 0#4 15#4 15#4 1#1 1#1 rfl rfl rfl
    ⟨BitVec.and_zero, BitVec.and_zero, BitVec.and_zero, BitVec.zero_and, BitVec.zero_and, BitVec.zero_and, BitVec.zero_and⟩

theorem xgcd (rd rs1 rs2 : RegIdx) : Statement (.xgcd rd rs1 rs2) :=
  of_fields 0x14#6 0#4 0#4 0#4 15#4 15#4 1#1 1#1 rfl rfl rfl
    ⟨BitVec.and_zero, BitVec.and_zero, BitVec.and_zero, BitVec.zero_and, BitVec.zero_and, BitVec.zero_and, BitVec.zero_and⟩

theorem modinv (rd rs1 rs2 : RegIdx) : Statement (.modinv rd rs1 rs2) :=
  of_fields 0x15#6 0#4 0#4 0#4 15#4 15#4 1#1 1#1 rfl rfl rfl
    ⟨BitVec.and_zero, BitVec.and_zero, BitVec.and_zero, BitVec.zero_and, BitVec.zero_and, BitVec.zero_and, BitVec.zero_and⟩

theorem mrtest (rs1 : RegIdx) : Statement (.mrtest rs1) :=
  of_fields 0x16#6 15#4 0#4 15#4 15#4 15#4 1#1 1#1 rfl rfl rfl
    ⟨BitVec.zero_and, BitVec.and_zero, BitVec.zero_and, BitVec.zero_and, BitVec.zero_and, BitVec.zero_and, BitVec.zero_and⟩

theorem rndb : Statement .rndb :=
  of_fields 0x18#6 15#4 15#4 15#4 15#4 15#4 1#1 1#1 rfl rfl rfl
    ⟨BitVec.zero_and, BitVec.zero_and, BitVec.zero_and, BitVec.zero_and, BitVec.zero_and, BitVec.zero_and, BitVec.zero_and⟩

theorem rndbelow (rd rs1 : RegIdx) : Statement (.rndbelow rd rs1) :=
  of_fields 0x19#6 0#4 0#4 15#4 15#4 15#4 1#1 1#1 rfl rfl rfl
    ⟨BitVec.and_zero, BitVec.and_zero, BitVec.zero_and, BitVec.zero_and, BitVec.zero_and, BitVec.zero_and, BitVec.zero_and⟩

theorem rndodd (rd : RegIdx) (imm : BitVec 22) : Statement (.rndodd rd imm) :=
  of_immediate 0x1a#6 rfl rfl rfl

theorem ldb (rd : RegIdx) : Statement (.ldb rd) :=
  of_fields 0x20#6 0#4 15#4 15#4 15#4 15#4 1#1 1#1 rfl rfl rfl
    ⟨BitVec.and_zero, BitVec.zero_and, BitVec.zero_and, BitVec.zero_and, BitVec.zero_and, BitVec.zero_and, BitVec.zero_and⟩

theorem stb (rs1 : RegIdx) : Statement (.stb rs1) :=
  of_fields 0x21#6 15#4 0#4 15#4 15#4 15#4 1#1 1#1 rfl rfl rfl
    ⟨BitVec.zero_and, BitVec.and_zero, BitVec.zero_and, BitVec.zero_and, BitVec.zero_and, BitVec.zero_and, BitVec.zero_and⟩

theorem stbm (rs1 : RegIdx) : Statement (.stbm rs1) :=
  of_fields 0x22#6 15#4 0#4 15#4 15#4 15#4 1#1 1#1 rfl rfl rfl
    ⟨BitVec.zero_and, BitVec.and_zero, BitVec.zero_and, BitVec.zero_and, BitVec.zero_and, BitVec.zero_and, BitVec.zero_and⟩

theorem hash (hid : HashId) : Statement (.hash hid) :=
  of_fields 0x28#6 15#4 15#4 15#4 15#4 0#4 1#1 1#1 rfl rfl rfl
    ⟨BitVec.zero_and, BitVec.zero_and, BitVec.zero_and, BitVec.zero_and, BitVec.and_zero, BitVec.zero_and, BitVec.zero_and⟩

theorem mgf1 (hid : HashId) : Statement (.mgf1 hid) :=
  of_fields 0x29#6 15#4 15#4 15#4 15#4 0#4 1#1 1#1 rfl rfl rfl
    ⟨BitVec.zero_and, BitVec.zero_and, BitVec.zero_and, BitVec.zero_and, BitVec.and_zero, BitVec.zero_and, BitVec.zero_and⟩

theorem kset (ks : Slot) (comp : Comp) (rs1 : RegIdx) : Statement (.kset ks comp rs1) :=
  of_fields 0x30#6 15#4 0#4 0#4 15#4 15#4 0#1 1#1 rfl rfl rfl
    ⟨BitVec.zero_and, BitVec.and_zero, BitVec.and_zero, BitVec.zero_and, BitVec.zero_and, BitVec.and_zero, BitVec.zero_and⟩

theorem kget (rd : RegIdx) (ks : Slot) (comp : Comp) : Statement (.kget rd ks comp) :=
  of_fields 0x31#6 0#4 15#4 0#4 15#4 15#4 0#1 1#1 rfl rfl rfl
    ⟨BitVec.and_zero, BitVec.zero_and, BitVec.and_zero, BitVec.zero_and, BitVec.zero_and, BitVec.and_zero, BitVec.zero_and⟩

theorem kclr (ks : Slot) : Statement (.kclr ks) :=
  of_fields 0x32#6 15#4 15#4 15#4 15#4 15#4 0#1 1#1 rfl rfl rfl
    ⟨BitVec.zero_and, BitVec.zero_and, BitVec.zero_and, BitVec.zero_and, BitVec.zero_and, BitVec.and_zero, BitVec.zero_and⟩

theorem kchk (ks : Slot) : Statement (.kchk ks) :=
  of_fields 0x33#6 15#4 15#4 15#4 15#4 15#4 0#1 1#1 rfl rfl rfl
    ⟨BitVec.zero_and, BitVec.zero_and, BitVec.zero_and, BitVec.zero_and, BitVec.zero_and, BitVec.and_zero, BitVec.zero_and⟩

theorem kpub (ks : Slot) : Statement (.kpub ks) :=
  of_fields 0x34#6 15#4 15#4 15#4 15#4 15#4 0#1 1#1 rfl rfl rfl
    ⟨BitVec.zero_and, BitVec.zero_and, BitVec.zero_and, BitVec.zero_and, BitVec.zero_and, BitVec.and_zero, BitVec.zero_and⟩

theorem oaepenc (hid : HashId) (ks : Slot) : Statement (.oaepenc hid ks) :=
  of_fields 0x38#6 15#4 15#4 15#4 15#4 0#4 0#1 1#1 rfl rfl rfl
    ⟨BitVec.zero_and, BitVec.zero_and, BitVec.zero_and, BitVec.zero_and, BitVec.and_zero, BitVec.and_zero, BitVec.zero_and⟩

theorem oaepdec (hid : HashId) (ks : Slot) : Statement (.oaepdec hid ks) :=
  of_fields 0x39#6 15#4 15#4 15#4 15#4 0#4 0#1 1#1 rfl rfl rfl
    ⟨BitVec.zero_and, BitVec.zero_and, BitVec.zero_and, BitVec.zero_and, BitVec.and_zero, BitVec.and_zero, BitVec.zero_and⟩

theorem psssign (hid : HashId) (ks : Slot) (sh : Bool) : Statement (.psssign hid ks sh) :=
  of_fields 0x3a#6 15#4 15#4 15#4 15#4 0#4 0#1 0#1 rfl rfl rfl
    ⟨BitVec.zero_and, BitVec.zero_and, BitVec.zero_and, BitVec.zero_and, BitVec.and_zero, BitVec.and_zero, BitVec.and_zero⟩

theorem pssver (hid : HashId) (ks : Slot) (sh : Bool) : Statement (.pssver hid ks sh) :=
  of_fields 0x3b#6 15#4 15#4 15#4 15#4 0#4 0#1 0#1 rfl rfl rfl
    ⟨BitVec.zero_and, BitVec.zero_and, BitVec.zero_and, BitVec.zero_and, BitVec.and_zero, BitVec.and_zero, BitVec.and_zero⟩

end Sys2Proof.Laws.Encoding
end

