-- ==== Sys2Proof/Tests/Slice0.lean ====
section
/-! SUPPORT. Tests: ill-formed commands are refused, words written out from the spec decode, one-step vectors of 95_test_vectors.md, and for every obligation with hypotheses a state that meets them. -/

namespace Sys2Proof.Tests

set_option Elab.async false

open Sys2Proof Sys2Proof.Machine

/-! ## Building small states -/

/-- Big registers written. -/
def regs (s : State) (l : List (Nat × Int)) : State := l.foldl (fun s x => s.putReg (BitVec.ofNat 4 x.1) x.2) s

/-- Words for ARG0, ARG1, ... -/
def words (l : List Nat) : Vector Word 8 := Vector.ofFn fun i => BitVec.ofNat 32 (l.getD i.val 0)

/-- ARG0, ARG1, ... written, latched already too. -/
def args (s : State) (l : List Nat) : State := { s with arg := words l, argL := words l }

/-- Bytes of BUF written. -/
def bytes (s : State) (off : Nat) (l : List Nat) : State := s.memWrite off (l.map (BitVec.ofNat 8))

/-- What the RNG delivers. -/
def rng (s : State) (l : List Nat) : State :=
  { s with ports := { s.ports with rng := l.map fun v => .byte (BitVec.ofNat 8 v) } }

/-- The round count, latched already too. -/
def rounds (s : State) (r : BitVec 8) : State := { s with mrRounds := r, mrRoundsL := r }

/-- A key slot from its component values, absent where none is given. -/
def slotOf (checked : Bool) (n e d p q : Option Nat) : KeySlot :=
  let c : Option Nat → KeyComp := fun v => ⟨v.getD 0, v.isSome⟩
  { n := c n, e := c e, d := c d, p := c p, q := c q, checked := checked }

/-- The state after the command word `w`, accepted and completed from `s`. -/
def after (w : Word) (s : State) : Option State :=
  match step (s.withFetchWord 32 w.toNat) with
  | .next t => some t
  | _ => none

/-- The code a command word ends with. -/
def errOf (w : Word) (s : State) : Option ErrCode := (after w s).map State.err

/-- Register r, Z, N and the code after a command word. -/
def result (w : Word) (s : State) (r : Nat) : Option (Int × Bool × Bool × ErrCode) :=
  (after w s).map fun t => ((t.reg (BitVec.ofNat 4 r)).val, t.z, t.n, t.err)

/-- BUF[off .. off+n-1], RES and the code after a command word. -/
def stored (w : Word) (s : State) (off n : Nat) : Option (List Nat × Nat × ErrCode) :=
  (after w s).map fun t => ((t.memRead off n).map BitVec.toNat, t.res.toNat, t.err)

/-- B_FLAG, RES and the code after a command word. -/
def verdict (w : Word) (s : State) : Option (Bool × Nat × ErrCode) := (after w s).map fun t => (t.bFlag, t.res.toNat, t.err)

/-- A state whose invariant a computation decides. -/
def invOk (s : State) : Bool :=
  decide (s.par.Legal ∧ (∀ r : RegIdx, (s.reg r).val.natAbs < 2 ^ s.par.wBits) ∧
    (s.k0.InRange s.par.wBits ∧ s.k1.InRange s.par.wBits) ∧
    ((s.k0.checked = true → s.k0.PublicValid) ∧ (s.k1.checked = true → s.k1.PublicValid)) ∧
    Memory.wf s.buf ∧ (∀ c ∈ s.buf, c.1 < s.par.bufBytes) ∧
    (1 ≤ s.mrRounds.toNat ∧ 1 ≤ s.expWin.toNat ∧ s.expWin.toNat ≤ 6) ∧
    (s.phase = .busy →
      s.done = false ∧ s.lastCmd = s.cur ∧ 1 ≤ s.mrRoundsL.toNat ∧ 1 ≤ s.expWinL.toNat ∧ s.expWinL.toNat ≤ 6))

theorem inv_of_ok {s : State} (h : invOk s = true) : s.Inv := by
  obtain ⟨h1, h2, ⟨h3, h3'⟩, ⟨h4, h4'⟩, h5, h6, h7, h8⟩ := of_decide_eq_true h
  exact ⟨h1, h2, fun k => by cases k <;> assumption, fun k => by cases k <;> assumption, h5, h6, h7, h8⟩

/-- A next state with a property a computation decides. -/
def nextAnd (o : Host.Outcome State Fault Refusal) (p : State → Bool) : Bool :=
  match o with
  | .next t => p t
  | _ => false

theorem next_of {o : Host.Outcome State Fault Refusal} {p : State → Bool} (h : nextAnd o p = true) :
    ∃ t, o = .next t ∧ p t = true := by
  unfold nextAnd at h
  split at h
  · exact ⟨_, rfl, h⟩
  · cases h

/-! ## Ill-formed commands and refused words (30_encoding.md R97, R98, R99; 95_test_vectors.md 3.1) -/

theorem test_xgcd_rd_14_is_ill_formed : (Instr.xgcd 14 0 1).wellFormed = false ∧ (Instr.xgcd 13 0 1).wellFormed = true := by
  decide

theorem test_xgcd_rd_14_is_refused : decode (encode (.xgcd 14 0 1)) = .error .xgcdDestination := by decide

theorem test_reserved_opcodes_are_refused :
    decode 0x2C000000#32 = .error .reservedOpcode ∧ decode 0xFC000000#32 = .error .reservedOpcode := by decide

theorem test_nonzero_unused_fields_are_refused :
    decode 0x00000001#32 = .error .nonzeroUnusedField ∧ decode 0x03FFFFFF#32 = .error .nonzeroUnusedField ∧
    decode 0x04804400#32 = .error .nonzeroUnusedField ∧ decode 0x04804001#32 = .error .nonzeroUnusedField ∧
    decode 0x24404000#32 = .error .nonzeroUnusedField ∧ decode 0x48C04840#32 = .error .nonzeroUnusedField ∧
    decode 0xE0000070#32 = .error .nonzeroUnusedField ∧ decode 0xE8000051#32 = .error .nonzeroUnusedField := by decide

theorem test_unknown_components_are_refused :
    decode 0xC0014000#32 = .error .unknownComponent ∧ decode 0xC4014000#32 = .error .unknownComponent := by decide

theorem test_illegal_word_completes : errOf 0x53804000#32 State.reset = some .illegalCmd := by decide +kernel

/-! ## Words written field by field from 30_encoding.md R91, R92, R95: OP RD RS1 RS2 RS3 HID KS SH RSV, or OP RD IMM22 -/

theorem test_decode_integer_arithmetic :
    decode 0b000000_0000_0000_0000_0000_0000_0_0_0000#32 = .ok .nop ∧
    decode 0b000001_0010_0000_0001_0000_0000_0_0_0000#32 = .ok (.add 2 0 1) ∧
    decode 0b000010_1111_1110_1101_0000_0000_0_0_0000#32 = .ok (.sub 15 14 13) ∧
    decode 0b000011_0001_0010_0100_0000_0000_0_0_0000#32 = .ok (.mul 1 2 4) ∧
    decode 0b000100_1000_0100_0010_0000_0000_0_0_0000#32 = .ok (.div 8 4 2) ∧
    decode 0b000101_0011_0101_1001_0000_0000_0_0_0000#32 = .ok (.rem 3 5 9) ∧
    decode 0b000110_0001_0000_0000_0000_0000_0_0_0000#32 = .ok (.neg 1 0) ∧
    decode 0b000111_0001_1000_0000_0000_0000_0_0_0000#32 = .ok (.mov 1 8) ∧
    decode 0b001000_1111_1111111111111111111111#32 = .ok (.ldi 15 4194303) ∧
    decode 0b001001_0000_0110_0111_0000_0000_0_0_0000#32 = .ok (.cmp 6 7) ∧
    decode 0b001010_1010_0101_0000_0000_0000_0_0_0000#32 = .ok (.bitlen 10 5) := by decide

theorem test_decode_modular :
    decode 0b010000_0010_0000_0001_0000_0000_0_0_0000#32 = .ok (.modred 2 0 1) ∧
    decode 0b010001_0011_0000_0001_0010_0000_0_0_0000#32 = .ok (.modmul 3 0 1 2) ∧
    decode 0b010010_0011_0000_0001_0010_0000_0_0_0000#32 = .ok (.modexp 3 0 1 2) ∧
    decode 0b010011_0010_0000_0001_0000_0000_0_0_0000#32 = .ok (.gcd 2 0 1) ∧
    decode 0b010100_1101_0000_0001_0000_0000_0_0_0000#32 = .ok (.xgcd 13 0 1) ∧
    decode 0b010101_0010_0000_0001_0000_0000_0_0_0000#32 = .ok (.modinv 2 0 1) ∧
    decode 0b010110_0000_1001_0000_0000_0000_0_0_0000#32 = .ok (.mrtest 9) := by decide

theorem test_decode_random_and_bytes :
    decode 0b011000_0000_0000_0000_0000_0000_0_0_0000#32 = .ok .rndb ∧
    decode 0b011001_0001_0000_0000_0000_0000_0_0_0000#32 = .ok (.rndbelow 1 0) ∧
    decode 0b011010_0000_0000000000000000010000#32 = .ok (.rndodd 0 16) ∧
    decode 0b100000_0011_0000_0000_0000_0000_0_0_0000#32 = .ok (.ldb 3) ∧
    decode 0b100001_0000_0011_0000_0000_0000_0_0_0000#32 = .ok (.stb 3) ∧
    decode 0b100010_0000_0011_0000_0000_0000_0_0_0000#32 = .ok (.stbm 3) := by decide

theorem test_decode_hash_and_keys :
    decode 0b101000_0000_0000_0000_0000_0001_0_0_0000#32 = .ok (.hash 1) ∧
    decode 0b101001_0000_0000_0000_0000_0010_0_0_0000#32 = .ok (.mgf1 2) ∧
    decode 0b110000_0000_0010_0011_0000_0000_1_0_0000#32 = .ok (.kset .k1 .p 2) ∧
    decode 0b110001_0101_0000_0001_0000_0000_0_0_0000#32 = .ok (.kget 5 .k0 .e) ∧
    decode 0b110010_0000_0000_0000_0000_0000_1_0_0000#32 = .ok (.kclr .k1) ∧
    decode 0b110011_0000_0000_0000_0000_0000_0_0_0000#32 = .ok (.kchk .k0) ∧
    decode 0b110100_0000_0000_0000_0000_0000_1_0_0000#32 = .ok (.kpub .k1) := by decide

theorem test_decode_schemes :
    decode 0b111000_0000_0000_0000_0000_0001_1_0_0000#32 = .ok (.oaepenc 1 .k1) ∧
    decode 0b111001_0000_0000_0000_0000_0010_0_0_0000#32 = .ok (.oaepdec 2 .k0) ∧
    decode 0b111010_0000_0000_0000_0000_0001_0_1_0000#32 = .ok (.psssign 1 .k0 true) ∧
    decode 0b111011_0000_0000_0000_0000_0010_1_0_0000#32 = .ok (.pssver 2 .k1 false) := by decide

theorem test_decode_table_word : decodeTableWord 32 0x48C04800 = some (.modexp 3 0 1 2) := by decide

/-! ## One-step vectors of 95_test_vectors.md, sections 3.2 to 3.6 and 1.1 -/

theorem test_nop : (after 0x00000000#32 State.reset).map (fun t => (t.statusWord, t.lastCmd)) = some (0x2#32, 0#32) := by
  decide +kernel

theorem test_add_signed : result 0x04804000#32 (regs State.reset [(0, 5), (1, -7)]) 2 = some (-2, false, true, .ok) := by
  decide +kernel

theorem test_add_overflow : errOf 0x04800000#32 (regs State.reset [(0, 2 ^ 4095)]) = some .overflow := by decide +kernel

theorem test_sub_negative : result 0x08804000#32 (regs State.reset [(0, 3), (1, 10)]) 2 = some (-7, false, true, .ok) := by
  decide +kernel

theorem test_sub_same_register : result 0x08000000#32 (regs State.reset [(0, 12345)]) 0 = some (0, true, false, .ok) := by
  decide +kernel

theorem test_mul_negatives : result 0x0C804000#32 (regs State.reset [(0, -3), (1, -4)]) 2 = some (12, false, false, .ok) := by
  decide +kernel

theorem test_mul_by_zero : result 0x0C804000#32 (regs State.reset [(0, -3), (1, 0)]) 2 = some (0, true, false, .ok) := by
  decide +kernel

theorem test_div_truncates : result 0x10804000#32 (regs State.reset [(0, -7), (1, 2)]) 2 = some (-3, false, true, .ok) := by
  decide +kernel

theorem test_div_zero : errOf 0x10804000#32 (regs State.reset [(0, 5), (1, 0)]) = some .divZero := by decide +kernel

theorem test_rem_sign_of_dividend :
    result 0x14804000#32 (regs State.reset [(0, -7), (1, 2)]) 2 = some (-1, false, true, .ok) := by decide +kernel

theorem test_rem_negative_divisor :
    result 0x14804000#32 (regs State.reset [(0, 7), (1, -2)]) 2 = some (1, false, false, .ok) := by decide +kernel

theorem test_neg : result 0x18400000#32 (regs State.reset [(0, 7)]) 1 = some (-7, false, true, .ok) := by decide +kernel

theorem test_mov_unwritten : errOf 0x1C400000#32 State.reset = some .undefOperand := by decide +kernel

theorem test_mov : result 0x1C400000#32 (regs State.reset [(0, 2790)]) 1 = some (2790, false, false, .ok) := by
  decide +kernel

theorem test_ldi_largest : result 0x23FFFFFF#32 State.reset 15 = some (4194303, false, false, .ok) := by decide +kernel

theorem test_cmp_less : result 0x24004000#32 (regs State.reset [(0, -1), (1, 0)]) 0 = some (-1, false, true, .ok) := by
  decide +kernel

theorem test_bitlen : result 0x28400000#32 (regs State.reset [(0, -8)]) 1 = some (4, false, false, .ok) := by decide +kernel

theorem test_modred_negative : result 0x40804000#32 (regs State.reset [(0, -7), (1, 3)]) 2 = some (2, false, false, .ok) := by
  decide +kernel

theorem test_modmul : result 0x44C04800#32 (regs State.reset [(0, 2790), (1, 2790), (2, 3233)]) 3 =
    some (2269, false, false, .ok) := by decide +kernel

theorem test_modexp_textbook : result 0x48C04800#32 (regs State.reset [(0, 65), (1, 17), (2, 3233)]) 3 =
    some (2790, false, false, .ok) := by decide +kernel

theorem test_modexp_zero_to_zero : result 0x48C04800#32 (regs State.reset [(0, 0), (1, 0), (2, 7)]) 3 =
    some (1, false, false, .ok) := by decide +kernel

theorem test_gcd_of_negative : result 0x4C804000#32 (regs State.reset [(0, -12), (1, 0)]) 2 =
    some (12, false, false, .ok) := by decide +kernel

theorem test_xgcd_coefficients :
    (after 0x51004000#32 (regs State.reset [(0, -240), (1, 46)])).map (fun t => [4, 5, 6].map fun r => (t.reg r).val) =
      some [2, 9, 47] := by decide +kernel

theorem test_xgcd_reads_before_it_writes :
    (after 0x50004000#32 (regs State.reset [(0, 240), (1, 46)])).map (fun t => [0, 1, 2].map fun r => (t.reg r).val) =
      some [2, -9, 47] := by decide +kernel

theorem test_modinv : result 0x54804000#32 (regs State.reset [(0, -3), (1, 7)]) 2 = some (2, false, false, .ok) := by
  decide +kernel

theorem test_modinv_not_invertible : errOf 0x54804000#32 (regs State.reset [(0, 6), (1, 9)]) = some .notInvertible := by
  decide +kernel

theorem test_mrtest_strong_liar :
    verdict 0x58000000#32 (rng (rounds (regs State.reset [(0, 25)]) 1) [0x05]) = some (true, 1, .ok) := by decide +kernel

theorem test_mrtest_witness :
    verdict 0x58000000#32 (rng (rounds (regs State.reset [(0, 561)]) 1) [0x00, 0x00]) = some (false, 0, .ok) := by
  decide +kernel

theorem test_rndb : stored 0x60000000#32 (rng (args State.reset [16, 2]) [0x5A, 0xC3]) 16 2 =
    some ([0x5A, 0xC3], 2, .ok) := by decide +kernel

theorem test_rndbelow_rejects : result 0x64400000#32 (rng (regs State.reset [(0, 94)]) [0xFF, 0x21]) 1 =
    some (33, false, false, .ok) := by decide +kernel

theorem test_rndodd_drops_high_bits : result 0x6800000C#32 (rng State.reset [0xFF, 0xFF]) 0 =
    some (4095, false, false, .ok) := by decide +kernel

theorem test_ldb_big_endian : result 0x80C00000#32 (bytes (args State.reset [0, 2]) 0 [0x0A, 0xE6]) 3 =
    some (2790, false, false, .ok) := by decide +kernel

theorem test_ldb_range_does_not_wrap : errOf 0x80C00000#32 (args State.reset [0xFFFFFFFF, 2]) = some .bufRange := by
  decide +kernel

theorem test_stb_pads : stored 0x840C0000#32 (regs (args State.reset [0, 4]) [(3, 2790)]) 0 4 =
    some ([0x00, 0x00, 0x0A, 0xE6], 4, .ok) := by decide +kernel

theorem test_stb_range_before_sign : errOf 0x840C0000#32 (regs (args State.reset [4094, 4]) [(3, -1)]) = some .bufRange := by
  decide +kernel

theorem test_stbm_minimal : stored 0x880C0000#32 (regs (args State.reset [8]) [(3, 256)]) 8 2 =
    some ([0x01, 0x00], 2, .ok) := by decide +kernel

theorem test_hash_sha1_abc : stored 0xA0000040#32 (bytes (args State.reset [0, 3, 1]) 0 [0x61, 0x62, 0x63]) 1 20 =
    some ([0xA9, 0x99, 0x3E, 0x36, 0x47, 0x06, 0x81, 0x6A, 0xBA, 0x3E, 0x25, 0x71, 0x78, 0x50, 0xC2, 0x6C, 0x9C, 0xD0,
      0xD8, 0x9D], 20, .ok) := by decide +kernel

theorem test_mgf1_sha256_abc : stored 0xA4000080#32 (bytes (args State.reset [0, 3, 64, 8]) 0 [0x61, 0x62, 0x63]) 64 8 =
    some ([0xCF, 0x2D, 0xB1, 0xAC, 0x98, 0x67, 0xDE, 0xBD], 8, .ok) := by decide +kernel

theorem test_hash_unsupported : errOf 0xA00000C0#32 State.reset = some .unsupportedHash := by decide +kernel

/-- The textbook key of 44_key.md R213. -/
def textbook (checked : Bool) : KeySlot := slotOf checked (some 3233) (some 17) (some 2753) (some 61) (some 53)

theorem test_kset_negative : errOf 0xC0044000#32 (regs State.reset [(1, -17)]) = some .invalidArgument := by decide +kernel

theorem test_kset : (after 0xC0080000#32 (regs State.reset [(2, 3233)])).map (fun t => (t.k0.n, t.kstatWord)) =
    some (⟨3233, true⟩, 0x01#32) := by decide +kernel

theorem test_kget : result 0xC5404000#32 { State.reset with k0 := textbook false } 5 = some (17, false, false, .ok) := by
  decide +kernel

theorem test_kclr : (after 0xC8000020#32 { State.reset with k1 := textbook true }).map State.kstatWord = some 0x0000#32 := by
  decide +kernel

theorem test_kchk_private :
    (after 0xCC000000#32 (rng (rounds { State.reset with k0 := textbook false } 1) [0x00, 0x00])).map
      (fun t => (t.bFlag, t.res, t.kstatWord)) = some (true, 12#32, 0x7F#32) := by decide +kernel

theorem test_kchk_composite_factor :
    errOf 0xCC000000#32 (rng (rounds { State.reset with
      k0 := slotOf false (some 3021) (some 5) (some 5) (some 57) (some 53) } 1) [0x00]) = some .invalidArgument := by
  decide +kernel

theorem test_kpub : (after 0xD0000000#32 { State.reset with k0 := textbook false, k1 := textbook true }).map State.kstatWord =
    some 0x033F#32 := by decide +kernel

/-- The key K-512 of 95_test_vectors.md 2.1, private and sealed. -/
def key512 : KeySlot :=
  slotOf true
    (some 0x90000000000000c00000000000000000000000000000000000000000000038610000000000304900000000000000000000000000000000000000000005123abb)
    (some 65537)
    (some 0x7dff82007dff82a87d5782a87d5782a87d5782a87d5782a87d5782a87d57b3fbdc0423fbdc2e62d19d2e62d19d2e62d19d2e62d19d2e62d19d2e62d1a19e1)
    (some 0xc000000000000000000000000000000000000000000000000000000000003049)
    (some 0xc000000000000100000000000000000000000000000000000000000000001ae3)

/-- K0 = K-512, K1 = its public half, "hello" at BUF[0..4]. -/
def start512 : State :=
  bytes { State.reset with k0 := key512, k1 := { key512 with d := KeyComp.absent key512.d, p := KeyComp.absent key512.p, q := KeyComp.absent key512.q, checked := false } }
    0 [0x68, 0x65, 0x6C, 0x6C, 0x6F]

/-- V-OAEP-1 and V-PSS-2: the ciphertext and the signature. -/
def cipher512 : Nat :=
  0x1f0980dcd9a124e36519642d5862e8ede2b6cebc301f8d98064bf193d8bdee7d32d1e60297a1a4a74083b772035cb90012e59c382c67e19cc1e80a5ac33e0db4
def sign512 : Nat :=
  0x275171182301e66603224fad69c38975322c5864bb5e71ef03a852ceadc5e142f7dcbf82308cf0a58beb652ed28e7666243d0ef64e518b37b498671374d6e2ae

theorem test_oaepenc_vector_1 :
    (after 0xE0000060#32 (rng (args start512 [0, 5, 64]) [1, 2, 3, 4, 5, 6, 7, 8, 9, 10, 11, 12, 13, 14, 15, 16, 17, 18, 19, 20])).map
      (fun t => (os2ip (t.memRead 64 64), t.res, t.k1.checked)) = some (cipher512, 64#32, true) := by decide +kernel

theorem test_oaepdec_vector_1 :
    stored 0xE4000040#32 ((args start512 [64, 64, 200]).memWrite 64 (i2osp cipher512 64)) 200 5 =
      some ([0x68, 0x65, 0x6C, 0x6C, 0x6F], 5, .ok) := by decide +kernel

theorem test_oaepdec_short : errOf 0xE4000040#32 (args start512 [64, 63, 200]) = some .decrypt := by decide +kernel

theorem test_psssign_vector_2 :
    (after 0xE8000040#32 (args start512 [0, 5, 64])).map (fun t => (os2ip (t.memRead 64 64), t.res)) =
      some (sign512, 64#32) := by decide +kernel

theorem test_psssign_salt_too_long : errOf 0xE8000090#32 (args start512 [0, 5, 64]) = some .encoding := by decide +kernel

theorem test_pssver_vector_2 :
    verdict 0xEC000060#32 ((args start512 [0, 5, 0, 64, 64, 0]).memWrite 64 (i2osp sign512 64)) = some (true, 1, .ok) := by
  decide +kernel

theorem test_pssver_tampered :
    verdict 0xEC000060#32 ((args start512 [0, 5, 0, 64, 64, 0]).memWrite 64 (i2osp (sign512 + 1) 64)) = some (false, 0, .ok) := by
  decide +kernel

/-! ## Host accesses of 95_test_vectors.md 3.8 -/

theorem test_buf_lanes_little_endian :
    (State.hostAccess State.reset (.write .w32 0x10000 0xE60A0000#32)).memRead 0 4 = [0x00#8, 0x00#8, 0x0A#8, 0xE6#8] := by
  decide +kernel

theorem test_byte_read_of_a_register :
    (State.hostAccess State.reset (.read .w8 0x0000C)).busOut = some ⟨true, some 0#32⟩ ∧
    (State.hostAccess State.reset (.read .w8 0x0000C)).berr = true := by decide +kernel

theorem test_cfg_write_zero : (State.hostAccess State.reset (.write .w32 0x00004 0#32)).cfgWord = 0x00000101#32 := by
  decide +kernel

theorem test_cfg_window_7 : (State.hostAccess State.reset (.write .w32 0x00004 0x0000F7FF#32)).cfgWord = 0x000001FF#32 := by
  decide +kernel

theorem test_cmd_while_busy :
    (State.hostAccess (State.reset.accept 0x20000041#32) (.write .w32 0x00008 0#32)).ovr = true := by decide +kernel

theorem test_reset_event :
    nextAnd (step { State.reset.accept 0x20000041#32 with events := [.reset] })
      (fun t => t.statusWord == 0#32 && t.lastCmd == 0#32) = true := by decide +kernel


/-! ## Witnesses: for every obligation with hypotheses, states and operands that meet them -/

/-- Whether an outcome is a next state with property P. -/
def nextWith (o : Host.Outcome State Fault Refusal) (P : State → Prop) [DecidablePred P] : Bool :=
  match o with
  | .next t => decide (P t)
  | _ => false

theorem next_with {o : Host.Outcome State Fault Refusal} {P : State → Prop} [DecidablePred P]
    (h : nextWith o P = true) : ∃ t, o = .next t ∧ P t := by
  unfold nextWith at h
  split at h
  · exact ⟨_, rfl, of_decide_eq_true h⟩
  · cases h

/-- Whether an outcome is the fault f. -/
def faultIs (o : Host.Outcome State Fault Refusal) (f : Fault) : Bool :=
  match o with
  | .fault g => decide (g = f)
  | _ => false

theorem fault_of {o : Host.Outcome State Fault Refusal} {f : Fault} (h : faultIs o f = true) : o = .fault f := by
  unfold faultIs at h
  split at h
  · exact congrArg _ (of_decide_eq_true h)
  · cases h

/-- A small block: W_BITS = 32, BUF_BYTES = 256, RETRY_LIMIT = 1. -/
def tiny : State := State.resetWith { Params.default with wBits := 32, bufBytes := 256, retryLimit := 1 }

/-- Four written registers: 240, 46, -7, 0. -/
def four : State := regs State.reset [(0, 240), (1, 46), (2, -7), (3, 0)]

theorem four_inv : four.Inv := inv_of_ok (by decide +kernel)

/-- Both slots hold keys: K0 the textbook key, not validated; K1 its public half, CHECKED. -/
def keyed : State :=
  { rng (rounds State.reset 1) [0x00, 0x00] with
    k0 := textbook false, k1 := slotOf true (some 3233) (some 17) none none none }

theorem keyed_inv : keyed.Inv := inv_of_ok (by decide +kernel)

theorem test_witness_ReservedOpcodes :
    (opOf 0x2C000000#32).toNat = 0x0B ∧ (opOf 0xFC000000#32).toNat = 0x3F ∧ State.reset.phase = .idle ∧
    (State.reset.withFetchWord 32 0xFC000000).phase = .busy ∧ (State.reset.withFetchWord 32 0xFC000000).cur = 0xFC000000#32 ∧
    (State.reset.withFetchWord 32 0xFC000000).events = [.complete] := by decide +kernel

theorem test_witness_IllegalFields :
    (let s := State.reset.withFetchWord 32 0x04804001;
      s.phase = .busy ∧ s.events = [.complete] ∧ opOf s.cur = opOf (tableMatch (.add 0 0 0)) ∧
        s.cur &&& tableMask (.add 0 0 0) ≠ tableMatch (.add 0 0 0)) ∧
    (let s := State.reset.withFetchWord 32 0x53804000;
      s.phase = .busy ∧ s.events = [.complete] ∧ opOf s.cur = 0x14#6 ∧ 13 < (rdOf s.cur).toNat) ∧
    (let s := State.reset.withFetchWord 32 0xC0014000;
      s.phase = .busy ∧ s.events = [.complete] ∧ opOf s.cur = 0x30#6 ∧ 4 < (rs2Of s.cur).toNat) ∧
    opOf 0xC4014000#32 = 0x31#6 ∧ 4 < (rs2Of 0xC4014000#32).toNat := by decide +kernel

theorem test_witness_DecodeFollows :
    decode 0x04804000#32 = .ok (.add 2 0 1) ∧
    0x04804000#32 &&& tableMask (.add 0 0 0) = tableMatch (.add 0 0 0) ∧
    (0x53804000#32 &&& tableMask (.xgcd 0 0 0) = tableMatch (.xgcd 0 0 0) ∧ opOf 0x53804000#32 = 0x14#6 ∧
      13 < (rdOf 0x53804000#32).toNat) ∧
    (0xC0014000#32 &&& tableMask (.kset .k0 .n 0) = tableMatch (.kset .k0 .n 0) ∧ 4 < (rs2Of 0xC0014000#32).toNat) ∧
    (0xC4014000#32 &&& tableMask (.kget 0 .k0 .n) = tableMatch (.kget 0 .k0 .n) ∧ 4 < (rs2Of 0xC4014000#32).toNat) := by
  decide

theorem test_witness_StepRuns :
    (State.reset.withFetchWord 32 0x04804000).phase = .busy ∧
    decode (State.reset.withFetchWord 32 0x04804000).cur = .ok (.add 2 0 1) ∧
    (State.reset.withFetchWord 32 0x04804000).events = [.complete] ∧
    (State.reset.accept 0x04804000#32).phase = .busy ∧ decode (State.reset.accept 0x04804000#32).cur = .ok (.add 2 0 1) ∧
    (State.reset.accept 0x04804000#32).events = [] := by decide +kernel

theorem test_witness_StepRuns_host :
    ({ State.reset.accept 5#32 with events := [.host (.write .w32 0x00008 7#32)] }.events =
      .host (.write .w32 0x00008 7#32) :: [] ∧
    nextWith (step { State.reset.accept 5#32 with events := [.host (.write .w32 0x00008 7#32)] })
      (fun t => t.ovr = true ∧ t.events = [] ∧ t.phase = .busy) = true) ∧
    State.reset.phase = .idle ∧ State.reset.events = [] ∧
    { State.reset with events := [.complete, .reset] }.events = .complete :: [.reset] := by decide +kernel

theorem test_witness_CmdWrite : State.reset.phase = .idle ∧ (State.reset.accept 0#32).phase = .busy := by decide

/-- The condition of SlverrExactlyOnIllegalAccesses. -/
abbrev legalAccess (s : State) (w : Width) (a : BusAddr) : Prop :=
  (a.toNat < 0x10000 ∧ w = .w32 ∧ a.toNat % 4 = 0 ∧ a.toNat ≤ 0x44) ∨
  (0x10000 ≤ a.toNat ∧ s.phase = .idle ∧ w = .w8 ∧ a.toNat - 0x10000 < s.par.bufBytes) ∨
  (0x10000 ≤ a.toNat ∧ s.phase = .idle ∧ w = .w32 ∧ a.toNat % 4 = 0 ∧ a.toNat - 0x10000 + 3 < s.par.bufBytes)

theorem test_witness_Slverr_legal :
    legalAccess State.reset .w32 0x00044 ∧ legalAccess State.reset .w8 0x10FFF ∧ legalAccess State.reset .w32 0x10FFC := by
  decide

theorem test_witness_Slverr_illegal :
    (∀ x ∈ [(Width.w32, 0x00048#17), (.w8, 0x00044#17), (.w32, 0x00002#17), (.w8, 0x11000#17), (.w32, 0x10FFE#17)],
      ¬legalAccess State.reset x.1 x.2) ∧
    ¬legalAccess (State.reset.accept 0#32) .w8 0x10000 := by decide

theorem test_witness_BufAccesses :
    State.reset.phase = .idle ∧ State.reset.par.bufBytes ≤ 65536 ∧ 4092 % 4 = 0 ∧ 4092 + 3 < State.reset.par.bufBytes ∧
    4095 < State.reset.par.bufBytes := by decide

theorem test_witness_ReadOnlyWrites :
    (0x00000 : BusAddr).toNat ∈ [0x00, 0x10, 0x14, 0x18, 0x1C, 0x40, 0x44] ∧
    (0x00044 : BusAddr).toNat ∈ [0x00, 0x10, 0x14, 0x18, 0x1C, 0x40, 0x44] := by decide

/-- The first and the last error code; ERR = 0xF in bits 7:4 beside DONE. -/
theorem test_witness_Status :
    State.reset.err = .ok ∧ (State.reset.doneWith .retryLimit).err = .retryLimit ∧
    (State.reset.doneWith .retryLimit).statusWord = 0x000000F2#32 := by decide

theorem test_witness_Identification :
    State.reset.par = Params.default ∧
    (∃ t, step State.reset = .next t ∧ t.lastCmd = State.reset.lastCmd) ∧
    (∃ t, step { State.reset.accept 5#32 with events := [.reset] } = .next t ∧ t.lastCmd = 0#32) ∧
    (∃ t, step { State.reset with events := [.host (.write .w32 0x00008 0x23FFFFFF#32)] } = .next t ∧
      t.lastCmd = 0x23FFFFFF#32) :=
  ⟨rfl, next_with (by decide +kernel), next_with (by decide +kernel), next_with (by decide +kernel)⟩

theorem test_witness_Irq :
    (let s := { State.reset with ie := true }.accept 0x20000041#32;
      s.phase = .busy ∧ s.events = [] ∧ ∃ t, step s = .next t ∧ t.irq = true) ∧
    (let s := { State.reset with ie := true }.withFetchWord 32 0x2C000000;
      s.phase = .busy ∧ s.events = [.complete] ∧ ∃ t, step s = .next t ∧ t.irq = true) ∧
    (0x2#32).getLsbD 1 = true ∧ State.reset.phase = .idle :=
  ⟨⟨rfl, rfl, next_with (by decide +kernel)⟩, ⟨rfl, rfl, next_with (by decide +kernel)⟩, by decide, rfl⟩

theorem test_witness_ResetEvent :
    { keyed.accept 0xCC000000#32 with events := [.reset, .complete] }.events = .reset :: [.complete] := rfl

theorem test_witness_ErrorsArePrecise :
    (∃ t, exec (.add 2 0 1) State.reset = .next t ∧ t.err ≠ .ok) ∧
    (∃ t, runCommand (State.reset.accept 0x2C000000#32) = .next t ∧ t.err ≠ .ok) :=
  ⟨next_with (by decide +kernel), next_with (by decide +kernel)⟩

theorem test_witness_CompletionsLeave : ∃ t, exec (.ldi 0 65) keyed = .next t ∧ t.err = .ok :=
  next_with (by decide +kernel)

theorem test_witness_ZeroAndNegative :
    (∃ t, exec (.xgcd 13 0 1) four = .next t ∧ t.err = .ok) ∧ destRegs (.xgcd 13 0 1) = [13, 14, 15] ∧
    (∃ t, exec (.cmp 0 1) four = .next t ∧ t.err = .ok) ∧
    (∃ t, exec (.stb 1) (args four [0, 4]) = .next t ∧ t.err = .ok) ∧ destRegs (.stb 1) = [] :=
  ⟨next_with (by decide +kernel), by decide, next_with (by decide +kernel), next_with (by decide +kernel), rfl⟩

theorem test_witness_OnlyListedCommands :
    (∃ t, exec (.add 4 0 1) four = .next t ∧ t.err = .ok) ∧ writesBFlag (.add 4 0 1) = false ∧
    writesRes (.add 4 0 1) = false ∧ (∃ t, exec (.div 4 0 3) four = .next t ∧ t.err ≠ .ok) :=
  ⟨next_with (by decide +kernel), rfl, rfl, next_with (by decide +kernel)⟩

theorem test_witness_RegistersOutside :
    (∃ t, exec (.xgcd 13 0 1) four = .next t ∧ t.err = .ok) ∧ (12 : RegIdx) ∉ destRegs (.xgcd 13 0 1) ∧
    (15 : RegIdx) ∈ destRegs (.xgcd 13 0 1) ∧ (four.reg 3).valid = true :=
  ⟨next_with (by decide +kernel), by decide, by decide, by decide +kernel⟩

theorem test_witness_CommandsReadOnly :
    (∀ r ∈ srcRegs (.add 2 0 1), State.reg { four with b := (four.putReg 7 9).b } r = four.reg r) ∧
    (∃ t, exec (.add 2 0 1) four = .next t ∧ t.err = .ok) := ⟨by decide +kernel, next_with (by decide +kernel)⟩

theorem test_witness_CheckedIsSet :
    ((keyed.slot .k0).checked = false ∧ ∃ t, exec (.kchk .k0) keyed = .next t ∧ (t.slot .k0).checked = true) ∧
    (keyed.slot .k1).checked = true ∧ (∃ t, exec (.kclr .k1) keyed = .next t ∧ (t.slot .k1).checked = false) ∧
    (∃ t, exec (.kpub .k0) keyed = .next t ∧ (t.slot .k1).checked = false) :=
  ⟨⟨rfl, next_with (by decide +kernel)⟩, rfl, next_with (by decide +kernel), next_with (by decide +kernel)⟩

theorem test_witness_KeysAreImmutable :
    ((∃ t, exec (.kset .k0 .n 0) (four.setSlot .k1 (textbook true)) = .next t ∧ t.err = .ok) ∧
      rewrittenSlot (.kset .k0 .n 0) ≠ some .k1) ∧
    ((∃ t, exec (.kchk .k0) keyed = .next t ∧ t.slot .k0 ≠ keyed.slot .k0) ∧
      rewrittenSlot (.kchk .k0) ≠ some .k0) ∧
    (∃ t, step (keyed.withFetchWord 32 0xC8000020) = .next t ∧ t.slot .k1 ≠ keyed.slot .k1) ∧
    (∃ t, step (keyed.withFetchWord 32 0xD0000000) = .next t ∧ t.slot .k1 ≠ keyed.slot .k1) ∧
    (∃ t, step { keyed with events := [.reset] } = .next t ∧ t.slot .k1 ≠ keyed.slot .k1) ∧
    (keyed.slot .k1).checked = true :=
  ⟨⟨next_with (by decide +kernel), by decide⟩, ⟨next_with (by decide +kernel), by decide⟩, next_with (by decide +kernel),
    next_with (by decide +kernel), next_with (by decide +kernel), rfl⟩

theorem test_witness_BufOutside :
    four.Inv ∧ (∃ t, exec (.add 2 0 1) four = .next t ∧ t.err = .ok) ∧ storeOffset (.add 2 0 1) four = none ∧
    (args four [4, 2]).Inv ∧ (∃ t, exec (.stb 1) (args four [4, 2]) = .next t ∧ t.err = .ok ∧ 4 + t.res.toNat ≤ 6) ∧
    storeOffset (.stb 1) (args four [4, 2]) = some 4 ∧
    (∃ t, exec (.stb 2) (args four [4, 2]) = .next t ∧ t.err ≠ .ok) :=
  ⟨four_inv, next_with (by decide +kernel), rfl, inv_of_ok (by decide +kernel), next_with (by decide +kernel), rfl,
    next_with (by decide +kernel)⟩

theorem test_witness_AgentsAreAsked :
    (∃ t, exec (.hash 1) (args State.reset [0, 0, 0]) = .next t ∧ t.err = .ok) ∧ drawsRandom (.hash 1) = false ∧
    (∃ t, exec .rndb (rng (args State.reset [0, 1]) [7]) = .next t ∧ t.err = .ok) ∧ usesHash .rndb = false ∧
    exec .rndb { args State.reset [0, 1] with ports := ⟨[.silent], 0, []⟩ } = .fault .rngSilent ∧
    RngAnswer.silent ∈ [RngAnswer.silent] ∧
    exec (.hash 1) { State.reset with ports := ⟨[], 0, [.silent]⟩ } = .fault .hashSilent :=
  ⟨next_with (by decide +kernel), rfl, next_with (by decide +kernel), rfl, fault_of (by decide +kernel),
    by decide, fault_of (by decide +kernel)⟩

theorem test_witness_EveryStep :
    keyed.Inv ∧ (∃ t, step keyed = .next t ∧ t.phase = .idle) ∧
    (keyed.withFetchWord 32 0xCC000000).Inv ∧ (∃ t, step (keyed.withFetchWord 32 0xCC000000) = .next t ∧ t.err = .ok) :=
  ⟨keyed_inv, next_with (by decide +kernel), inv_of_ok (by decide +kernel), next_with (by decide +kernel)⟩

theorem test_witness_MovesAndComparisons : four.Inv ∧ (four.reg 0).valid = true ∧ (four.reg 1).valid = true :=
  ⟨four_inv, by decide +kernel, by decide +kernel⟩

/-- A register at the largest magnitude, 2^4096 - 1, another at 1. -/
def full : State := regs State.reset [(0, 2 ^ 4096 - 1), (1, 1), (2, -(2 ^ 4096 - 1)), (3, 2)]

theorem test_witness_AddSubMul :
    (full.reg 0).valid = true ∧ (full.reg 1).valid = true ∧ (full.reg 2).valid = true ∧ (full.reg 3).valid = true ∧
    ((full.reg 0).val + (full.reg 2).val).natAbs < 2 ^ full.par.wBits ∧
    2 ^ full.par.wBits ≤ ((full.reg 0).val + (full.reg 1).val).natAbs ∧
    ((full.reg 0).val - (full.reg 1).val).natAbs < 2 ^ full.par.wBits ∧
    2 ^ full.par.wBits ≤ ((full.reg 2).val - (full.reg 1).val).natAbs ∧
    ((full.reg 2).val * (full.reg 1).val).natAbs < 2 ^ full.par.wBits ∧
    2 ^ full.par.wBits ≤ ((full.reg 2).val * (full.reg 3).val).natAbs := by decide +kernel

theorem test_witness_DivRem :
    four.Inv ∧ (four.reg 2).valid = true ∧ (four.reg 1).valid = true ∧ (four.reg 1).val ≠ 0 ∧
    (four.reg 3).valid = true ∧ (four.reg 3).val = 0 :=
  ⟨four_inv, by decide +kernel, by decide +kernel, by decide +kernel, by decide +kernel, by decide +kernel⟩

theorem test_witness_UnwrittenSources :
    (Instr.modexp 3 0 1 9).wellFormed = true ∧ (9 : RegIdx) ∈ srcRegs (.modexp 3 0 1 9) ∧ (four.reg 9).valid = false ∧
    (Instr.xgcd 13 9 0).wellFormed = true ∧ (9 : RegIdx) ∈ srcRegs (.xgcd 13 9 0) := by decide +kernel

theorem test_witness_ByteConversions : 255 < 256 ^ 1 ∧ 0 < 256 ^ 0 ∧ 65535 < 256 ^ 2 := by decide

theorem test_witness_BufReadsBack : (3 : Nat) < 4 ∧ 4 + [1#8, 2#8].length ≤ 6 ∧ Memory.wf start512.buf = true := by
  decide +kernel

theorem test_witness_Ldb :
    (let s := bytes (args tiny [252, 4]) 252 [0xFF, 0xFF, 0xFF, 0xFF];
      s.argLatched 0 + s.argLatched 1 ≤ s.par.bufBytes ∧
        os2ip ((List.range (s.argLatched 1)).map (fun j => s.bufByte (s.argLatched 0 + j))) < 2 ^ s.par.wBits) ∧
    (let s := bytes (args tiny [251, 5]) 251 [1, 0, 0, 0, 0];
      s.argLatched 0 + s.argLatched 1 ≤ s.par.bufBytes ∧
        2 ^ s.par.wBits ≤ os2ip ((List.range (s.argLatched 1)).map (fun j => s.bufByte (s.argLatched 0 + j)))) ∧
    (let s := args tiny [252, 5];
      s.par.bufBytes < s.argLatched 0 + s.argLatched 1) := by decide +kernel

theorem test_witness_Stb :
    (let s := args four [4094, 2];
      (s.reg 0).valid = true ∧ s.argLatched 0 + s.argLatched 1 ≤ s.par.bufBytes ∧ 0 ≤ (s.reg 0).val ∧
        (s.reg 0).val.toNat < 256 ^ s.argLatched 1 ∧ (s.reg 2).valid = true ∧ (s.reg 2).val < 0) ∧
    (let s := args four [4095, 2];
      s.par.bufBytes < s.argLatched 0 + s.argLatched 1) ∧
    (let s := args (regs four [(0, 256)]) [0, 1];
      s.argLatched 0 + s.argLatched 1 ≤ s.par.bufBytes ∧ 0 ≤ (s.reg 0).val ∧
        256 ^ s.argLatched 1 ≤ (s.reg 0).val.toNat) := by decide +kernel

theorem test_witness_Stbm :
    (let s := args (regs four [(0, 256)]) [4094];
      (s.reg 0).valid = true ∧ 0 ≤ (s.reg 0).val ∧
        s.argLatched 0 + (i2ospMin (s.reg 0).val.toNat).length ≤ s.par.bufBytes) ∧
    (let s := args (regs four [(0, 256)]) [4095];
      0 ≤ (s.reg 0).val ∧ s.par.bufBytes < s.argLatched 0 + (i2ospMin (s.reg 0).val.toNat).length) := by decide +kernel

theorem test_witness_StoredIntegers :
    (args four [8, 3]).Inv ∧
    (∃ t, exec (.stbm 0) (args four [8, 3]) = .next t ∧ t.err = .ok ∧
      nextWith (exec (.ldb 5) { t with argL := (t.argL.set 0 ((args four [8, 3]).argL[0])).set 1 t.res })
        (fun u => u.err = .ok) = true) ∧
    (∃ t, exec (.stb 0) (args four [8, 3]) = .next t ∧ t.err = .ok ∧
      nextWith (exec (.ldb 5) t) (fun u => u.err = .ok) = true) :=
  ⟨inv_of_ok (by decide +kernel), next_with (by decide +kernel), next_with (by decide +kernel)⟩

/-- Operands of the modular commands: -7, 17, 3233, 0, -5, 1. -/
def mods : State := regs State.reset [(0, -7), (1, 17), (2, 3233), (3, 0), (4, -5), (5, 1)]

theorem mods_inv : mods.Inv := inv_of_ok (by decide +kernel)

theorem test_witness_ModularResults :
    mods.Inv ∧ (mods.reg 0).valid = true ∧ (mods.reg 2).valid = true ∧ 0 < (mods.reg 2).val ∧ (mods.reg 5).valid = true ∧
    0 < (mods.reg 5).val ∧ (mods.reg 1).valid = true ∧ 0 ≤ (mods.reg 1).val ∧ 0 ≤ (mods.reg 3).val :=
  ⟨mods_inv, by decide +kernel⟩

theorem test_witness_BadModuli :
    (mods.reg 0).valid = true ∧ (mods.reg 1).valid = true ∧ (mods.reg 3).valid = true ∧ (mods.reg 3).val = 0 ∧
    (mods.reg 4).valid = true ∧ (mods.reg 4).val < 0 ∧ (mods.reg 2).valid = true ∧ 0 < (mods.reg 2).val := by
  decide +kernel

theorem test_witness_GcdAndXgcd :
    four.Inv ∧ (four.reg 2).valid = true ∧ (four.reg 3).valid = true ∧ (13 : RegIdx).toNat ≤ 13 ∧
    (four.reg 3).val = 0 := ⟨four_inv, by decide +kernel⟩

theorem test_witness_Modinv :
    mods.Inv ∧ (mods.reg 0).valid = true ∧ (mods.reg 2).valid = true ∧ 0 < (mods.reg 2).val ∧
    Int.gcd (mods.reg 0).val (mods.reg 2).val = 1 ∧ Int.gcd (mods.reg 3).val (mods.reg 2).val ≠ 1 ∧
    (mods.reg 5).val = 1 ∧ Int.gcd (mods.reg 0).val (mods.reg 5).val = 1 :=
  ⟨mods_inv, by decide +kernel⟩

theorem test_witness_Mrtest_certain :
    let s := regs State.reset [(0, 1), (1, 2), (2, 3), (3, 4)];
    (∀ r ∈ [(0 : RegIdx), 1, 2, 3], (s.reg r).valid = true) ∧ (s.reg 0).val < 2 ∧
      (s.reg 1).val = 2 ∧ (s.reg 2).val = 3 ∧ 4 ≤ (s.reg 3).val ∧ (s.reg 3).val % 2 = 0 := by decide +kernel

/-- Draws of one byte: the strong liar 5 + 2 of 25; 25's witness 0 + 2; the vector n = 7, byte FF, x = 3 of 95_test_vectors.md,
whose high bits are dropped; a rejected attempt (FF gives 31 of at most 21) before the liar's. -/
theorem test_witness_RandBelowGives :
    RandBelowGives 128 (25 - 3) ⟨[.byte 0x05#8, .byte 0x00#8], 0, []⟩ 5 ⟨[.byte 0x00#8], 0, []⟩ ∧
    RandBelowGives 128 (25 - 3) ⟨[.byte 0x00#8], 0, []⟩ 0 ⟨[], 0, []⟩ ∧
    RandBelowGives 128 (7 - 3) ⟨[.byte 0xFF#8], 0, []⟩ 3 ⟨[], 0, []⟩ ∧
    RandBelowGives 128 (25 - 3) ⟨[.byte 0xFF#8, .byte 0x05#8], 0, []⟩ 5 ⟨[], 0, []⟩ :=
  ⟨⟨[], [0x05#8], [.byte 0x00#8], by decide +kernel⟩, ⟨[], [0x00#8], [], by decide +kernel⟩,
    ⟨[], [0xFF#8], [], by decide +kernel⟩, ⟨[[0xFF#8]], [0x05#8], [], by decide +kernel⟩⟩

/-- One round that passes for 25, for 7 with a byte whose high bits are dropped, and for 25 after a rejected attempt. -/
theorem test_witness_Mrtest_drawn :
    (let s := rng (rounds (regs State.reset [(0, 25), (1, 7)]) 1) [];
      (s.reg 0).valid = true ∧ (s.reg 0).val = 25 ∧ (s.reg 1).valid = true ∧ (s.reg 1).val = 7 ∧
        [5].length = s.mrRoundsL.toNat ∧ s.par.retryLimit = 128) ∧
    BasesPass 128 25 [5] ⟨[.byte 0x05#8, .byte 0x00#8], 0, []⟩ ⟨[.byte 0x00#8], 0, []⟩ ∧
    BasesPass 128 7 [3] ⟨[.byte 0xFF#8], 0, []⟩ ⟨[], 0, []⟩ ∧
    BasesPass 128 25 [5] ⟨[.byte 0xFF#8, .byte 0x05#8], 0, []⟩ ⟨[], 0, []⟩ :=
  ⟨by decide +kernel, ⟨by decide +kernel, _, test_witness_RandBelowGives.1, rfl⟩,
    ⟨by decide +kernel, _, test_witness_RandBelowGives.2.2.1, rfl⟩, ⟨by decide +kernel, _, test_witness_RandBelowGives.2.2.2, rfl⟩⟩

theorem test_witness_Mrtest_witness :
    [5].length < (rounds State.reset 2).mrRoundsL.toNat ∧
    BasesPass 128 25 [5] ⟨[.byte 0x05#8, .byte 0x00#8], 0, []⟩ ⟨[.byte 0x00#8], 0, []⟩ ∧
    RandBelowGives 128 (25 - 3) ⟨[.byte 0x00#8], 0, []⟩ 0 ⟨[], 0, []⟩ ∧ strongProbe 25 (2 + 0) = false :=
  ⟨by decide, test_witness_Mrtest_drawn.2.1, test_witness_RandBelowGives.2.1, by decide +kernel⟩

/-- The vector n = 7, byte FF, run. -/
theorem test_mrtest_drops_high_bits :
    verdict 0x58000000#32 (rng (rounds (regs State.reset [(0, 7)]) 1) [0xFF]) = some (true, 1, .ok) := by decide +kernel

/-- The second base's draw for 25 fails; with one attempt, the first base's is rejected. -/
theorem test_witness_MillerRabinFails :
    MillerRabinFails 128 2 25 ⟨[.byte 0x05#8, .fail], 0, []⟩ .entropy ⟨[], 0, []⟩ ∧
    MillerRabinFails 1 1 25 ⟨[.byte 0xFF#8], 0, []⟩ .retryLimit ⟨[], 0, []⟩ :=
  ⟨⟨by decide, rfl, [5], ⟨[.fail], 0, []⟩, by decide,
      ⟨by decide +kernel, _, ⟨[], [0x05#8], [.fail], by decide +kernel⟩, rfl⟩,
      [], [], by decide, rfl, .inl ⟨rfl, by decide, [], by decide +kernel, rfl⟩⟩,
    ⟨by decide, rfl, [], ⟨[.byte 0xFF#8], 0, []⟩, by decide, rfl,
      [[0xFF#8]], [], by decide +kernel, rfl, .inr ⟨rfl, rfl, rfl⟩⟩⟩

theorem test_witness_MrtestNeverRejects :
    Nat.Prime 7 ∧ ((regs State.reset [(0, 7)]).reg 0).val = (7 : Nat) ∧
    (∃ t, exec (.mrtest 0) (rng (rounds (regs State.reset [(0, 7)]) 2) [0xFF, 0x00, 0x02]) = .next t ∧ t.err = .ok) :=
  ⟨by norm_num, by decide +kernel, next_with (by decide +kernel)⟩

theorem test_witness_Rndb :
    (let s := rng (args State.reset [4094, 2]) [1, 2, 3];
      s.ports.rng = [1#8, 2#8].map .byte ++ [.byte 3#8] ∧ [1#8, 2#8].length = s.argLatched 1 ∧
        s.argLatched 0 + s.argLatched 1 ≤ s.par.bufBytes) ∧
    (let s := rng (args State.reset [4095, 2]) [];
      s.ports.rng = ([] : Bytes).map .byte ++ [] ∧ s.par.bufBytes < s.argLatched 0 + s.argLatched 1) ∧
    (let s := { args State.reset [0, 2] with ports := ⟨[.byte 1#8, .fail], 0, []⟩ };
      s.ports.rng = [1#8].map .byte ++ [.fail] ∧ [1#8].length < s.argLatched 1 ∧
        [RngAnswer.fail].head? = some .fail ∧ s.argLatched 0 + s.argLatched 1 ≤ s.par.bufBytes) := by decide +kernel

theorem test_witness_Rndodd :
    (let s := rng State.reset [0xFF, 0xFF];
      s.ports.rng = [0xFF#8, 0xFF#8].map .byte ++ [] ∧ [0xFF#8, 0xFF#8].length = ceil8 (12#22).toNat ∧
        1 ≤ (12#22).toNat ∧ (12#22).toNat ≤ s.par.wBits) ∧
    (let s := { State.reset with ports := ⟨[.byte 1#8, .fail], 0, []⟩ };
      s.ports.rng = [1#8].map .byte ++ [.fail] ∧ [1#8].length < ceil8 (9#22).toNat ∧ [RngAnswer.fail].head? = some .fail ∧
        1 ≤ (9#22).toNat ∧ (9#22).toNat ≤ s.par.wBits) ∧
    [0xFF#8].length = ceil8 (1#22).toNat ∧ (4096#22).toNat ≤ State.reset.par.wBits ∧
    (0#22).toNat = 0 ∧ State.reset.par.wBits < (4097#22).toNat := by decide +kernel

theorem test_witness_Rndbelow :
    mods.Inv ∧ (mods.reg 3).valid = true ∧ (mods.reg 3).val ≤ 0 ∧ (mods.reg 4).val ≤ 0 ∧ (mods.reg 5).val = 1 ∧
    (let s := rng (regs State.reset [(0, 94)]) [0xFF, 0x21];
      (s.reg 0).valid = true ∧ 1 < (s.reg 0).val ∧
        (∀ bs ∈ [[0xFF#8]], bs.length = ceil8 (bitlen (94 - 1)) ∧ 94 ≤ os2ip bs % 2 ^ bitlen (94 - 1)) ∧
        [0x21#8].length = ceil8 (bitlen (94 - 1)) ∧ os2ip [0x21#8] % 2 ^ bitlen (94 - 1) < 94 ∧
        [[0xFF#8]].length < s.par.retryLimit ∧
        s.ports.rng = [[0xFF#8]].flatten.map .byte ++ [0x21#8].map .byte ++ []) ∧
    (let s := rng (regs tiny [(0, 94)]) [0xFF, 0x21];
      [[0xFF#8]].length = s.par.retryLimit ∧ s.ports.rng = [[0xFF#8]].flatten.map .byte ++ [.byte 0x21#8]) ∧
    (let s := { regs State.reset [(0, 94)] with ports := ⟨[.byte 0xFF#8, .fail, .byte 7#8], 0, []⟩ };
      ([] : Bytes).length < ceil8 (bitlen (94 - 1)) ∧ [[0xFF#8]].length < s.par.retryLimit ∧
        s.ports.rng = [[0xFF#8]].flatten.map .byte ++ ([] : Bytes).map .byte ++ .fail :: [.byte 7#8]) :=
  ⟨mods_inv, by decide +kernel⟩

theorem test_witness_Rndbelow_tiny_inv : (rng (regs tiny [(0, 94)]) [0xFF, 0x21]).Inv ∧
    (rng (regs State.reset [(0, 94)]) [0xFF, 0x21]).Inv := ⟨inv_of_ok (by decide +kernel), inv_of_ok (by decide +kernel)⟩

theorem test_witness_HashAndMgf1 :
    (let s := args State.reset [0, 4096, 4076, 20];
      s.hashSupported 1 = true ∧ HashAnswers s.ports ∧ s.argLatched 0 + s.argLatched 1 ≤ s.par.bufBytes ∧
        s.argLatched 2 + hLen 1 ≤ s.par.bufBytes ∧ s.argLatched 2 + s.argLatched 3 ≤ s.par.bufBytes) ∧
    State.reset.hashSupported 3 = false ∧ State.reset.hashSupported 0 = false ∧
    (let s := args State.reset [1, 4096, 4077, 20];
      s.hashSupported 2 = true ∧ s.par.bufBytes < s.argLatched 0 + s.argLatched 1 ∧
        s.par.bufBytes < s.argLatched 2 + hLen 2 ∧ s.par.bufBytes < s.argLatched 2 + s.argLatched 3) := by decide +kernel

/-- The first digest request is refused; the second of MGF1's two, and the third of OAEP's, are. -/
theorem test_witness_HashRefuses :
    HashRefuses ⟨[], 0, [.unsupported, .digest]⟩ 1 ⟨[], 0, [.digest]⟩ ∧
    HashRefuses ⟨[], 0, [.digest, .unsupported]⟩ ((21 + hLen 1 - 1) / hLen 1) ⟨[], 0, []⟩ ∧
    HashRefuses ⟨[], 0, [.digest, .digest, .unsupported]⟩ (oaepRequests 1 64) ⟨[], 0, []⟩ ∧
    HashRefuses ⟨[], 0, [.digest, .unsupported]⟩ (1 + mgf1Requests 1 (64 - hLen 1 - 1)) ⟨[], 0, []⟩ :=
  ⟨⟨0, [.digest], by decide, rfl, rfl⟩, ⟨1, [], by decide, rfl, rfl⟩, ⟨2, [], by decide, rfl, rfl⟩,
    ⟨1, [], by decide, rfl, rfl⟩⟩

theorem test_kset_then_kget :
    nextWith (exec (.kset .k1 .p 0) (regs State.reset [(0, 61)])) (fun t => t.k1.p = ⟨61, true⟩ ∧
      nextWith (exec (.kget 5 .k1 .p) t) (fun u => (u.reg 5).val = 61 ∧ u.err = .ok) = true) = true := by decide +kernel

theorem test_witness_KsetAndKget :
    keyed.Inv ∧ four.Inv ∧
    (four.reg 0).valid = true ∧ (four.slot .k1).checked = false ∧ ((four.slot .k1).comp .q).present = false ∧
    0 ≤ (four.reg 0).val ∧ (four.reg 2).valid = true ∧ (four.reg 2).val < 0 ∧
    (keyed.slot .k1).checked = true ∧ ((keyed.slot .k0).comp .n).present = true ∧
    ((keyed.slot .k1).comp .d).present = false := ⟨keyed_inv, four_inv, by decide +kernel⟩

theorem test_witness_KclrAndKpub :
    (keyed.slot .k0).n.present = true ∧ (keyed.slot .k0).e.present = true ∧ (State.reset.slot .k1).n.present = false ∧
    (slotOf false (some 3233) none none none none).e.present = false := by decide

/-- The ports left by a body that answers b. -/
def okWith (b : Bool) (r : EStateM.Result Stop Ports Bool) : Option Ports :=
  match r with
  | .ok v p => if v = b then some p else none
  | _ => none

theorem ok_with {b : Bool} {r : EStateM.Result Stop Ports Bool} {p : Ports} (h : okWith b r = some p) : r = .ok b p := by
  unfold okWith at h
  split at h
  · split at h
    · next hv => rw [Option.some.inj h, hv]
    · cases h
  · cases h

theorem keyed_private_valid : PrivateValid keyed (keyed.slot .k0) keyed.ports ⟨[], 0, []⟩ :=
  ⟨by decide +kernel, by decide +kernel, by decide +kernel,
    ⟨⟨[.byte 0x00#8], 0, []⟩, ok_with (by decide +kernel), ok_with (by decide +kernel)⟩, by decide +kernel,
    by decide +kernel⟩

/-- KeyUsable's three ways: CHECKED; public and valid; private and valid with the draws made. -/
theorem test_witness_KeyUsable :
    KeyUsable start512 .k0 start512.ports start512.ports ∧ KeyUsable start512 .k1 start512.ports start512.ports ∧
    KeyUsable keyed .k0 keyed.ports ⟨[], 0, []⟩ :=
  ⟨⟨rfl, .inl ⟨rfl, rfl⟩⟩, ⟨rfl, .inr (.inl ⟨rfl, by decide +kernel, rfl, rfl⟩)⟩, ⟨rfl, .inr (.inr ⟨rfl, keyed_private_valid⟩)⟩⟩

theorem test_witness_Kchk :
    (State.reset.slot .k0).n.present = false ∧ (slotOf false (some 3233) none none none none).e.present = false ∧
    (slotOf false (some 1) (some 3) none none none).n.val < 2 ∧ (slotOf false (some 2) (some 0) none none none).e.val < 1 ∧
    ((∃ t, exec (.kchk .k0) keyed = .next t ∧ t.err = .ok) ∧ (keyed.slot .k0).checked = false ∧
      (keyed.slot .k0).d.present = true ∧ (keyed.slot .k0).p.present = true ∧ (keyed.slot .k0).q.present = true) :=
  ⟨by decide, by decide, by decide, by decide, next_with (by decide +kernel), by decide⟩

/-- A state whose slot K0 is `k` and whose RNG list is `r`, one Miller-Rabin round, `limit` attempts. -/
def holding (k : KeySlot) (limit : Nat) (r : List RngAnswer) : State :=
  { rounds (State.resetWith { Params.default with retryLimit := limit }) 1 with k0 := k, ports := ⟨r, 0, []⟩ }

/-- KeyRefused with INVALID_ARGUMENT: n < 2, p q not n, a composite p, a composite q, a bad e, a bad d. -/
theorem test_witness_KeyRefused_invalid :
    let zero : RngAnswer := .byte 0x00#8;
    let refuses (k : KeySlot) (r : List RngAnswer) : Prop :=
      KeyRefused (holding k 1000 r) .k0 ⟨r, 0, []⟩ .invalidArgument ⟨[], 0, []⟩;
    refuses (slotOf false (some 1) (some 3) none none none) [] ∧
    refuses (slotOf false (some 3233) (some 17) (some 2753) (some 61) (some 59)) [] ∧
    refuses (slotOf false (some 3021) (some 5) (some 5) (some 57) (some 53)) [zero] ∧
    refuses (slotOf false (some 3021) (some 5) (some 5) (some 53) (some 57)) [zero, zero] ∧
    refuses (slotOf false (some 3233) (some 2) (some 2753) (some 61) (some 53)) [zero, zero] ∧
    refuses (slotOf false (some 3233) (some 17) (some 2754) (some 61) (some 53)) [zero, zero] := by
  refine ⟨⟨rfl, rfl, .inl ⟨rfl, rfl, by decide⟩⟩, ⟨rfl, rfl, .inr ⟨by decide, by decide, rfl, .inl ⟨rfl, rfl, by decide⟩⟩⟩,
    ⟨rfl, rfl, .inr ⟨by decide, by decide, rfl, .inr ⟨rfl, .inl ⟨rfl, ok_with (by decide +kernel)⟩⟩⟩⟩,
    ⟨rfl, rfl, .inr ⟨by decide, by decide, rfl, .inr ⟨rfl, .inr (.inr ⟨⟨[.byte 0x00#8], 0, []⟩, ok_with (by decide +kernel),
      .inl ⟨rfl, ok_with (by decide +kernel)⟩⟩)⟩⟩⟩,
    ⟨rfl, rfl, .inr ⟨by decide, by decide, rfl, .inr ⟨rfl, .inr (.inr ⟨⟨[.byte 0x00#8], 0, []⟩, ok_with (by decide +kernel),
      .inr (.inr ⟨rfl, ok_with (by decide +kernel), .inl (by decide +kernel)⟩)⟩)⟩⟩⟩,
    ⟨rfl, rfl, .inr ⟨by decide, by decide, rfl, .inr ⟨rfl, .inr (.inr ⟨⟨[.byte 0x00#8], 0, []⟩, ok_with (by decide +kernel),
      .inr (.inr ⟨rfl, ok_with (by decide +kernel), .inr (by decide +kernel)⟩)⟩)⟩⟩⟩⟩

/-- KeyRefused with a failing draw: ENTROPY in the test of p, RETRY_LIMIT in it, ENTROPY in the test of q. -/
theorem test_witness_KeyRefused_draws :
    KeyRefused (holding (textbook false) 1000 [.fail]) .k0 ⟨[.fail], 0, []⟩ .entropy ⟨[], 0, []⟩ ∧
    KeyRefused (holding (textbook false) 1 [.byte 0xFF#8]) .k0 ⟨[.byte 0xFF#8], 0, []⟩ .retryLimit ⟨[], 0, []⟩ ∧
    KeyRefused (holding (textbook false) 1000 [.byte 0x00#8, .fail]) .k0 ⟨[.byte 0x00#8, .fail], 0, []⟩ .entropy ⟨[], 0, []⟩ := by
  refine ⟨⟨rfl, rfl, .inr ⟨by decide, by decide, rfl, .inr ⟨rfl, .inr (.inl ⟨by decide, rfl, [], _,
      by decide, rfl, [], [], by decide, rfl, .inl ⟨rfl, by decide, [], by decide +kernel, rfl⟩⟩)⟩⟩⟩,
    ⟨rfl, rfl, .inr ⟨by decide, by decide, rfl, .inr ⟨rfl, .inr (.inl ⟨by decide, rfl, [], _,
      by decide, rfl, [[0xFF#8]], [], by decide +kernel, rfl, .inr ⟨rfl, rfl, rfl⟩⟩)⟩⟩⟩,
    ⟨rfl, rfl, .inr ⟨by decide, by decide, rfl, .inr ⟨rfl, .inr (.inr ⟨⟨[.fail], 0, []⟩, ok_with (by decide +kernel),
      .inr (.inl ⟨by decide, rfl, [], _,
        by decide, rfl, [], [], by decide, rfl, .inl ⟨rfl, by decide, [], by decide +kernel, rfl⟩⟩)⟩)⟩⟩⟩⟩

theorem test_witness_OaepDecodeInverts :
    0 < hLen 1 ∧ (([] : Bytes).length : Int) ≤ oaepCapacity 42 1 ∧ ([1#8].length : Int) ≤ oaepCapacity 43 1 ∧
    (zeros 20).length = hLen 1 ∧ 43 = ceil8 (bitlen (2 ^ 336)) := by decide +kernel

theorem test_witness_PssVerifyAccepts :
    0 < hLen 1 ∧ hLen 1 + ([] : Bytes).length + 2 ≤ ceil8 176 ∧ hLen 1 + (zeros 20).length + 2 ≤ ceil8 329 := by decide

/-- BUF holds a k-byte message representative below n; ARG0.. set for OAEP and PSS at the edges of BUF. -/
def scheme : State := (args start512 [0, 22, 4032, 4032, 64, 42]).memWrite 4032 (i2osp sign512 64)

theorem test_witness_Oaepenc :
    let s := rng scheme [1, 2, 3, 4, 5, 6, 7, 8, 9, 10, 11, 12, 13, 14, 15, 16, 17, 18, 19, 20, 21];
    s.hashSupported 1 = true ∧ HashAnswers s.ports ∧
      s.ports.rng = (([1, 2, 3, 4, 5, 6, 7, 8, 9, 10, 11, 12, 13, 14, 15, 16, 17, 18, 19, 20] : List Nat).map
        (BitVec.ofNat 8)).map .byte ++ [.byte 21#8] ∧
      KeyUsable s .k1 s.ports s.ports ∧
      s.argLatched 0 + s.argLatched 1 ≤ s.par.bufBytes ∧
      s.argLatched 2 + ceil8 (bitlen (s.slot .k1).n.val) ≤ s.par.bufBytes ∧
      s.argLatched 1 + 2 * hLen 1 + 2 ≤ ceil8 (bitlen (s.slot .k1).n.val) :=
  ⟨rfl, by decide +kernel, by decide +kernel, ⟨rfl, .inr (.inl ⟨rfl, by decide +kernel, rfl, rfl⟩)⟩, by decide +kernel⟩

/-- The RNG fails among the seed's bytes, and among a salt's. -/
theorem test_witness_Entropy :
    ((⟨[.byte 1#8, .fail], 0, []⟩ : Ports).rng = [1#8].map .byte ++ [.fail] ∧ [1#8].length < hLen 1 ∧
      [RngAnswer.fail].head? = some .fail ∧ [1#8].length < scheme.argLatched 5) ∧
    nextWith (exec (.oaepenc 1 .k1) { scheme with ports := ⟨[.byte 1#8, .fail], 0, []⟩ })
      (fun t => t.err = .entropy ∧ t.ports.rng = []) = true ∧
    nextWith (exec (.psssign 1 .k0 false) { scheme with ports := ⟨[.byte 1#8, .fail], 0, []⟩ })
      (fun t => t.err = .entropy ∧ t.ports.rng = []) = true := by decide +kernel

theorem test_witness_SchemeErrors :
    State.reset.hashSupported 3 = false ∧ State.reset.hashSupported 1 = true ∧
    (State.reset.slot .k0).hasPublic = false ∧ (start512.slot .k1).priv = false ∧
    (slotOf false none (some 17) (some 2753) (some 61) (some 53)).priv = true ∧
    (slotOf false none (some 17) (some 2753) (some 61) (some 53)).hasPublic = false ∧
    (slotOf false (some 3021) (some 5) (some 5) (some 57) (some 53)).priv = true ∧
    (KeyUsable start512 .k0 start512.ports start512.ports ∧ (start512.slot .k0).priv = true) ∧
    (let s := args start512 [4096, 1];
      s.par.bufBytes < s.argLatched 0 + s.argLatched 1) ∧
    (let s := args start512 [0, 22, 4033, 4033, 64];
      s.par.bufBytes < s.argLatched 2 + ceil8 (bitlen (s.slot .k0).n.val) ∧
        s.par.bufBytes < s.argLatched 3 + s.argLatched 4) ∧
    (let s := args start512 [0, 23, 0];
      ceil8 (bitlen (s.slot .k0).n.val) < s.argLatched 1 + 2 * hLen 1 + 2 ∧ s.argLatched 1 ≠ ceil8 (bitlen (s.slot .k0).n.val)) ∧
    (let s := args start512 [0, 64, 4075];
      s.par.bufBytes < s.argLatched 2 + (ceil8 (bitlen (s.slot .k0).n.val) - 2 * hLen 1 - 2)) ∧
    (let s := (args start512 [0, 64, 4074]).memWrite 0 (List.replicate 64 0xFF#8);
      s.argLatched 2 + (ceil8 (bitlen (s.slot .k0).n.val) - 2 * hLen 1 - 2) ≤ s.par.bufBytes ∧
        (s.slot .k0).n.val ≤ os2ip (s.memRead (s.argLatched 0) (s.argLatched 1))) :=
  ⟨rfl, rfl, rfl, rfl, rfl, rfl, rfl, ⟨⟨rfl, .inl ⟨rfl, rfl⟩⟩, rfl⟩, by decide +kernel, by decide +kernel, by decide +kernel,
    by decide +kernel, by decide +kernel⟩

/-- A ciphertext at BUF[64..127]; the message goes to the end of BUF. -/
def cipherState (c : Nat) : State := (args start512 [64, 64, 4074]).memWrite 64 (i2osp c 64)

theorem test_witness_Oaepdec :
    (let s := cipherState cipher512;
      let n := (s.slot .k0).n.val;
      let kb := ceil8 (bitlen n);
      let c := os2ip (s.memRead (s.argLatched 0) (s.argLatched 1));
      s.hashSupported 1 = true ∧ (s.slot .k0).priv = true ∧ HashAnswers s.ports ∧
        s.argLatched 0 + s.argLatched 1 ≤ s.par.bufBytes ∧
        s.argLatched 2 + (kb - 2 * hLen 1 - 2) ≤ s.par.bufBytes ∧ s.argLatched 1 = kb ∧ 2 * hLen 1 + 2 ≤ kb ∧ c < n) :=
  by decide +kernel

theorem test_witness_Oaepdec_decodes :
    let s := cipherState cipher512;
    oaepDecode 1 64 (i2osp (powMod (os2ip (s.memRead 64 64)) (s.slot .k0).d.val (s.slot .k0).n.val) 64) =
      some [0x68#8, 0x65#8, 0x6C#8, 0x6C#8, 0x6F#8] ∧
    oaepDecode 1 64 (i2osp (powMod (cipher512 - 1) (s.slot .k0).d.val (s.slot .k0).n.val) 64) = none := by decide +kernel

theorem test_witness_Oaepdec_usable :
    KeyUsable (cipherState cipher512) .k0 (cipherState cipher512).ports (cipherState cipher512).ports :=
  ⟨by decide +kernel, .inl ⟨by decide +kernel, rfl⟩⟩

theorem test_witness_Psssign :
    (KeyUsable scheme .k0 scheme.ports scheme.ports ∧ scheme.hashSupported 1 = true ∧ (scheme.slot .k0).priv = true ∧
      HashAnswers scheme.ports) ∧
    (scheme.argLatched 0 + scheme.argLatched 1 ≤ scheme.par.bufBytes ∧
      scheme.argLatched 2 + ceil8 (bitlen (scheme.slot .k0).n.val) ≤ scheme.par.bufBytes ∧
      hLen 1 + scheme.argLatched 5 + 2 ≤ ceil8 (bitlen (scheme.slot .k0).n.val - 1)) ∧
    (rng scheme (List.replicate 42 7)).ports.rng = (List.replicate 42 7#8).map .byte ++ [] ∧
    ceil8 (bitlen (scheme.slot .k0).n.val - 1) < hLen 2 + hLen 2 + 2 :=
  ⟨⟨⟨by decide +kernel, .inl ⟨by decide +kernel, rfl⟩⟩, by decide +kernel⟩, by decide +kernel, by decide +kernel,
    by decide +kernel⟩

theorem test_witness_Pssver :
    KeyUsable scheme .k1 scheme.ports scheme.ports ∧ scheme.hashSupported 1 = true ∧ HashAnswers scheme.ports ∧
    scheme.argLatched 0 + scheme.argLatched 1 ≤ scheme.par.bufBytes ∧
    scheme.argLatched 3 + scheme.argLatched 4 ≤ scheme.par.bufBytes :=
  ⟨⟨by decide +kernel, .inr (.inl ⟨by decide +kernel, by decide +kernel, by decide +kernel, rfl⟩)⟩, by decide +kernel⟩

theorem test_witness_RsaExponentiation :
    Nat.Prime 61 ∧ Nat.Prime 53 ∧ (61 : Nat) ≠ 53 ∧ 3233 = 61 * 53 ∧
    ((Nat.lcm (61 - 1) (53 - 1) : Nat) : Int) ∣ ((17 : Nat) : Int) * (2753 : Nat) - 1 ∧ 65 < 3233 ∧ 61 < 3233 :=
  ⟨by norm_num, by norm_num, by decide, by decide, by decide +kernel, by decide, by decide⟩

/-- The primes 2^149 3^14 + 1 and 2^108 3^40 + 1, and a key of them with e = 5: n has 43 bytes, room for one byte under
OAEP and for a 20-byte salt under PSS with SHA-1. -/
def bigP : Nat := 2 ^ 149 * 3 ^ 14 + 1
def bigQ : Nat := 2 ^ 108 * 3 ^ 40 + 1
def bigD : Nat := 3470399995025989237851567687620641419188979044464652331678223565

theorem pow_eq_one_of_powMod {a e m : Nat} (h : powMod a e m = 1 % m) : (a : ZMod m) ^ e = 1 := by
  rw [powMod_eq] at h
  exact_mod_cast (ZMod.natCast_eq_natCast_iff' (a ^ e) 1 m).2 h

theorem pow_ne_one_of_powMod {a e m : Nat} (h : powMod a e m ≠ 1 % m) : (a : ZMod m) ^ e ≠ 1 := by
  rw [powMod_eq] at h
  intro hc
  exact h ((ZMod.natCast_eq_natCast_iff' (a ^ e) 1 m).1 (by exact_mod_cast hc))

/-- Lucas's test for 2^i 3^j + 1. -/
theorem prime_of_powMod {a i j : Nat} (h1 : powMod a (2 ^ i * 3 ^ j) (2 ^ i * 3 ^ j + 1) = 1 % (2 ^ i * 3 ^ j + 1))
    (h2 : powMod a (2 ^ i * 3 ^ j / 2) (2 ^ i * 3 ^ j + 1) ≠ 1 % (2 ^ i * 3 ^ j + 1))
    (h3 : powMod a (2 ^ i * 3 ^ j / 3) (2 ^ i * 3 ^ j + 1) ≠ 1 % (2 ^ i * 3 ^ j + 1)) :
    (2 ^ i * 3 ^ j + 1).Prime := by
  refine lucas_primality _ (a : ZMod _) (pow_eq_one_of_powMod h1) fun q hq hd => ?_
  rw [Nat.add_sub_cancel] at hd ⊢
  rcases (Nat.Prime.dvd_mul hq).1 hd with h | h
  · rw [(Nat.prime_dvd_prime_iff_eq hq Nat.prime_two).1 (hq.dvd_of_dvd_pow h)]
    exact pow_ne_one_of_powMod h2
  · rw [(Nat.prime_dvd_prime_iff_eq hq Nat.prime_three).1 (hq.dvd_of_dvd_pow h)]
    exact pow_ne_one_of_powMod h3

theorem bigP_prime : bigP.Prime := prime_of_powMod (a := 17) (by decide +kernel) (by decide +kernel) (by decide +kernel)
theorem bigQ_prime : bigQ.Prime := prime_of_powMod (a := 5) (by decide +kernel) (by decide +kernel) (by decide +kernel)

/-- K0 the private key, CHECKED; K1 its public half, not validated; a one-byte message at BUF[0]. -/
def trip : State :=
  bytes { rng (args State.reset [0, 1, 64]) (List.replicate 20 9) with
    k0 := slotOf true (some (bigP * bigQ)) (some 5) (some bigD) (some bigP) (some bigQ)
    k1 := slotOf false (some (bigP * bigQ)) (some 5) none none none } 0 [0x2A]

theorem test_witness_RoundTrip_keys :
    HashAnswers trip.ports ∧ trip.Inv ∧ (trip.slot .k0).priv = true ∧
    (trip.slot .k0).p.val.Prime ∧ (trip.slot .k0).q.val.Prime ∧ (trip.slot .k0).p.val ≠ (trip.slot .k0).q.val ∧
    (trip.slot .k0).p.val * (trip.slot .k0).q.val = (trip.slot .k0).n.val ∧
    ((Nat.lcm ((trip.slot .k0).p.val - 1) ((trip.slot .k0).q.val - 1) : Nat) : Int) ∣
      ((trip.slot .k0).e.val : Int) * (trip.slot .k0).d.val - 1 ∧
    (trip.slot .k1).n = (trip.slot .k0).n ∧ (trip.slot .k1).e = (trip.slot .k0).e :=
  ⟨by decide +kernel, inv_of_ok (by decide +kernel), by decide +kernel, bigP_prime, bigQ_prime,
    by decide +kernel, by decide +kernel, by decide +kernel, by decide +kernel, by decide +kernel⟩

theorem test_witness_OaepRoundTrip :
    (∃ t, exec (.oaepenc 1 .k1) trip = .next t ∧ t.err = .ok ∧
      (let t' : State := { t with argL := ((t.argL.set 0 (trip.argL[2])).set 1 t.res).set 2 200#32 };
      KeyUsable t' .k0 t'.ports t'.ports ∧
      nextWith (exec (.oaepdec 1 .k0) t') (fun u => u.err = .ok ∧ u.memRead 200 1 = [0x2A#8]) = true)) ∧
    (200#32).toNat + (ceil8 (bitlen (trip.slot .k0).n.val) - 2 * hLen 1 - 2) ≤ trip.par.bufBytes := by
  obtain ⟨t, ht, he, ⟨hk, hc⟩, hu⟩ := next_with (o := exec (.oaepenc 1 .k1) trip) (P := fun t => t.err = .ok ∧
    ((t.slot .k0).hasPublic = true ∧ (t.slot .k0).checked = true) ∧
    nextWith (exec (.oaepdec 1 .k0) { t with argL := ((t.argL.set 0 (trip.argL[2])).set 1 t.res).set 2 200#32 })
      (fun u => u.err = .ok ∧ u.memRead 200 1 = [0x2A#8]) = true) (by decide +kernel)
  exact ⟨⟨t, ht, he, ⟨hk, .inl ⟨hc, rfl⟩⟩, hu⟩, by decide +kernel⟩

theorem test_witness_PssRoundTrip :
    (∃ t, exec (.psssign 1 .k0 true) trip = .next t ∧ t.err = .ok ∧
      (let t' : State := { t with argL := (t.argL.set 3 (trip.argL[2])).set 4 t.res };
      KeyUsable t' .k1 t'.ports t'.ports ∧
      nextWith (exec (.pssver 1 .k1 true) t') (fun u => u.err = .ok ∧ u.bFlag = true) = true)) ∧
    trip.argLatched 0 + trip.argLatched 1 ≤ trip.argLatched 2 ∧
    (let s := args trip [64, 1, 21];
      s.argLatched 2 + ceil8 (bitlen (s.slot .k0).n.val) ≤ s.argLatched 0) := by
  obtain ⟨t, ht, he, ⟨hk, hc, hv, hp⟩, hu⟩ := next_with (o := exec (.psssign 1 .k0 true) trip) (P := fun t => t.err = .ok ∧
    ((t.slot .k1).hasPublic = true ∧ (t.slot .k1).checked = false ∧ (t.slot .k1).PublicValid ∧ (t.slot .k1).priv = false) ∧
    nextWith (exec (.pssver 1 .k1 true) { t with argL := (t.argL.set 3 (trip.argL[2])).set 4 t.res })
      (fun u => u.err = .ok ∧ u.bFlag = true) = true) (by decide +kernel)
  exact ⟨⟨t, ht, he, ⟨hk, .inr (.inl ⟨hc, hv, hp, rfl⟩)⟩, hu⟩, by decide +kernel, by decide +kernel⟩

end Sys2Proof.Tests
end

/-! ## Byte-string conversions (00_scope.md R12)

`OS2IP` as a positional sum, `I2OSP` as its inverse at a fixed length, and the absence of a leading zero byte from
`I2OSP_min`: the most significant set bit of `x` lies in the first of its `ceil8 (bitlen x)` bytes. -/

namespace Sys2Proof.Machine

open Sys2Proof

theorem os2ip_eq_sum (bs : Bytes) :
    os2ip bs = ∑ j ∈ Finset.range bs.length, (bs.getD j 0#8).toNat * 256 ^ (bs.length - 1 - j) := by
  induction bs with
  | nil => rfl
  | cons v t ih =>
    rw [os2ip_cons, ih, List.length_cons, Finset.sum_range_succ', Nat.add_comm]
    simp only [List.getD_cons_succ, List.getD_cons_zero, Nat.add_sub_cancel, Nat.sub_zero, Nat.sub_sub,
      Nat.add_comm 1]

theorem os2ip_i2osp {x l : Nat} (h : x < 256 ^ l) : os2ip (i2osp x l) = x := by
  rw [os2ip_i2osp_mod, Nat.mod_eq_of_lt h]

theorem eq_i2osp_iff {x l : Nat} (h : x < 256 ^ l) (bs : Bytes) :
    bs = i2osp x l ↔ bs.length = l ∧ os2ip bs = x := by
  constructor
  · rintro rfl
    exact ⟨i2osp_length x l, os2ip_i2osp h⟩
  · rintro ⟨rfl, rfl⟩
    exact (i2osp_os2ip bs).symm

theorem os2ip_lt_of_head?_eq_zero {bs : Bytes} (h : bs.head? = some 0#8) : os2ip bs < 256 ^ (bs.length - 1) := by
  obtain ⟨t, rfl⟩ := List.head?_eq_some_iff.1 h
  simpa [os2ip_cons] using os2ip_lt t

theorem pow_256_ceil8_pred_le {l : Nat} (h : 0 < l) : 256 ^ (ceil8 l - 1) ≤ 2 ^ (l - 1) := by
  have : (256 : Nat) ^ (ceil8 l - 1) = 2 ^ (8 * (ceil8 l - 1)) := by rw [pow_mul]; norm_num
  rw [this]
  exact Nat.pow_le_pow_right (by norm_num) (by unfold ceil8; omega)

theorem bitlen_pos {x : Nat} (h : x ≠ 0) : 0 < bitlen x := by
  simp [bitlen, h]

theorem pow_256_ceil8_bitlen_pred_le {x : Nat} (h : x ≠ 0) : 256 ^ (ceil8 (bitlen x) - 1) ≤ x :=
  (pow_256_ceil8_pred_le (bitlen_pos h)).trans (two_pow_bitlen_le h)

@[simp] theorem i2ospMin_length (x : Nat) : (i2ospMin x).length = ceil8 (bitlen x) := i2osp_length x _

@[simp] theorem os2ip_i2ospMin (x : Nat) : os2ip (i2ospMin x) = x :=
  os2ip_i2osp (lt_256_pow_ceil8 (lt_two_pow_bitlen x))

theorem i2ospMin_head?_ne_zero (x : Nat) : (i2ospMin x).head? ≠ some 0#8 := by
  intro hz
  by_cases hx : x = 0
  · subst hx
    cases hz
  · have hlt : x < 256 ^ (ceil8 (bitlen x) - 1) := by simpa using os2ip_lt_of_head?_eq_zero hz
    exact absurd (pow_256_ceil8_bitlen_pred_le hx) hlt.not_ge

/-- Settles O34, from the positional sum, the inverse laws of the two conversions, and the bounds on `bitlen`. -/
theorem byteConversionsAreBigEndian : Obligations.ByteConversionsAreBigEndian := by
  unfold Obligations.ByteConversionsAreBigEndian
  exact ⟨os2ip_eq_sum, fun _ _ h => eq_i2osp_iff h,
    fun x => ⟨rfl, os2ip_i2ospMin x, i2ospMin_head?_ne_zero x, fun _ => bitlen_le, lt_two_pow_bitlen x⟩⟩

end Sys2Proof.Machine

/-! ## The register map (10_state.md R34..R36; 20_memory.md R61, R68)

What a 32-bit access to a register's offset reaches, and the bits of KSTAT and HCAP. -/

namespace Sys2Proof.Machine

open Sys2Proof

theorem hostRegAt_eq_some {a : Nat} {r : HostReg} (h : hostRegAt a = some r) : a % 4 = 0 ∧ a ≤ 0x44 := by
  unfold hostRegAt at h
  split at h <;> simp_all

theorem hostRegAt_eq_cmd {a : Nat} (h : hostRegAt a = some .cmd) : a = 0x08 := by
  unfold hostRegAt at h
  split at h <;> simp_all

/-- A register is reached by a 32-bit access to its offset, in any phase, and by no other access. -/
theorem State.busTarget_eq_reg {s : State} {w : Width} {a : Nat} {r : HostReg} :
    s.busTarget w a = some (.reg r) ↔ w = .w32 ∧ hostRegAt a = some r := by
  constructor
  · intro h
    unfold State.busTarget at h
    cases w <;> split at h
    case w32.isTrue =>
      simp only at h
      split at h
      · exact ⟨rfl, by simpa using h⟩
      · cases h
    all_goals simp at h
  · rintro ⟨rfl, h⟩
    obtain ⟨h4, hle⟩ := hostRegAt_eq_some h
    exact s.busTarget_reg h (by omega) h4

theorem State.hostAccess_read_reg (s : State) {a : BusAddr} {r : HostReg} (h : hostRegAt a.toNat = some r) :
    (s.hostAccess (.read .w32 a)).busOut = some ⟨false, some (s.readHostReg r)⟩ := by
  rw [hostAccess_read_of_some (busTarget_eq_reg.2 ⟨rfl, h⟩)]
  rfl

theorem State.hostAccess_write_reg (s : State) {a : BusAddr} {r : HostReg} (h : hostRegAt a.toNat = some r) (d : Word) :
    s.hostAccess (.write .w32 a d) = { s.writeHostReg r d with busOut := some ⟨false, none⟩ } :=
  hostAccess_write_of_some (busTarget_eq_reg.2 ⟨rfl, h⟩)

/-! ### KSTAT -/

theorem KeySlot.statByte_bits (ks : KeySlot) :
    ks.statByte.getLsbD 0 = ks.n.present ∧ ks.statByte.getLsbD 1 = ks.e.present ∧
    ks.statByte.getLsbD 2 = ks.d.present ∧ ks.statByte.getLsbD 3 = ks.p.present ∧
    ks.statByte.getLsbD 4 = ks.q.present ∧ ks.statByte.getLsbD 5 = ks.priv ∧
    ks.statByte.getLsbD 6 = ks.checked ∧ ks.statByte.getLsbD 7 = false := by
  simp only [KeySlot.statByte, BitVec.getLsbD_append]
  simp

theorem State.kstatWord_getLsbD_k0 (s : State) {i : Nat} (h : i < 8) :
    s.kstatWord.getLsbD i = (s.slot .k0).statByte.getLsbD i := by
  simp only [State.kstatWord, State.slot, BitVec.getLsbD_append, h, if_true]

theorem State.kstatWord_getLsbD_k1 (s : State) {i : Nat} (h : i < 8) :
    s.kstatWord.getLsbD (8 + i) = (s.slot .k1).statByte.getLsbD i := by
  simp only [State.kstatWord, State.slot, BitVec.getLsbD_append]
  simp [h]

theorem State.kstatWord_high (s : State) : s.kstatWord.extractLsb' 16 16 = 0#16 := by
  refine BitVec.eq_of_getLsbD_eq fun i hi => ?_
  simp only [State.kstatWord, BitVec.getLsbD_extractLsb', BitVec.getLsbD_append]
  interval_cases i <;> simp

/-- Settles O13, from the bits of one slot's byte and its place in the word. -/
theorem kstatShowsTheKeySlots : Obligations.KstatShowsTheKeySlots := by
  unfold Obligations.KstatShowsTheKeySlots
  refine ⟨fun s => ⟨s.hostAccess_read_reg (r := .kstat) rfl, s.kstatWord_high, fun k => ?_,
    s.hostAccess_write_reg (r := .kstat) rfl⟩, by decide⟩
  have h := (s.slot k).statByte_bits
  cases k with
  | k0 => simpa only [State.kstatWord_getLsbD_k0, KeySlot.priv, Nat.zero_add, Nat.reduceLT] using h
  | k1 => simpa only [State.kstatWord_getLsbD_k1, KeySlot.priv, Nat.reduceLT] using h

/-! ### HCAP and the constant registers -/

theorem State.hcapWord_getLsbD (s : State) (h : HashId) : s.hcapWord.getLsbD h.toNat = s.hashSupported h := by
  unfold State.hcapWord State.hashSupported
  generalize s.par.sha224 = a, s.par.sha384 = b, s.par.sha512 = c
  revert a b c h
  decide

theorem State.hcapWord_high (s : State) : s.hcapWord.extractLsb' 16 16 = 0#16 := by
  refine BitVec.eq_of_getLsbD_eq fun i hi => ?_
  simp only [State.hcapWord, BitVec.getLsbD_extractLsb', BitVec.getLsbD_append]
  interval_cases i <;> simp

theorem State.hcapWord_of_default {s : State} (h : s.par = Params.default) : s.hcapWord = 0x00000006#32 := by
  unfold State.hcapWord
  rw [h]
  decide

/-- ID, BUFSIZE, WBITS and HCAP show the parameters and nothing else of the state. -/
theorem State.readHostReg_of_par_eq {s t : State} (h : t.par = s.par) :
    ∀ r ∈ [HostReg.id, .bufSize, .wBits, .hcap], t.readHostReg r = s.readHostReg r := by
  simp [State.readHostReg, State.hcapWord, h]

end Sys2Proof.Machine

/-! ## What a command leaves to the host, and what a step can do (10_state.md R34, R40; 20_memory.md R71) -/

namespace Sys2Proof.Machine

open Sys2Proof

/-- A command's writes reach the big registers, the key slots, BUF, the flags and RES only. -/
theorem Effect.frame {i : Instr} {s u : State} (h : Effect i s u) :
    u = { s with
      b := u.b, k0 := u.k0, k1 := u.k1, buf := u.buf, z := u.z, n := u.n, bFlag := u.bFlag, res := u.res } := by
  cases i
  case xgcd =>
    obtain ⟨_, g, x, y, _, _, _, rfl⟩ := h
    rfl
  case mrtest =>
    obtain ⟨r, rfl⟩ := h
    rfl
  case nop | cmp => exact h ▸ rfl
  case stb | stbm | rndb | hash | mgf1 =>
    obtain ⟨bs, _, rfl⟩ := h
    rfl
  case kset k c a =>
    obtain ⟨_, _, _, rfl⟩ := h
    cases k <;> rfl
  case kclr k =>
    obtain rfl : u = _ := h
    cases k <;> rfl
  case kchk k =>
    obtain ⟨_, rfl⟩ := h
    cases k <;> rfl
  case kpub k =>
    obtain ⟨_, rfl⟩ := h
    cases k <;> rfl
  case oaepenc k | oaepdec k =>
    obtain ⟨_, bs, _, rfl⟩ := h
    cases k <;> rfl
  case psssign k _ =>
    obtain ⟨_, bs, _, rfl⟩ := h
    cases k <;> rfl
  case pssver k _ =>
    obtain ⟨_, r, rfl⟩ := h
    cases k <;> rfl
  all_goals
    obtain ⟨v, _, rfl⟩ := h
    rfl

/-- A command, completed with or without an error, leaves the host's state: the settings, the arguments, LASTCMD and the
latched copies, OVR and BERR, the parameters, the events to come, the last bus answer and the count of resets. -/
theorem exec_frame {i : Instr} {s t : State} (h : exec i s = .next t) :
    t = { s with
      b := t.b, k0 := t.k0, k1 := t.k1, buf := t.buf, z := t.z, n := t.n, bFlag := t.bFlag, res := t.res
      ports := t.ports, phase := .idle, done := true, err := t.err } := by
  rcases exec_next h with ⟨u, p, hu, rfl, _⟩ | ⟨e, p, _, rfl, _⟩
  · exact congrArg (State.completeWith · .ok p) hu.frame
  · rfl

/-- A completion event is the command in progress, decoded or refused, or nothing. -/
theorem completeEvent_next {s t : State} (h : completeEvent s = .next t) :
    (s.phase = .idle ∧ t = s) ∨
    (s.phase = .busy ∧ ((∃ i, decode s.cur = .ok i ∧ exec i s = .next t) ∨
      (∃ e, decode s.cur = .error e ∧ t = s.illegal))) := by
  unfold completeEvent at h
  split at h
  · next hp =>
    refine .inr ⟨hp, ?_⟩
    unfold runCommand at h
    split at h
    · next i hi => exact .inl ⟨i, hi, h⟩
    · next e he => exact .inr ⟨e, he, by simpa using h.symm⟩
  · next hp => exact .inl ⟨hp, by simpa using h.symm⟩

/-- A step is a completion event, listed or for want of a listed event, a host access, or a reset. -/
theorem step_next {s t : State} (h : step s = .next t) :
    (∃ es, (s.events = .complete :: es ∨ s.events = [] ∧ es = []) ∧ completeEvent { s with events := es } = .next t) ∨
    (∃ x es, s.events = .host x :: es ∧ t = State.hostAccess { s with events := es } x) ∨
    (∃ es, s.events = .reset :: es ∧ t = State.resetEvent { s with events := es }) := by
  unfold step at h
  split at h
  · next he => exact .inl ⟨[], .inr ⟨he, rfl⟩, by rw [← he]; exact h⟩
  · next es he => exact .inl ⟨es, .inl he, h⟩
  · next x es he => exact .inr (.inl ⟨x, es, he, by simpa using h.symm⟩)
  · next es he => exact .inr (.inr ⟨es, he, by simpa using h.symm⟩)

/-! ### The parameters and LASTCMD along a step (10_state.md R34) -/

theorem exec_par {i : Instr} {s t : State} (h : exec i s = .next t) : t.par = s.par := by
  rw [exec_frame h]

theorem exec_lastCmd {i : Instr} {s t : State} (h : exec i s = .next t) : t.lastCmd = s.lastCmd := by
  rw [exec_frame h]

theorem completeEvent_par_lastCmd {s t : State} (h : completeEvent s = .next t) :
    t.par = s.par ∧ t.lastCmd = s.lastCmd := by
  rcases completeEvent_next h with ⟨_, rfl⟩ | ⟨_, ⟨i, _, hi⟩ | ⟨e, _, rfl⟩⟩
  · exact ⟨rfl, rfl⟩
  · exact ⟨exec_par hi, exec_lastCmd hi⟩
  · exact ⟨rfl, rfl⟩

theorem step_par {s t : State} (h : step s = .next t) : t.par = s.par := by
  rcases step_next h with ⟨es, _, hc⟩ | ⟨x, es, _, rfl⟩ | ⟨es, _, rfl⟩
  · exact (completeEvent_par_lastCmd hc).1
  · exact (State.hostAccess_frame _ x).1
  · rfl

/-- A register write sets LASTCMD only where it is a command's acceptance. -/
theorem State.writeHostReg_lastCmd (s : State) (r : HostReg) (d : Word) :
    (s.writeHostReg r d).lastCmd = s.lastCmd ∨
    (r = .cmd ∧ s.phase = .idle ∧ (s.writeHostReg r d).lastCmd = d) := by
  cases r with
  | cmd =>
    cases hp : s.phase with
    | idle => exact .inr ⟨rfl, rfl, by simp [State.writeHostReg, State.writeCmd, hp]⟩
    | busy => exact .inl (by simp [State.writeHostReg, State.writeCmd, hp])
  | status =>
    refine .inl ?_
    simp only [State.writeHostReg, State.writeStatus]
    split <;> rfl
  | _ => exact .inl rfl

/-- A host access sets LASTCMD only where it is a 32-bit write to CMD in an idle block. -/
theorem State.hostAccess_lastCmd (s : State) (x : Txn) :
    (s.hostAccess x).lastCmd = s.lastCmd ∨
    (∃ w, x = .write .w32 0x00008 w ∧ s.phase = .idle ∧ (s.hostAccess x).lastCmd = w) := by
  cases x with
  | read w a =>
    rw [hostAccess_read]
    split <;> exact .inl rfl
  | write w a d =>
    cases hg : s.busTarget w a.toNat with
    | none => exact .inl (by rw [hostAccess_write_of_none hg])
    | some g =>
      rw [hostAccess_write_of_some hg]
      cases g with
      | bufByte i => exact .inl rfl
      | bufWord i => exact .inl rfl
      | reg r =>
        refine (s.writeHostReg_lastCmd r d).imp id ?_
        rintro ⟨rfl, hp, hl⟩
        obtain ⟨rfl, ha⟩ := busTarget_eq_reg.1 hg
        obtain rfl : a = 0x00008 := BitVec.eq_of_toNat_eq (hostRegAt_eq_cmd ha)
        exact ⟨d, rfl, hp, hl⟩

theorem step_lastCmd {s t : State} (h : step s = .next t) :
    t.lastCmd = s.lastCmd ∨ (∃ es, s.events = .reset :: es ∧ t.lastCmd = 0#32) ∨
    (∃ w es, s.events = .host (.write .w32 0x00008 w) :: es ∧ s.phase = .idle ∧ t.lastCmd = w) := by
  rcases step_next h with ⟨es, _, hc⟩ | ⟨x, es, he, rfl⟩ | ⟨es, he, rfl⟩
  · exact .inl (completeEvent_par_lastCmd hc).2
  · rcases State.hostAccess_lastCmd { s with events := es } x with hl | ⟨w, rfl, hp, hl⟩
    · exact .inl hl
    · exact .inr (.inr ⟨w, es, he, hp, hl⟩)
  · exact .inr (.inl ⟨es, he, rfl⟩)

/-- Settles O14, from the register map, the bits of HCAP, and what a step does to the parameters and LASTCMD. -/
theorem identificationRegistersAreConstant : Obligations.IdentificationRegistersAreConstant := by
  unfold Obligations.IdentificationRegistersAreConstant
  intro s
  exact ⟨s.hostAccess_read_reg (r := .id) rfl, s.hostAccess_read_reg (r := .bufSize) rfl,
    s.hostAccess_read_reg (r := .wBits) rfl,
    ⟨s.hcapWord, s.hostAccess_read_reg (r := .hcap) rfl, s.hcapWord_getLsbD, s.hcapWord_high,
      State.hcapWord_of_default⟩,
    s.hostAccess_read_reg (r := .lastCmd) rfl,
    fun _ h => ⟨State.readHostReg_of_par_eq (step_par h), step_lastCmd h⟩⟩

end Sys2Proof.Machine

/-! ## Z and N (10_state.md R27) -/

namespace Sys2Proof.Machine

open Sys2Proof

/-- Z and N say of the value in register `d` whether it is 0 and whether it is negative. -/
def State.FlagsDescribe (u : State) (d : RegIdx) : Prop :=
  u.z = decide ((u.reg d).val = 0) ∧ u.n = decide ((u.reg d).val < 0)

theorem OneResult.flagsDescribe {s u : State} {d : RegIdx} (h : OneResult s d u) : u.FlagsDescribe d := by
  obtain ⟨v, _, rfl⟩ := h
  simp [State.FlagsDescribe]

/-- XGCD's later destinations RD+1 and RD+2 (mod 16) are not RD, so the gcd stays in RD. -/
theorem State.flagsDescribe_threeResults (s : State) (d : RegIdx) (g x y : Int) :
    ((((s.putReg d g).putReg (d + 1) x).putReg (d + 2) y).flagsOf g).FlagsDescribe d := by
  simp [State.FlagsDescribe, State.putReg_reg]

theorem Effect.flagsDescribe {i : Instr} {s u : State} {d : RegIdx} {ds : List RegIdx} (h : Effect i s u)
    (hd : destRegs i = d :: ds) : u.FlagsDescribe d := by
  cases i
  case xgcd =>
    obtain ⟨_, g, x, y, _, _, _, rfl⟩ := h
    cases hd
    exact s.flagsDescribe_threeResults d g x y
  all_goals cases hd
  all_goals exact OneResult.flagsDescribe h

theorem OneStore.flags_kept {s t u : State} {off : Nat} (h : OneStore s t off u) : u.z = t.z ∧ u.n = t.n := by
  obtain ⟨bs, _, rfl⟩ := h
  exact ⟨rfl, rfl⟩

/-- A command with no destination register leaves Z and N, unless it is CMP. -/
theorem Effect.flags_kept {i : Instr} {s u : State} (h : Effect i s u) (hd : destRegs i = [])
    (hc : ∀ a b, i ≠ .cmp a b) : u.z = s.z ∧ u.n = s.n := by
  cases i
  case cmp a b => exact absurd rfl (hc a b)
  case nop => exact h ▸ ⟨rfl, rfl⟩
  case mrtest =>
    obtain ⟨r, rfl⟩ := h
    exact ⟨rfl, rfl⟩
  case stb | stbm | rndb | hash | mgf1 => exact OneStore.flags_kept h
  case kset =>
    obtain ⟨_, _, _, rfl⟩ := h
    simp
  case kclr =>
    obtain rfl : u = _ := h
    simp
  case kchk | kpub =>
    obtain ⟨_, rfl⟩ := h
    simp
  case oaepenc | oaepdec | psssign => simpa using OneStore.flags_kept h.2
  case pssver =>
    obtain ⟨_, r, rfl⟩ := h
    simp
  all_goals cases hd

/-- Settles O20, from what each command's effect does to the two flags: an error leaves both. -/
theorem zeroAndNegativeFollowTheResult : Obligations.ZeroAndNegativeFollowTheResult := by
  unfold Obligations.ZeroAndNegativeFollowTheResult
  intro i s t h
  rcases exec_next h with ⟨u, p, hu, rfl, _⟩ | ⟨e, p, he, rfl, _⟩
  · refine ⟨fun rd rest hd _ => hu.flagsDescribe hd, ?_, hu.flags_kept⟩
    rintro a b rfl _
    obtain rfl : u = _ := hu
    exact ⟨rfl, rfl⟩
  · exact ⟨fun _ _ _ hok => absurd hok he, fun _ _ _ hok => absurd hok he, fun _ _ => ⟨rfl, rfl⟩⟩

end Sys2Proof.Machine

/-! ## Which accesses the bus allows, and a write of CMD (20_memory.md R61, R65, R67, R69) -/

namespace Sys2Proof.Machine

open Sys2Proof

/-- The map has a register at every multiple of 4 up to LASTCMD's offset, and nowhere else. -/
theorem hostRegAt_isSome_iff {a : Nat} : (hostRegAt a).isSome ↔ a % 4 = 0 ∧ a ≤ 0x44 := by
  constructor
  · intro h
    obtain ⟨r, hr⟩ := Option.isSome_iff_exists.1 h
    exact hostRegAt_eq_some hr
  · rintro ⟨h4, hle⟩
    have hmap : ∀ a < 0x45, a % 4 = 0 → (hostRegAt a).isSome := by decide
    exact hmap a (by omega) h4

theorem State.busTarget_eq_bufByte {s : State} {w : Width} {a i : Nat} :
    s.busTarget w a = some (.bufByte i) ↔ w = .w8 ∧ s.phase = .idle ∧ a = 0x10000 + i ∧ i < s.par.bufBytes := by
  refine ⟨busTarget_bufByte, ?_⟩
  rintro ⟨rfl, hp, rfl, hi⟩
  simp [State.busTarget, hp, hi]

theorem State.busTarget_eq_bufWord {s : State} {w : Width} {a i : Nat} :
    s.busTarget w a = some (.bufWord i) ↔
      w = .w32 ∧ s.phase = .idle ∧ a = 0x10000 + i ∧ i % 4 = 0 ∧ i + 3 < s.par.bufBytes := by
  refine ⟨busTarget_bufWord, ?_⟩
  rintro ⟨rfl, hp, rfl, h4, hi⟩
  simp [State.busTarget, hp, h4, hi]

/-- The accesses that reach something: a register, a byte of BUF, or a word of BUF. -/
theorem State.exists_busTarget_iff {s : State} {w : Width} {a : Nat} :
    (∃ g, s.busTarget w a = some g) ↔
      (a < 0x10000 ∧ w = .w32 ∧ a % 4 = 0 ∧ a ≤ 0x44) ∨
      (0x10000 ≤ a ∧ s.phase = .idle ∧ w = .w8 ∧ a - 0x10000 < s.par.bufBytes) ∨
      (0x10000 ≤ a ∧ s.phase = .idle ∧ w = .w32 ∧ a % 4 = 0 ∧ a - 0x10000 + 3 < s.par.bufBytes) := by
  constructor
  · rintro ⟨g, hg⟩
    cases g with
    | reg r =>
      obtain ⟨hw, hr⟩ := busTarget_eq_reg.1 hg
      obtain ⟨h4, hle⟩ := hostRegAt_eq_some hr
      exact .inl ⟨by omega, hw, h4, hle⟩
    | bufByte i =>
      obtain ⟨hw, hp, ha, hi⟩ := busTarget_eq_bufByte.1 hg
      exact .inr (.inl ⟨by omega, hp, hw, by omega⟩)
    | bufWord i =>
      obtain ⟨hw, hp, ha, h4, hi⟩ := busTarget_eq_bufWord.1 hg
      exact .inr (.inr ⟨by omega, hp, hw, by omega, by omega⟩)
  · rintro (⟨_, hw, hreg⟩ | ⟨ha, hp, hw, hi⟩ | ⟨ha, hp, hw, h4, hi⟩)
    · obtain ⟨r, hr⟩ := Option.isSome_iff_exists.1 (hostRegAt_isSome_iff.2 hreg)
      exact ⟨.reg r, busTarget_eq_reg.2 ⟨hw, hr⟩⟩
    · exact ⟨.bufByte (a - 0x10000), busTarget_eq_bufByte.2 ⟨hw, hp, by omega, hi⟩⟩
    · exact ⟨.bufWord (a - 0x10000), busTarget_eq_bufWord.2 ⟨hw, hp, by omega, by omega, hi⟩⟩

/-- Settles O8: an access reaches something exactly when it is legal, and its answer says which. -/
theorem slverrExactlyOnIllegalAccesses : Obligations.SlverrExactlyOnIllegalAccesses := by
  unfold Obligations.SlverrExactlyOnIllegalAccesses
  intro s w a d legal
  have hlegal : (∃ g, s.busTarget w a.toNat = some g) ↔ legal := State.exists_busTarget_iff
  constructor
  · intro h
    obtain ⟨g, hg⟩ := hlegal.2 h
    rw [State.hostAccess_read_of_some hg, State.hostAccess_write_of_some hg]
    exact ⟨⟨s.readTarget g, rfl⟩, rfl⟩
  · intro h
    have hnone : s.busTarget w a.toNat = none :=
      Option.eq_none_iff_forall_ne_some.2 fun g hg => h (hlegal.1 ⟨g, hg⟩)
    exact ⟨State.hostAccess_read_of_none hnone, State.hostAccess_write_of_none hnone⟩

theorem State.writeCmd_of_idle {s : State} (h : s.phase = .idle) (w : Word) : s.writeCmd w = s.accept w := by
  rw [State.writeCmd, h]

theorem State.writeCmd_of_busy {s : State} (h : s.phase = .busy) (w : Word) :
    s.writeCmd w = { s with ovr := true } := by
  rw [State.writeCmd, h]

theorem State.hostAccess_write_cmd (s : State) (w : Word) :
    s.hostAccess (.write .w32 0x00008 w) = { s.writeCmd w with busOut := some ⟨false, none⟩ } :=
  s.hostAccess_write_reg (r := .cmd) rfl w

/-- Settles O7, from the effect of a CMD write in each phase. -/
theorem cmdWriteAcceptsOrIsDropped : Obligations.CmdWriteAcceptsOrIsDropped := by
  unfold Obligations.CmdWriteAcceptsOrIsDropped
  intro s w
  rw [State.hostAccess_write_cmd]
  constructor
  · intro h
    rw [State.writeCmd_of_idle h]
    rfl
  · intro h
    rw [State.writeCmd_of_busy h]

end Sys2Proof.Machine

/-! ## Words that are no command (30_encoding.md R97..R100) -/

namespace Sys2Proof.Machine

open Sys2Proof

/-! ### What the decoder refuses -/

theorem selectRow_eq_ok {w mask mtch : Word} {r : Except DecodeError Instr} {i : Instr} :
    selectRow w mask mtch r = .ok i ↔ w &&& mask = mtch ∧ r = .ok i := by
  unfold selectRow
  split <;> simp [*]

theorem selectRow_of_ne {w mask mtch : Word} (h : w &&& mask ≠ mtch) (r : Except DecodeError Instr) :
    selectRow w mask mtch r = .error .nonzeroUnusedField :=
  if_neg h

/-- A row that answers an error refuses the word, whether or not the word meets its mask and match. -/
theorem selectRow_error (w mask mtch : Word) (e : DecodeError) : ∃ e', selectRow w mask mtch (.error e) = .error e' := by
  unfold selectRow
  split
  · exact ⟨e, rfl⟩
  · exact ⟨_, rfl⟩

/-- The opcode alone selects the row: its mask and match are what the rest of the word is tested against. -/
theorem decode_eq_selectRow {w : Word} {i : Instr} (h : opOf w = opOf (tableMatch i)) :
    ∃ r, decode w = selectRow w (tableMask i) (tableMatch i) r := by
  unfold decode
  rw [h]
  cases i
  all_goals
    simp only [tableMatch, opOf]
    exact ⟨_, rfl⟩

theorem decode_of_and_tableMask_ne {w : Word} {i : Instr} (hop : opOf w = opOf (tableMatch i))
    (hm : w &&& tableMask i ≠ tableMatch i) : decode w = .error .nonzeroUnusedField := by
  obtain ⟨r, hr⟩ := decode_eq_selectRow hop
  rw [hr, selectRow_of_ne hm]

theorem decode_of_xgcd_rd {w : Word} (hop : opOf w = 0x14#6) (hrd : 13 < (rdOf w).toNat) :
    ∃ e, decode w = .error e := by
  simp only [decode, hop, if_pos hrd]
  exact selectRow_error ..

theorem decode_of_component {w : Word} (hop : opOf w = 0x30#6 ∨ opOf w = 0x31#6) (hc : 4 < (rs2Of w).toNat) :
    ∃ e, decode w = .error e := by
  rcases hop with hop | hop
  all_goals
    simp only [decode, hop, compOfBits_eq_none.2 hc]
    exact selectRow_error ..

/-- The opcodes the map leaves out (30_encoding.md R97). -/
def reservedOpcodes : List Nat :=
  [0x0B, 0x0C, 0x0D, 0x0E, 0x0F, 0x17, 0x1B, 0x1C, 0x1D, 0x1E, 0x1F, 0x23, 0x24, 0x25, 0x26, 0x27,
    0x2A, 0x2B, 0x2C, 0x2D, 0x2E, 0x2F, 0x35, 0x36, 0x37, 0x3C, 0x3D, 0x3E, 0x3F]

theorem decode_of_mem_reservedOpcodes {w : Word} (h : (opOf w).toNat ∈ reservedOpcodes) :
    decode w = .error .reservedOpcode := by
  unfold decode
  split
  case h_36 => rfl
  all_goals next hop => exact absurd h (by rw [hop]; decide)

/-! ### What the decoder accepts -/

/-- A decoded word meets the mask and match of its command's row (30_encoding.md R94). -/
theorem and_tableMask_of_decode {w : Word} {i : Instr} (h : decode w = .ok i) : w &&& tableMask i = tableMatch i := by
  unfold decode at h
  split at h
  case h_36 => cases h
  all_goals obtain ⟨hm, hr⟩ := selectRow_eq_ok.1 h
  case h_16 | h_27 | h_28 => -- XGCD, KSET and KGET, whose rows answer a command for some field values only
    split at hr <;> cases hr
    exact hm
  all_goals
    cases hr
    exact hm

theorem decode_eq_nop_iff (w : Word) : decode w = .ok .nop ↔ w = 0x00000000#32 := by
  constructor
  · intro h
    have hm : w &&& BitVec.allOnes 32 = 0#32 := and_tableMask_of_decode h
    rwa [BitVec.and_allOnes] at hm
  · rintro rfl
    rfl

/-! ### The completion of a refused word -/

theorem State.illegal_eq_doneWith (s : State) : s.illegal = s.doneWith .illegalCmd := rfl

theorem step_of_decode_error {s : State} {es : List Event} {e : DecodeError} (hp : s.phase = .busy)
    (he : s.events = .complete :: es) (hd : decode s.cur = .error e) :
    step s = .next ({ s with events := es }.doneWith .illegalCmd) := by
  simp only [step, he, completeEvent, hp, runCommand, hd, State.illegal_eq_doneWith]

/-- Settles O4: the acceptance is that of any word, and the decoder refuses every reserved opcode. -/
theorem reservedOpcodesCompleteIllegal : Obligations.ReservedOpcodesCompleteIllegal := by
  unfold Obligations.ReservedOpcodesCompleteIllegal
  intro s w es hop
  constructor
  · intro hp
    rw [State.hostAccess_write_cmd, State.writeCmd_of_idle hp]
    exact ⟨rfl, rfl⟩
  · rintro hp rfl he
    exact step_of_decode_error hp he (decode_of_mem_reservedOpcodes hop)

/-- Settles O5: the decoder refuses each of the three kinds of illegal field values. -/
theorem illegalFieldsCompleteIllegal : Obligations.IllegalFieldsCompleteIllegal := by
  unfold Obligations.IllegalFieldsCompleteIllegal
  refine ⟨decode_eq_nop_iff, fun s es hp he hbad => ?_⟩
  obtain ⟨e, hd⟩ : ∃ e, decode s.cur = .error e := by
    rcases hbad with ⟨i, hop, hm⟩ | ⟨hop, hrd⟩ | ⟨hop, hc⟩
    · exact ⟨_, decode_of_and_tableMask_ne hop hm⟩
    · exact decode_of_xgcd_rd hop hrd
    · exact decode_of_component hop hc
  exact step_of_decode_error hp he hd

end Sys2Proof.Machine

/-! ## The OAEP encoding (45_oaep.md R225..R229)

Masking a byte string twice with the same mask gives it back, so decoding recovers first the seed from the masked data
block, then the data block from the seed; in the data block the first byte after lHash that is not 0x00 is the 0x01 before
the message. -/

namespace Sys2Proof.Machine

open Sys2Proof

theorem xorBytes_xorBytes_cancel {a b : Bytes} (h : a.length ≤ b.length) : xorBytes (xorBytes a b) b = a := by
  induction a generalizing b with
  | nil => rfl
  | cons v t ih =>
    cases b with
    | nil => simp at h
    | cons w u =>
      have ht : xorBytes (xorBytes t u) u = t := ih (by simpa using h)
      simpa [xorBytes, BitVec.xor_assoc] using ht

@[simp] theorem skipZeros_zeros_append (n : Nat) (bs : Bytes) : skipZeros (zeros n ++ bs) = skipZeros bs := by
  induction n with
  | zero => rfl
  | succ n ih => simpa [zeros, List.replicate_succ, skipZeros] using ih

/-! ### The parts of an encoded message -/

/-- DB: lHash, the zero padding, 0x01 and the message. -/
def oaepDb (h : HashId) (k : Nat) (m : Bytes) : Bytes :=
  hashFn h [] ++ zeros (k - m.length - 2 * hLen h - 2) ++ 0x01#8 :: m

/-- DB masked by the seed. -/
def oaepMaskedDb (h : HashId) (k : Nat) (m seed : Bytes) : Bytes :=
  xorBytes (oaepDb h k m) (mgf1Fn h seed (k - hLen h - 1))

/-- The seed masked by the masked DB. -/
def oaepMaskedSeed (h : HashId) (k : Nat) (m seed : Bytes) : Bytes :=
  xorBytes seed (mgf1Fn h (oaepMaskedDb h k m seed) (hLen h))

theorem oaepEncode_eq (h : HashId) (k : Nat) (m seed : Bytes) :
    oaepEncode h k m seed = 0x00#8 :: oaepMaskedSeed h k m seed ++ oaepMaskedDb h k m seed := rfl

theorem oaepEncode_head? (h : HashId) (k : Nat) (m seed : Bytes) : (oaepEncode h k m seed).head? = some 0x00#8 := rfl

/-- The capacity counts what DB holds besides the message. -/
theorem le_oaepCapacity_iff {h : HashId} {k l : Nat} : (l : Int) ≤ oaepCapacity k h ↔ l + 2 * hLen h + 2 ≤ k := by
  unfold oaepCapacity
  omega

/-- What decoding does with an encoded message whose masks give back a seed and a data block that starts with lHash. -/
theorem oaepDecode_eq_some {h : HashId} {k : Nat} {maskedSeed maskedDb seed padded m : Bytes}
    (hl : maskedSeed.length = hLen h) (hs : xorBytes maskedSeed (mgf1Fn h maskedDb (hLen h)) = seed)
    (hd : xorBytes maskedDb (mgf1Fn h seed (k - hLen h - 1)) = hashFn h [] ++ padded)
    (hp : skipZeros padded = 0x01#8 :: m) : oaepDecode h k (0x00#8 :: maskedSeed ++ maskedDb) = some m := by
  have htake : (maskedSeed ++ maskedDb).take (hLen h) = maskedSeed := List.take_left' hl
  have hdrop : (maskedSeed ++ maskedDb).drop (hLen h) = maskedDb := List.drop_left' hl
  simp [oaepDecode, htake, hdrop, hs, hd, hp]

section

variable {h : HashId} {k : Nat} {m seed : Bytes} (hl : 0 < hLen h) (hm : (m.length : Int) ≤ oaepCapacity k h)
  (hs : seed.length = hLen h)

include hm in
theorem oaepDb_length : (oaepDb h k m).length = k - hLen h - 1 := by
  rw [le_oaepCapacity_iff] at hm
  simp only [oaepDb, zeros, List.length_append, List.length_cons, List.length_replicate, hashFn_length]
  omega

include hl hm in
theorem oaepMaskedDb_length : (oaepMaskedDb h k m seed).length = k - hLen h - 1 := by
  rw [oaepMaskedDb, xorBytes_length, oaepDb_length hm, mgf1Fn_length hl, Nat.min_self]

include hl hs in
theorem oaepMaskedSeed_length : (oaepMaskedSeed h k m seed).length = hLen h := by
  rw [oaepMaskedSeed, xorBytes_length, hs, mgf1Fn_length hl, Nat.min_self]

include hl hm in
theorem xorBytes_oaepMaskedDb :
    xorBytes (oaepMaskedDb h k m seed) (mgf1Fn h seed (k - hLen h - 1)) = oaepDb h k m :=
  xorBytes_xorBytes_cancel (by rw [oaepDb_length hm, mgf1Fn_length hl])

include hl hs in
theorem xorBytes_oaepMaskedSeed :
    xorBytes (oaepMaskedSeed h k m seed) (mgf1Fn h (oaepMaskedDb h k m seed) (hLen h)) = seed :=
  xorBytes_xorBytes_cancel (by rw [hs, mgf1Fn_length hl])

include hl hm hs in
theorem oaepEncode_length : (oaepEncode h k m seed).length = k := by
  rw [oaepEncode_eq, List.length_append, List.length_cons, oaepMaskedSeed_length hl hs, oaepMaskedDb_length hl hm]
  rw [le_oaepCapacity_iff] at hm
  omega

include hl hm hs in
theorem oaepDecode_oaepEncode : oaepDecode h k (oaepEncode h k m seed) = some m := by
  refine oaepDecode_eq_some (oaepMaskedSeed_length hl hs) (xorBytes_oaepMaskedSeed hl hs)
    ((xorBytes_oaepMaskedDb hl hm).trans (List.append_assoc ..)) ?_
  rw [skipZeros_zeros_append]
  rfl

include hl hm hs in
theorem os2ip_oaepEncode_lt : os2ip (oaepEncode h k m seed) < 256 ^ (k - 1) := by
  simpa only [oaepEncode_length hl hm hs] using os2ip_lt_of_head?_eq_zero (oaepEncode_head? h k m seed)

end

/-- Settles O51: the masks cancel, the lengths add up to `k`, and the leading byte is zero; a modulus of `k` bytes is not
zero, since `k` is not. -/
theorem oaepDecodeInvertsEncode : Obligations.OaepDecodeInvertsEncode := by
  unfold Obligations.OaepDecodeInvertsEncode
  intro h k m seed hl hm hs
  refine ⟨oaepDecode_oaepEncode hl hm hs, oaepEncode_length hl hm hs, os2ip_oaepEncode_lt hl hm hs, ?_⟩
  rintro n rfl
  have hn : n ≠ 0 := by
    rintro rfl
    exact absurd (le_oaepCapacity_iff.1 hm) (by simp [bitlen, ceil8])
  exact ⟨pow_256_ceil8_pred_le (bitlen_pos hn), two_pow_bitlen_le hn⟩

end Sys2Proof.Machine

/-! ## The PSS encoding (46_pss.md R245..R249)

Masking with the same digests twice gives the data block back, up to the bits the top mask clears; the data block starts
with 0x00, or with 0x01 when there is no padding, and the top mask keeps the low bit, so it clears nothing there. -/

namespace Sys2Proof.Machine

open Sys2Proof

/-! ### The top mask -/

theorem eight_mul_ceil8_sub_lt (l : Nat) : 8 * ceil8 l - l < 8 := by
  unfold ceil8
  omega

/-- The mask is one less than the power of two of the bits it keeps. -/
theorem pssTopMask_toNat_add_one (emBits : Nat) :
    (pssTopMask emBits).toNat + 1 = 2 ^ (8 - (8 * ceil8 emBits - emBits)) := by
  have hshift : ∀ i < 8, (0xFF#8 >>> i).toNat + 1 = 2 ^ (8 - i) := by decide
  exact hshift _ (eight_mul_ceil8_sub_lt emBits)

theorem one_and_pssTopMask (emBits : Nat) : 0x01#8 &&& pssTopMask emBits = 0x01#8 := by
  have hshift : ∀ i < 8, 0x01#8 &&& 0xFF#8 >>> i = 0x01#8 := by decide
  exact hshift _ (eight_mul_ceil8_sub_lt emBits)

/-- The kept bits of the first byte and the `emLen - 1` other bytes are `emBits` bits. -/
theorem pssTopMask_mul_pow_eq {emBits : Nat} (hpos : 0 < emBits) :
    ((pssTopMask emBits).toNat + 1) * 256 ^ (ceil8 emBits - 1) = 2 ^ emBits := by
  have hbits : 8 - (8 * ceil8 emBits - emBits) + 8 * (ceil8 emBits - 1) = emBits := by
    unfold ceil8
    omega
  rw [pssTopMask_toNat_add_one, show 256 = 2 ^ 8 from rfl, ← pow_mul, ← pow_add, hbits]

/-! ### Masking the first byte -/

@[simp] theorem zeros_length (n : Nat) : (zeros n).length = n := List.length_replicate

@[simp] theorem maskFirst_length (mask : Byte) (bs : Bytes) : (maskFirst mask bs).length = bs.length := by
  cases bs <;> rfl

/-- A mask with bit 0 set leaves a data block as it is: it starts with the padding's 0x00 or with the 0x01. -/
theorem maskFirst_zeros_append_one {mask : Byte} (hmask : 0x01#8 &&& mask = 0x01#8) (n : Nat) (bs : Bytes) :
    maskFirst mask (zeros n ++ 0x01#8 :: bs) = zeros n ++ 0x01#8 :: bs := by
  cases n with
  | zero => simp [zeros, maskFirst, hmask]
  | succ n => simp [zeros, maskFirst, List.replicate_succ]

/-- The first byte may be masked before the second xor as well as after it. -/
theorem maskFirst_xorBytes_maskFirst (mask : Byte) (a b : Bytes) :
    maskFirst mask (xorBytes (maskFirst mask a) b) = maskFirst mask (xorBytes a b) := by
  cases a with
  | nil => rfl
  | cons v t =>
    cases b with
    | nil => rfl
    | cons w u =>
      have hbyte : (v &&& mask ^^^ w) &&& mask = (v ^^^ w) &&& mask := by
        ext i
        simp only [BitVec.getElem_and, BitVec.getElem_xor]
        cases mask[i] <;> simp
      simp [maskFirst, xorBytes, hbyte]

theorem maskFirst_xorBytes_cancel {mask : Byte} {a b : Bytes} (h : a.length ≤ b.length) :
    maskFirst mask (xorBytes (maskFirst mask (xorBytes a b)) b) = maskFirst mask a := by
  rw [maskFirst_xorBytes_maskFirst, xorBytes_xorBytes_cancel h]

theorem exists_maskFirst_eq_cons (mask : Byte) {bs : Bytes} (h : 0 < bs.length) :
    ∃ v t, maskFirst mask bs = (v &&& mask) :: t := by
  obtain ⟨v, t, rfl⟩ := List.exists_cons_of_length_pos h
  exact ⟨v, t, rfl⟩

theorem os2ip_and_cons_lt (v mask : Byte) (t : Bytes) :
    os2ip ((v &&& mask) :: t) < (mask.toNat + 1) * 256 ^ t.length := by
  have hv : (v &&& mask).toNat ≤ mask.toNat := by
    rw [BitVec.toNat_and]
    exact Nat.and_le_right
  calc os2ip ((v &&& mask) :: t) = (v &&& mask).toNat * 256 ^ t.length + os2ip t := os2ip_cons ..
    _ < mask.toNat * 256 ^ t.length + 256 ^ t.length :=
      Nat.add_lt_add_of_le_of_lt (Nat.mul_le_mul_right _ hv) (os2ip_lt t)
    _ = (mask.toNat + 1) * 256 ^ t.length := (Nat.succ_mul ..).symm

/-! ### The parts of an encoded message -/

/-- DB: the zero padding, 0x01 and the salt. -/
def pssPlainDb (h : HashId) (emBits : Nat) (salt : Bytes) : Bytes :=
  zeros (ceil8 emBits - hLen h - salt.length - 2) ++ 0x01#8 :: salt

/-- DB masked by the digests of H, with its leading bits cleared. -/
def pssMaskedDb (h : HashId) (emBits : Nat) (mHash salt : Bytes) : Bytes :=
  maskFirst (pssTopMask emBits)
    (xorBytes (pssPlainDb h emBits salt) (mgf1Fn h (pssHash h mHash salt) (ceil8 emBits - hLen h - 1)))

theorem pssEncode_eq (h : HashId) (emBits : Nat) (mHash salt : Bytes) :
    pssEncode h emBits mHash salt = pssMaskedDb h emBits mHash salt ++ (pssHash h mHash salt ++ [0xBC#8]) := by
  rw [pssMaskedDb, pssPlainDb, Nat.sub_right_comm (ceil8 emBits), ← List.append_assoc]
  rfl

@[simp] theorem pssHash_length (h : HashId) (mHash salt : Bytes) : (pssHash h mHash salt).length = hLen h :=
  hashFn_length ..

section

variable {h : HashId} {emBits : Nat} {mHash salt : Bytes} (hl : 0 < hLen h)
  (hfit : hLen h + salt.length + 2 ≤ ceil8 emBits)

include hfit in
theorem pssPlainDb_length : (pssPlainDb h emBits salt).length = ceil8 emBits - hLen h - 1 := by
  simp only [pssPlainDb, zeros_length, List.length_append, List.length_cons]
  omega

include hl hfit in
theorem pssMaskedDb_length : (pssMaskedDb h emBits mHash salt).length = ceil8 emBits - hLen h - 1 := by
  rw [pssMaskedDb, maskFirst_length, xorBytes_length, pssPlainDb_length hfit, mgf1Fn_length hl, Nat.min_self]

include hl hfit in
theorem pssEncode_length : (pssEncode h emBits mHash salt).length = ceil8 emBits := by
  rw [pssEncode_eq, List.length_append, List.length_append, pssMaskedDb_length hl hfit, pssHash_length,
    List.length_singleton]
  omega

include hl hfit in
/-- The first byte of an encoded message has no bit outside the top mask. -/
theorem exists_pssEncode_eq_cons : ∃ v t, pssEncode h emBits mHash salt = (v &&& pssTopMask emBits) :: t := by
  have hpos : 0 < (pssMaskedDb h emBits mHash salt).length := by
    rw [pssMaskedDb_length hl hfit]
    omega
  rw [pssMaskedDb, maskFirst_length] at hpos
  obtain ⟨v, t, hvt⟩ := exists_maskFirst_eq_cons (pssTopMask emBits) hpos
  rw [pssEncode_eq, pssMaskedDb, hvt]
  exact ⟨v, _, rfl⟩

include hl hfit in
theorem os2ip_pssEncode_lt : os2ip (pssEncode h emBits mHash salt) < 2 ^ emBits := by
  have hpos : 0 < emBits := by
    unfold ceil8 at hfit
    omega
  have hlen := pssEncode_length (mHash := mHash) hl hfit
  obtain ⟨v, t, hvt⟩ := exists_pssEncode_eq_cons (mHash := mHash) hl hfit
  rw [hvt, List.length_cons] at hlen
  rw [hvt, ← pssTopMask_mul_pow_eq hpos, ← hlen, Nat.add_sub_cancel]
  exact os2ip_and_cons_lt ..

/-! ### What the verifier reads back -/

include hl hfit in
theorem pssH_pssEncode : pssH h emBits (pssEncode h emBits mHash salt) = pssHash h mHash salt := by
  rw [pssH, pssEncode_eq, List.drop_left' (pssMaskedDb_length hl hfit), List.take_left' (pssHash_length ..)]

include hl hfit in
theorem pssDb_pssEncode : pssDb h emBits (pssEncode h emBits mHash salt) = pssPlainDb h emBits salt := by
  have htake : (pssEncode h emBits mHash salt).take (ceil8 emBits - hLen h - 1) = pssMaskedDb h emBits mHash salt := by
    rw [pssEncode_eq, List.take_left' (pssMaskedDb_length hl hfit)]
  have hmask : (pssPlainDb h emBits salt).length ≤
      (mgf1Fn h (pssHash h mHash salt) (ceil8 emBits - hLen h - 1)).length := by
    rw [pssPlainDb_length hfit, mgf1Fn_length hl]
  rw [pssDb, htake, pssH_pssEncode hl hfit, pssMaskedDb, maskFirst_xorBytes_cancel hmask, pssPlainDb,
    maskFirst_zeros_append_one (one_and_pssTopMask emBits)]

include hl hfit in
theorem pssSalt_pssEncode : pssSalt h emBits (pssEncode h emBits mHash salt) salt.length = salt := by
  have hsplit : ceil8 emBits - hLen h - salt.length - 1 = (ceil8 emBits - hLen h - salt.length - 2) + 1 := by omega
  rw [pssSalt, pssDb_pssEncode hl hfit, pssPlainDb, hsplit, ← List.drop_drop,
    List.drop_left' (zeros_length _)]
  rfl

include hl hfit in
theorem pssFormatOk_pssEncode : pssFormatOk h emBits (pssEncode h emBits mHash salt) salt.length = true := by
  have htrailer : (pssEncode h emBits mHash salt).getD (ceil8 emBits - 1) 0x00#8 = 0xBC#8 := by
    rw [← pssEncode_length (mHash := mHash) hl hfit, pssEncode_eq, ← List.append_assoc]
    simp
  have hlead : (pssEncode h emBits mHash salt).headD 0x00#8 &&& ~~~(pssTopMask emBits) = 0x00#8 := by
    obtain ⟨v, t, hvt⟩ := exists_pssEncode_eq_cons (mHash := mHash) hl hfit
    rw [hvt, List.headD_cons, BitVec.and_assoc, BitVec.and_not_self]
    exact BitVec.and_zero
  simp only [pssFormatOk, hfit, htrailer, hlead, decide_true, Bool.and_self]

include hl hfit in
theorem pssPaddingOk_pssEncode : pssPaddingOk h emBits (pssEncode h emBits mHash salt) salt.length = true := by
  rw [pssPaddingOk, pssDb_pssEncode hl hfit, pssPlainDb, List.take_left' (zeros_length _),
    List.getD_append_right _ _ _ _ (zeros_length _).le, zeros_length, Nat.sub_self, List.getD_cons_zero]
  simp only [decide_true, Bool.and_self]

include hl hfit in
theorem pssVerifyCore_pssEncode :
    pssVerifyCore h emBits mHash (pssEncode h emBits mHash salt) salt.length = true := by
  simp only [pssVerifyCore, pssFormatOk_pssEncode hl hfit, pssPaddingOk_pssEncode hl hfit, pssH_pssEncode hl hfit,
    pssSalt_pssEncode hl hfit, decide_true, Bool.and_self]

end

/-- Settles O52: the verifier reads H, the data block and so the salt back from their places, and the top mask bounds
the first byte. -/
theorem pssVerifyAcceptsEncode : Obligations.PssVerifyAcceptsEncode := by
  unfold Obligations.PssVerifyAcceptsEncode
  intro h emBits mHash salt hl hfit
  exact ⟨pssVerifyCore_pssEncode hl hfit, pssEncode_length hl hfit, os2ip_pssEncode_lt hl hfit⟩

end Sys2Proof.Machine

/-! ## Precise errors (60_exceptions.md R270)

A body's writes reach the state only with the code `.ok`; every other completion is `State.takeError` of the state
before, and so is the completion of a word that is no command. -/

namespace Sys2Proof.Machine

open Sys2Proof

theorem exec_error {i : Instr} {s t : State} (h : exec i s = .next t) (he : t.err ≠ .ok) :
    t = s.takeError t.err t.ports := by
  rcases exec_next h with ⟨u, p, _, rfl, _⟩ | ⟨e, p, _, rfl, _⟩
  · exact absurd (u.completeWith_err .ok p) he
  · rfl

/-- The completion of the word in progress is its command's, or that of a refused word. -/
theorem runCommand_next {s t : State} (h : runCommand s = .next t) :
    (∃ i, decode s.cur = .ok i ∧ exec i s = .next t) ∨ (∃ e, decode s.cur = .error e ∧ t = s.illegal) := by
  unfold runCommand at h
  split at h
  · next i hi => exact .inl ⟨i, hi, h⟩
  · next e hd => exact .inr ⟨e, hd, by simpa using h.symm⟩

theorem runCommand_error {s t : State} (h : runCommand s = .next t) (he : t.err ≠ .ok) :
    t = s.takeError t.err t.ports := by
  rcases runCommand_next h with ⟨_, _, hi⟩ | ⟨_, _, rfl⟩
  · exact exec_error hi he
  · rfl

/-- Settles O18: `State.takeError` changes the ports, BUSY, DONE and ERR only. -/
theorem errorsArePrecise : Obligations.ErrorsArePrecise := by
  unfold Obligations.ErrorsArePrecise
  exact ⟨fun _ _ _ => exec_error, fun _ _ => runCommand_error⟩

end Sys2Proof.Machine

/-! ## The reset event (10_state.md R42; 70_reset_and_hazards.md R300..R302)

What the reads of registers, key slots and arguments answer after a reset, and the two words the host sees of it. -/

namespace Sys2Proof.Machine

open Sys2Proof

theorem step_reset {s : State} {es : List Event} (h : s.events = .reset :: es) :
    step s = .next (State.resetEvent { s with events := es }) := by
  simp only [step, h]

@[simp] theorem KeySlot.empty_comp (c : Comp) : KeySlot.empty.comp c = ⟨0, false⟩ := by cases c <;> rfl

@[simp] theorem KeySlot.empty_checked : KeySlot.empty.checked = false := rfl

section

variable (s : State)

@[simp] theorem State.resetEvent_reg (r : RegIdx) : s.resetEvent.reg r = ⟨0, false⟩ := by
  simp only [State.reg, State.resetEvent_b, Vector.getElem_replicate]

@[simp] theorem State.resetEvent_slot (k : Slot) : s.resetEvent.slot k = KeySlot.empty := by cases k <;> rfl

@[simp] theorem State.resetEvent_getElem_arg (i : Fin 8) : s.resetEvent.arg[i] = 0#32 := by
  rw [State.resetEvent_arg, Fin.getElem_fin, Vector.getElem_replicate]

@[simp] theorem State.resetEvent_busyBit : s.resetEvent.busyBit = false := rfl

/-- Every field STATUS shows has its reset value, whatever the state before the reset. -/
@[simp] theorem State.resetEvent_statusWord : s.resetEvent.statusWord = 0x00000000#32 := by
  simp only [State.statusWord, State.resetEvent_busyBit, State.resetEvent_done, State.resetEvent_err,
    State.resetEvent_z, State.resetEvent_n, State.resetEvent_bFlag, State.resetEvent_ovr, State.resetEvent_berr]
  decide

@[simp] theorem State.resetEvent_irq : s.resetEvent.irq = false := rfl

end

/-- Settles O16: a reset event builds its state from the parameters alone, so the phase it interrupts has no part in it, and
the four identification registers show the parameters. -/
theorem resetEventLeavesTheResetTable : Obligations.ResetEventLeavesTheResetTable := by
  unfold Obligations.ResetEventLeavesTheResetTable
  intro s es he
  have hpar : (State.resetEvent { s with events := es }).par = s.par := State.resetEvent_par _
  refine ⟨_, step_reset he, ?registers, ?slots, State.resetEvent_statusWord _, State.resetEvent_phase _,
    State.resetEvent_err _, State.resetEvent_irq _, State.resetEvent_mrRounds _, State.resetEvent_expWin _,
    State.resetEvent_ie _, State.resetEvent_res _, State.resetEvent_getElem_arg _, State.resetEvent_lastCmd _, hpar,
    State.readHostReg_of_par_eq hpar⟩
  case registers =>
    intro r
    rw [State.resetEvent_reg]
  case slots =>
    intro k c
    simp only [State.resetEvent_slot, KeySlot.empty_comp, KeySlot.empty_checked, and_self]

end Sys2Proof.Machine

/-! ## Decoding inverts encoding, and the rows of the opcode map (30_encoding.md R94, R95, R98, R100) -/

namespace Sys2Proof.Machine

open Sys2Proof

/-- The word of every command meets its row's mask and match and has its row's opcode. -/
theorem encode_meets_row (i : Instr) : Laws.Encoding.Statement i := by
  cases i
  case nop => exact Laws.Encoding.nop
  case add => exact Laws.Encoding.add ..
  case sub => exact Laws.Encoding.sub ..
  case mul => exact Laws.Encoding.mul ..
  case div => exact Laws.Encoding.div ..
  case rem => exact Laws.Encoding.rem ..
  case neg => exact Laws.Encoding.neg ..
  case mov => exact Laws.Encoding.mov ..
  case ldi => exact Laws.Encoding.ldi ..
  case cmp => exact Laws.Encoding.cmp ..
  case bitlen => exact Laws.Encoding.bitlen ..
  case modred => exact Laws.Encoding.modred ..
  case modmul => exact Laws.Encoding.modmul ..
  case modexp => exact Laws.Encoding.modexp ..
  case gcd => exact Laws.Encoding.gcd ..
  case xgcd => exact Laws.Encoding.xgcd ..
  case modinv => exact Laws.Encoding.modinv ..
  case mrtest => exact Laws.Encoding.mrtest ..
  case rndb => exact Laws.Encoding.rndb
  case rndbelow => exact Laws.Encoding.rndbelow ..
  case rndodd => exact Laws.Encoding.rndodd ..
  case ldb => exact Laws.Encoding.ldb ..
  case stb => exact Laws.Encoding.stb ..
  case stbm => exact Laws.Encoding.stbm ..
  case hash => exact Laws.Encoding.hash ..
  case mgf1 => exact Laws.Encoding.mgf1 ..
  case kset => exact Laws.Encoding.kset ..
  case kget => exact Laws.Encoding.kget ..
  case kclr => exact Laws.Encoding.kclr ..
  case kchk => exact Laws.Encoding.kchk ..
  case kpub => exact Laws.Encoding.kpub ..
  case oaepenc => exact Laws.Encoding.oaepenc ..
  case oaepdec => exact Laws.Encoding.oaepdec ..
  case psssign => exact Laws.Encoding.psssign ..
  case pssver => exact Laws.Encoding.pssver ..

/-- Every operand is read back from its field; XGCD's RD is the only one that is tested. -/
theorem decode_encode {i : Instr} (h : i.wellFormed = true) : decode (encode i) = .ok i := by
  have hm := (encode_meets_row i).1
  cases i
  case xgcd rd rs1 rs2 =>
    have hrd : ¬13 < rd.toNat := by simpa [Instr.wellFormed] using h
    simp only [decode, encode, opOf_wordR]
    exact selectRow_eq_ok.2 ⟨hm, by simp [hrd]⟩
  all_goals
    simp only [decode, encode, opOf_wordR, opOf_wordI]
    exact selectRow_eq_ok.2 ⟨hm, by simp [beq_bitOfSh]⟩

/-- A field is its part outside a mask when its part under the mask is 0. -/
theorem eq_and_not_of_and_eq_zero {n : Nat} {x m : BitVec n} (h : x &&& m = 0#n) : x = x &&& ~~~m := by
  refine BitVec.eq_of_getLsbD_eq fun i hi => ?_
  have hb : (x &&& m).getLsbD i = false := by rw [h, BitVec.getLsbD_zero]
  rw [BitVec.getLsbD_and] at hb
  rw [BitVec.getLsbD_and, BitVec.getLsbD_not]
  cases hx : x.getLsbD i <;> simp_all

/-- A word that meets a row of format R is its opcode with the fields the row leaves free; the other fields are 0. -/
theorem eq_wordR_of_meets {w mask mtch : Word} (h : w &&& mask = mtch)
    (hmask : mask = maskR (rdOf mask) (rs1Of mask) (rs2Of mask) (rs3Of mask) (hidOf mask) (ksBit mask) (shBit mask))
    (hmtch : mtch = wordR (opOf mtch) 0#4 0#4 0#4 0#4 0#4 0#1 0#1) :
    wordR (opOf mtch) (rdOf w &&& ~~~rdOf mask) (rs1Of w &&& ~~~rs1Of mask) (rs2Of w &&& ~~~rs2Of mask)
      (rs3Of w &&& ~~~rs3Of mask) (hidOf w &&& ~~~hidOf mask) (ksBit w &&& ~~~ksBit mask)
      (shBit w &&& ~~~shBit mask) = w := by
  rw [hmask, hmtch] at h
  obtain ⟨hop, hrd, hrs1, hrs2, hrs3, hhid, hks, hsh, hrsv⟩ := fields_of_and_maskR h
  rw [← eq_and_not_of_and_eq_zero hrd, ← eq_and_not_of_and_eq_zero hrs1, ← eq_and_not_of_and_eq_zero hrs2,
    ← eq_and_not_of_and_eq_zero hrs3, ← eq_and_not_of_and_eq_zero hhid, ← eq_and_not_of_and_eq_zero hks,
    ← eq_and_not_of_and_eq_zero hsh, ← hop]
  exact (word_eq_wordR hrsv).symm

/-- A row of format I leaves RD and the immediate free, so its opcode alone selects it. -/
theorem wordI_of_opOf {w : Word} {op : BitVec 6} (h : opOf w = op) : wordI op (rdOf w) (immOf w) = w := by
  rw [← h]
  exact (word_eq_wordI w).symm

theorem and_fifteen (x : BitVec 4) : x &&& 15#4 = x := BitVec.and_allOnes

theorem and_one (x : BitVec 1) : x &&& 1#1 = x := BitVec.and_allOnes

theorem encode_decode {w : Word} {i : Instr} (h : decode w = .ok i) : encode i = w := by
  unfold decode at h
  split at h
  case h_36 => cases h
  all_goals
    rename_i hop
    obtain ⟨hm, hr⟩ := selectRow_eq_ok.1 h
  case h_9 | h_21 => -- LDI and RNDODD, of format I
    cases hr
    exact wordI_of_opOf hop
  case h_16 => -- XGCD, whose RD is tested
    split at hr <;> cases hr
    refine Eq.trans ?_ (eq_wordR_of_meets hm rfl rfl)
    simp [encode, opOf, rdOf, rs1Of, rs2Of, rs3Of, hidOf, ksBit, shBit, and_fifteen]
  case h_27 | h_28 => -- KSET and KGET, whose COMP is
    split at hr <;> cases hr
    next c hc =>
    refine Eq.trans ?_ (eq_wordR_of_meets hm rfl rfl)
    simp [encode, compOfBits_eq_some hc, opOf, rdOf, rs1Of, rs2Of, rs3Of, hidOf, ksBit, shBit, and_fifteen, and_one]
  all_goals
    cases hr
    refine Eq.trans ?_ (eq_wordR_of_meets hm rfl rfl)
    simp [encode, opOf, rdOf, rs1Of, rs2Of, rs3Of, hidOf, ksBit, shBit, and_fifteen, and_one, bitOfSh_beq]

theorem wellFormed_of_decode {w : Word} {i : Instr} (h : decode w = .ok i) : i.wellFormed = true := by
  cases i
  case xgcd rd rs1 rs2 =>
    have hop : opOf w = 0x14#6 := by
      rw [← encode_decode h]
      exact opOf_wordR ..
    refine decide_eq_true (not_lt.1 fun hrd => ?_)
    rw [← rdOf_wordR 0x14#6 rd rs1 rs2 0 0 0 0] at hrd
    obtain ⟨e, he⟩ := decode_of_xgcd_rd hop (encode_decode h ▸ hrd)
    cases h.symm.trans he
  all_goals rfl

/-- Settles O1, from the two directions: the decoder reads every operand back, and the fields of a decoded word that hold
no operand are 0. -/
theorem decodeAndEncodeAgree : Obligations.DecodeAndEncodeAgree := by
  unfold Obligations.DecodeAndEncodeAgree
  intro w i
  constructor
  · exact fun h => ⟨wellFormed_of_decode h, encode_decode h⟩
  · rintro ⟨hw, rfl⟩
    exact decode_encode hw

/-! ### Rows -/

theorem opOf_of_and_tableMask {w : Word} {i : Instr} (h : w &&& tableMask i = tableMatch i) :
    opOf w = opOf (tableMatch i) := by
  have hop : opOf (tableMask i) = BitVec.allOnes 6 := by cases i <;> simp [tableMask, opOf]
  have hand : opOf (w &&& tableMask i) = opOf w &&& opOf (tableMask i) := BitVec.extractLsb'_and
  rw [← h, hand, hop, BitVec.and_allOnes]

/-- A match has no bit below the opcode. -/
theorem tableMatch_eq_wordI (i : Instr) : tableMatch i = wordI (opOf (tableMatch i)) 0#4 0#22 := by
  have hrd : rdOf (tableMatch i) = 0#4 := by cases i <;> simp [tableMatch, rdOf]
  have himm : immOf (tableMatch i) = 0#22 := by cases i <;> simp [tableMatch, immOf]
  rw [← hrd, ← himm]
  exact word_eq_wordI _

theorem tableMatch_eq_of_meets {w : Word} {i j : Instr} (hi : w &&& tableMask i = tableMatch i)
    (hj : w &&& tableMask j = tableMatch j) : tableMatch i = tableMatch j := by
  rw [tableMatch_eq_wordI i, tableMatch_eq_wordI j, ← opOf_of_and_tableMask hi, opOf_of_and_tableMask hj]

/-- A word that meets a row is a command of the row, unless its RD or COMP is one of those R98 makes illegal. -/
theorem decode_of_meets {w : Word} {i : Instr} (h : w &&& tableMask i = tableMatch i) :
    (∃ j, decode w = .ok j ∧ tableMatch j = tableMatch i) ∨
    (opOf w = 0x14#6 ∧ 13 < (rdOf w).toNat ∧ decode w = .error .xgcdDestination) ∨
    ((opOf w = 0x30#6 ∨ opOf w = 0x31#6) ∧ 4 < (rs2Of w).toNat ∧ decode w = .error .unknownComponent) := by
  have hop := opOf_of_and_tableMask h
  cases i
  case xgcd =>
    replace hop : opOf w = 0x14#6 := hop.trans (by simp [tableMatch, opOf])
    by_cases hrd : 13 < (rdOf w).toNat
    · refine .inr (.inl ⟨hop, hrd, ?_⟩)
      simp only [decode, hop, selectRow, if_pos hrd]
      exact if_pos h
    · refine .inl ⟨.xgcd (rdOf w) (rs1Of w) (rs2Of w), ?_, rfl⟩
      simp only [decode, hop, if_neg hrd]
      exact selectRow_eq_ok.2 ⟨h, rfl⟩
  case kset | kget =>
    cases hc : compOfBits (rs2Of w) with
    | none =>
      refine .inr (.inr ⟨?_, compOfBits_eq_none.1 hc, ?_⟩)
      · rw [hop]
        simp [tableMatch, opOf]
      · unfold decode
        rw [hop]
        simp only [tableMatch, opOf, hc]
        exact if_pos h
    | some c =>
      refine .inl ?_
      unfold decode
      rw [hop]
      simp only [tableMatch, opOf, hc]
      exact ⟨_, selectRow_eq_ok.2 ⟨h, rfl⟩, rfl⟩
  all_goals
    refine .inl ?_
    unfold decode
    rw [hop]
    simp only [tableMatch, opOf]
    exact ⟨_, selectRow_eq_ok.2 ⟨h, rfl⟩, rfl⟩

/-- Settles O2: a decoded word meets its row, a word that meets a row is that row's, and the opcode bits, which every mask
keeps, tell the rows apart. -/
theorem decodeFollowsMaskAndMatch : Obligations.DecodeFollowsMaskAndMatch := by
  unfold Obligations.DecodeFollowsMaskAndMatch
  exact fun w => ⟨fun _ => and_tableMask_of_decode, fun _ => decode_of_meets, fun _ _ => tableMatch_eq_of_meets⟩

/-- Settles O3, by running the decoder on the nine words. -/
theorem exampleWordsDecode : Obligations.ExampleWordsDecode := by
  unfold Obligations.ExampleWordsDecode
  decide

end Sys2Proof.Machine

/-! ## Steps, the host's reads and writes, irq (10_state.md R30..R33, R40, R41; 20_memory.md R62, R63, R68, R71) -/

namespace Sys2Proof.Machine

open Sys2Proof

/-! ### One step -/

theorem completeEvent_of_decode {s : State} {i : Instr} (hp : s.phase = .busy) (hd : decode s.cur = .ok i) :
    completeEvent s = exec i s := by
  simp only [completeEvent, hp, runCommand, hd]

theorem completeEvent_of_idle {s : State} (hp : s.phase = .idle) : completeEvent s = .next s := by
  simp only [completeEvent, hp]

theorem step_of_complete {s : State} {es : List Event} (h : s.events = .complete :: es) :
    step s = completeEvent { s with events := es } := by
  simp only [step, h]

theorem step_of_no_event {s : State} (h : s.events = []) : step s = completeEvent s := by
  simp only [step, h]

theorem step_of_host {s : State} {t : Txn} {es : List Event} (h : s.events = .host t :: es) :
    step s = .next (State.hostAccess { s with events := es } t) := by
  simp only [step, h]

/-- Settles O6: a completion event runs the decoded command while BUSY and nothing while idle. -/
theorem stepRunsTheDecodedCommand : Obligations.StepRunsTheDecodedCommand := by
  unfold Obligations.StepRunsTheDecodedCommand
  refine fun s => ⟨fun i hp hd => ⟨fun es he => ?_, fun he => ?_⟩, fun _ _ => step_of_host,
    fun hp => ⟨fun he => ?_, fun es he => ?_⟩⟩
  · exact (step_of_complete he).trans (completeEvent_of_decode hp hd)
  · exact (step_of_no_event he).trans (completeEvent_of_decode hp hd)
  · exact (step_of_no_event he).trans (completeEvent_of_idle hp)
  · exact (step_of_complete he).trans (completeEvent_of_idle hp)

/-! ### BUF through the bus -/

theorem bufAddr_toNat {i n : Nat} (hi : i < n) (hn : n ≤ 65536) : (BitVec.ofNat 17 (0x10000 + i)).toNat = 0x10000 + i := by
  rw [BitVec.toNat_ofNat]
  exact Nat.mod_eq_of_lt (by omega)

/-- The byte at place `j` of a string just written. -/
theorem State.memWrite_bufByte_inside (s : State) (off : Nat) {bs : Bytes} {j : Nat} (h : j < bs.length) :
    (s.memWrite off bs).bufByte (off + j) = bs[j] := by
  rw [State.memWrite_bufByte, dif_pos (by omega)]
  simp only [Nat.add_sub_cancel_left]

/-- Settles O9: the target of the access, and the bytes of BUF after a write of the lanes or of one byte. -/
theorem bufAccessesUseLittleEndianLanes : Obligations.BufAccessesUseLittleEndianLanes := by
  unfold Obligations.BufAccessesUseLittleEndianLanes
  intro s i d hp hb a
  constructor
  · intro h4 hi
    have hg : s.busTarget .w32 a.toNat = some (.bufWord i) :=
      State.busTarget_eq_bufWord.2 ⟨rfl, hp, bufAddr_toNat (by omega) hb, h4, hi⟩
    rw [State.hostAccess_read_of_some hg, State.hostAccess_write_of_some hg]
    have hlane : ∀ j (hj : j < 4), (s.memWrite i (laneBytes d)).bufByte (i + j) = (laneBytes d)[j] :=
      fun j hj => s.memWrite_bufByte_inside i hj
    exact ⟨rfl, hlane 0 (by decide), hlane 1 (by decide), hlane 2 (by decide), hlane 3 (by decide),
      fun j hj => s.memWrite_bufByte_outside hj, rfl⟩
  · intro hi
    have hg : s.busTarget .w8 a.toNat = some (.bufByte i) :=
      State.busTarget_eq_bufByte.2 ⟨rfl, hp, bufAddr_toNat hi hb, hi⟩
    rw [State.hostAccess_read_of_some hg, State.hostAccess_write_of_some hg]
    exact ⟨rfl, s.memWrite_bufByte_inside i (bs := [d.extractLsb' 0 8]) (j := 0) Nat.zero_lt_one,
      fun j hj => s.memWrite_bufByte_outside (bs := [d.extractLsb' 0 8]) (by simp only [List.length_singleton]; omega), rfl⟩

/-! ### Registers through the bus -/

/-- A read changes the answer, and BERR with SLVERR. -/
theorem State.hostAccess_read_frame (s : State) (w : Width) (a : BusAddr) :
    ∃ o, s.hostAccess (.read w a) = { s with berr := s.berr || o.slverr, busOut := some o } := by
  cases hg : s.busTarget w a.toNat with
  | none => exact ⟨⟨true, some 0#32⟩, by rw [hostAccess_read_of_none hg, Bool.or_true]⟩
  | some g => exact ⟨⟨false, some (s.readTarget g)⟩, by rw [hostAccess_read_of_some hg, Bool.or_false]⟩

/-- The offsets of the read-only registers hold read-only registers. -/
theorem hostRegAt_readOnly {a : Nat} (h : a ∈ [0x00, 0x10, 0x14, 0x18, 0x1C, 0x40, 0x44]) :
    ∃ r, hostRegAt a = some r ∧ ∀ (s : State) (d : Word), s.writeHostReg r d = s := by
  simp only [List.mem_cons, List.not_mem_nil, or_false] at h
  rcases h with rfl | rfl | rfl | rfl | rfl | rfl | rfl <;> exact ⟨_, rfl, fun _ _ => rfl⟩

/-- Settles O10, from the two possible answers to a read and the effect of a write to a read-only register. -/
theorem readsAndReadOnlyWritesHaveNoEffect : Obligations.ReadsAndReadOnlyWritesHaveNoEffect := by
  unfold Obligations.ReadsAndReadOnlyWritesHaveNoEffect
  refine fun s => ⟨s.hostAccess_read_frame, fun a d ha => ?_, s.hostAccess_read_reg (r := .res) rfl,
    s.hostAccess_read_reg (r := .cmd) rfl⟩
  obtain ⟨r, hr, hw⟩ := hostRegAt_readOnly ha
  rw [s.hostAccess_write_reg hr, hw]

/-! ### STATUS -/

/-- STATUS bit by bit and field by field (10_state.md R30). -/
theorem State.statusWord_fields (s : State) :
    s.statusWord.getLsbD 0 = s.busyBit ∧ s.statusWord.getLsbD 1 = s.done ∧ s.statusWord.extractLsb' 2 2 = 0#2 ∧
    s.statusWord.extractLsb' 4 4 = s.err.code ∧ s.statusWord.getLsbD 8 = s.z ∧ s.statusWord.getLsbD 9 = s.n ∧
    s.statusWord.getLsbD 10 = s.bFlag ∧ s.statusWord.extractLsb' 11 5 = 0#5 ∧ s.statusWord.getLsbD 16 = s.ovr ∧
    s.statusWord.getLsbD 17 = s.berr ∧ s.statusWord.extractLsb' 18 14 = 0#14 := by
  unfold State.statusWord
  generalize s.busyBit = b0, s.done = b1, s.err.code = c, s.z = b8, s.n = b9, s.bFlag = b10, s.ovr = b16, s.berr = b17
  refine ⟨?_, ?_, ?_, ?_, ?_, ?_, ?_, ?_, ?_, ?_, ?_⟩
  case refine_3 | refine_4 | refine_8 | refine_11 =>
    refine BitVec.eq_of_getLsbD_eq fun i hi => ?_
    simp only [BitVec.getLsbD_extractLsb', BitVec.getLsbD_append]
    interval_cases i <;> simp
  all_goals
    simp only [BitVec.getLsbD_append]
    simp

theorem State.busyBit_iff (s : State) : s.busyBit = true ↔ s.phase = .busy := decide_eq_true_iff

theorem State.writeStatus_eq (s : State) (d : Word) :
    s.writeStatus d = { s with
      done := s.done && !d.getLsbD 1, ovr := s.ovr && !d.getLsbD 16, berr := s.berr && !d.getLsbD 17 } := by
  unfold State.writeStatus
  cases d.getLsbD 1 <;> simp [State.clearDone]

theorem State.hostAccess_write_status (s : State) (d : Word) :
    s.hostAccess (.write .w32 0x0000C d) = { s with
      done := s.done && !d.getLsbD 1, ovr := s.ovr && !d.getLsbD 16, berr := s.berr && !d.getLsbD 17
      busOut := some ⟨false, none⟩ } := by
  rw [s.hostAccess_write_reg (r := .status) rfl, State.writeHostReg, State.writeStatus_eq]

/-- Settles O11, from the fields of STATUS and the effect of a write to it. -/
theorem statusRegisterReadsAndClears : Obligations.StatusRegisterReadsAndClears := by
  unfold Obligations.StatusRegisterReadsAndClears
  intro s d
  obtain ⟨h0, h1, h2, hcode, h8, h9, h10, h11, h16, h17, h18⟩ := s.statusWord_fields
  refine ⟨s.hostAccess_read_reg (r := .status) rfl, by rw [h0, s.busyBit_iff], h1, h2, hcode, h8, h9, h10, h11, ?_, h16, h17,
    h18, s.hostAccess_write_status d⟩
  rw [hcode]
  simp +contextual [ErrCode.code]

/-! ### CFG and the arguments -/

theorem State.cfgWord_fields (s : State) :
    s.cfgWord.extractLsb' 0 8 = s.mrRounds ∧ s.cfgWord.extractLsb' 8 4 = s.expWin ∧
    s.cfgWord.extractLsb' 12 4 = 0#4 ∧ s.cfgWord.getLsbD 16 = s.ie ∧ s.cfgWord.extractLsb' 17 15 = 0#15 := by
  unfold State.cfgWord
  refine ⟨?_, ?_, ?_, ?_, ?_⟩
  case refine_4 =>
    simp only [BitVec.getLsbD_append]
    simp
  all_goals
    refine BitVec.eq_of_getLsbD_eq fun i hi => ?_
    simp only [BitVec.getLsbD_extractLsb', BitVec.getLsbD_append]
    interval_cases i <;> simp

theorem State.hostAccess_write_cfg (s : State) (d : Word) :
    s.hostAccess (.write .w32 0x00004 d) = { s with
      mrRounds := legalRounds (d.extractLsb' 0 8), expWin := legalWindow (d.extractLsb' 8 4), ie := d.getLsbD 16
      busOut := some ⟨false, none⟩ } :=
  s.hostAccess_write_reg (r := .cfg) rfl d

theorem hostRegAt_arg (i : Fin 8) : hostRegAt (BitVec.ofNat 17 (0x20 + 4 * i.val)).toNat = some (.arg i) := by
  revert i
  decide

/-- Settles O12, from the fields of CFG and the register map. -/
theorem cfgAndArgWritesTakeEffectAtOnce : Obligations.CfgAndArgWritesTakeEffectAtOnce := by
  unfold Obligations.CfgAndArgWritesTakeEffectAtOnce
  intro s d
  obtain ⟨h0, h8, h12, h16, h17⟩ := s.cfgWord_fields
  exact ⟨h0, h8, h12, h16, h17, s.hostAccess_read_reg (r := .cfg) rfl, s.hostAccess_write_cfg d,
    fun i => ⟨s.hostAccess_read_reg (hostRegAt_arg i), s.hostAccess_write_reg (hostRegAt_arg i) d⟩⟩

/-! ### irq -/

/-- The completion of the word in progress, a command or not, sets DONE and leaves IE. -/
theorem completeEvent_done_ie {s t : State} (hp : s.phase = .busy) (h : completeEvent s = .next t) :
    t.done = true ∧ t.ie = s.ie := by
  rcases completeEvent_next h with ⟨hi, _⟩ | ⟨_, ⟨i, _, hi⟩ | ⟨e, _, rfl⟩⟩
  · cases hp.symm.trans hi
  · rw [exec_frame hi]
    exact ⟨rfl, rfl⟩
  · exact ⟨rfl, rfl⟩

/-- Settles O15, from what a completion and the three writes do to DONE and IE. -/
theorem irqFollowsDoneAndEnable : Obligations.IrqFollowsDoneAndEnable := by
  unfold Obligations.IrqFollowsDoneAndEnable
  refine fun s => ⟨rfl, fun t hp he h => ?completion, fun d => ?cfg, fun d hd => ?status, fun w hp => ?acceptance⟩
  case completion =>
    have hdone : t.done = true ∧ t.ie = s.ie := by
      rcases he with he | ⟨es, he⟩
      · exact completeEvent_done_ie hp (step_of_no_event he ▸ h)
      · exact completeEvent_done_ie (s := { s with events := es }) hp (step_of_complete he ▸ h)
    rw [State.irq, hdone.1, hdone.2, Bool.true_and]
  case cfg => rw [s.hostAccess_write_cfg d]; rfl
  case status =>
    rw [s.hostAccess_write_status d, State.irq]
    simp [hd]
  case acceptance =>
    rw [s.hostAccess_write_cmd w, State.writeCmd_of_idle hp]
    rfl

/-! ### Reset -/

/-- Settles O17, by running the ten reads; no register of the reset state is written. -/
theorem resetReadsTheDocumentedValues : Obligations.ResetReadsTheDocumentedValues := by
  unfold Obligations.ResetReadsTheDocumentedValues
  decide

end Sys2Proof.Machine

/-! ## What commands leave alone (10_state.md R23..R31; 20_memory.md R75; 44_key.md R207, R208; 60_exceptions.md R271) -/

namespace Sys2Proof.Machine

open Sys2Proof

/-- Settles O19, from the frame of all commands. -/
theorem completionsLeaveTheHostsState : Obligations.CompletionsLeaveTheHostsState := by
  unfold Obligations.CompletionsLeaveTheHostsState
  intro i s t h
  rw [exec_frame h]
  exact ⟨rfl, rfl, rfl, rfl, rfl, rfl, rfl, rfl, rfl, rfl, rfl, rfl, rfl, rfl, rfl, rfl, rfl⟩

/-! ### What a command's effect does not touch -/

/-- The parts of the state that a command's class says it does not write. -/
structure Untouched (i : Instr) (s u : State) : Prop where
  bFlag : writesBFlag i = false → u.bFlag = s.bFlag
  res : writesRes i = false → u.res = s.res
  regs : destRegs i = [] → u.b = s.b
  buf : storeOffset i s = none → u.buf = s.buf
  slots : validatedSlot i = none → rewrittenSlot i = none → u.slot = s.slot

theorem Effect.untouched {i : Instr} {s u : State} (h : Effect i s u) : Untouched i s u := by
  cases i
  case nop => exact h ▸ ⟨fun _ => rfl, fun _ => rfl, fun _ => rfl, fun _ => rfl, fun _ _ => rfl⟩
  case cmp =>
    obtain rfl : u = _ := h
    exact ⟨fun _ => rfl, fun _ => rfl, fun _ => rfl, fun _ => rfl, fun _ _ => rfl⟩
  case xgcd =>
    obtain ⟨_, g, x, y, _, _, _, rfl⟩ := h
    exact ⟨fun _ => rfl, fun _ => rfl, nofun, fun _ => rfl, fun _ _ => rfl⟩
  case mrtest =>
    obtain ⟨r, rfl⟩ := h
    exact ⟨nofun, nofun, fun _ => rfl, fun _ => rfl, fun _ _ => rfl⟩
  case stb | stbm | rndb | hash | mgf1 =>
    obtain ⟨bs, _, rfl⟩ := h
    exact ⟨fun _ => rfl, nofun, fun _ => rfl, nofun, fun _ _ => rfl⟩
  case kset =>
    obtain ⟨_, _, _, rfl⟩ := h
    exact ⟨fun _ => by simp, fun _ => by simp, fun _ => by simp, fun _ => by simp, nofun⟩
  case kclr =>
    obtain rfl : u = _ := h
    exact ⟨fun _ => by simp, fun _ => by simp, fun _ => by simp, fun _ => by simp, nofun⟩
  case kpub =>
    obtain ⟨_, rfl⟩ := h
    exact ⟨fun _ => by simp, fun _ => by simp, fun _ => by simp, fun _ => by simp, nofun⟩
  case kchk =>
    obtain ⟨_, rfl⟩ := h
    exact ⟨nofun, nofun, fun _ => by simp, fun _ => by simp, nofun⟩
  case oaepenc | oaepdec | psssign =>
    obtain ⟨_, bs, _, rfl⟩ := h
    exact ⟨fun _ => by simp, nofun, fun _ => by simp, nofun, nofun⟩
  case pssver =>
    obtain ⟨_, r, rfl⟩ := h
    exact ⟨nofun, nofun, fun _ => by simp, fun _ => by simp, nofun⟩
  all_goals
    obtain ⟨v, _, rfl⟩ := h
    exact ⟨fun _ => rfl, fun _ => rfl, nofun, fun _ => rfl, fun _ _ => rfl⟩

/-- Settles O21: B_FLAG and RES from the effect's frame, and an error keeps all four. -/
theorem onlyListedCommandsWriteBFlagAndRes : Obligations.OnlyListedCommandsWriteBFlagAndRes := by
  unfold Obligations.OnlyListedCommandsWriteBFlagAndRes
  intro i s t h
  rcases exec_next h with ⟨u, p, hu, rfl, _⟩ | ⟨e, p, _, rfl, _⟩
  · exact ⟨hu.untouched.bFlag, hu.untouched.res, fun he => absurd rfl he⟩
  · exact ⟨fun _ => rfl, fun _ => rfl, fun _ => ⟨rfl, rfl, rfl, rfl⟩⟩

/-! ### Big registers -/

/-- A register that a command has just written: valid and in range. -/
def State.Written (u : State) (w : Nat) (r : RegIdx) : Prop := (u.reg r).valid = true ∧ (u.reg r).val.natAbs < 2 ^ w

theorem State.reg_congr {s t : State} (h : t.b = s.b) (r : RegIdx) : t.reg r = s.reg r := by
  unfold State.reg
  simp only [h]

theorem State.putReg_written {s : State} {w : Nat} {d r : RegIdx} {v : Int} (hv : v.natAbs < 2 ^ w)
    (h : r = d ∨ s.Written w r) : (s.putReg d v).Written w r := by
  unfold State.Written
  rw [State.putReg_reg]
  split
  · exact ⟨rfl, hv⟩
  · next hne => exact h.resolve_left hne

theorem State.putReg_reg_of_ne {s : State} {d r : RegIdx} (v : Int) (h : r ≠ d) : (s.putReg d v).reg r = s.reg r := by
  rw [State.putReg_reg, if_neg h]

theorem OneResult.reg {s u : State} {d : RegIdx} (h : OneResult s d u) (r : RegIdx) :
    (r ∉ [d] → u.reg r = s.reg r) ∧ (r ∈ [d] → u.Written s.par.wBits r) := by
  obtain ⟨v, hv, rfl⟩ := h
  rw [List.mem_singleton]
  exact ⟨State.putReg_reg_of_ne v, fun hr => State.putReg_written hv (.inl hr)⟩

theorem Effect.reg {i : Instr} {s u : State} (h : Effect i s u) (r : RegIdx) :
    (r ∉ destRegs i → u.reg r = s.reg r) ∧ (r ∈ destRegs i → u.Written s.par.wBits r) := by
  by_cases hd : destRegs i = []
  · exact ⟨fun _ => State.reg_congr (h.untouched.regs hd) r, fun hr => by simp [hd] at hr⟩
  · cases i
    case xgcd d a b =>
      obtain ⟨_, g, x, y, hg, hx, hy, rfl⟩ := h
      simp only [destRegs, List.mem_cons, List.not_mem_nil, or_false, not_or]
      constructor
      · rintro ⟨h0, h1, h2⟩
        exact (State.putReg_reg_of_ne y h2).trans ((State.putReg_reg_of_ne x h1).trans (State.putReg_reg_of_ne g h0))
      · rintro (hr | hr | hr)
        · exact State.putReg_written hy (.inr (State.putReg_written hx (.inr (State.putReg_written hg (.inl hr)))))
        · exact State.putReg_written hy (.inr (State.putReg_written hx (.inl hr)))
        · exact State.putReg_written hy (.inl hr)
    case add | sub | mul | div | rem | neg | mov | ldi | bitlen | modred | modmul | modexp | gcd | modinv | rndbelow | rndodd |
        ldb | kget =>
      exact OneResult.reg h r
    all_goals exact absurd rfl hd

/-- A register after a command: as before, or a destination just written. -/
theorem exec_reg {i : Instr} {s t : State} (h : exec i s = .next t) (r : RegIdx) :
    t.reg r = s.reg r ∨ r ∈ destRegs i ∧ t.Written s.par.wBits r := by
  rcases exec_next h with ⟨u, p, hu, rfl, _⟩ | ⟨e, p, _, rfl, _⟩
  · by_cases hr : r ∈ destRegs i
    · exact .inr ⟨hr, (hu.reg r).2 hr⟩
    · exact .inl ((hu.reg r).1 hr)
  · exact .inl rfl

/-- Settles O22, register by register. -/
theorem registersOutsideTheDestinationsKeep : Obligations.RegistersOutsideTheDestinationsKeep := by
  unfold Obligations.RegistersOutsideTheDestinationsKeep
  intro i s t r h
  refine ⟨fun hr => (exec_reg h r).resolve_right fun hw => hr hw.1, fun hr hok => ?_, fun hv => ?_⟩
  · rcases exec_next h with ⟨u, p, hu, rfl, _⟩ | ⟨e, p, he, rfl, _⟩
    · exact ((hu.reg r).2 hr).1
    · exact absurd hok he
  · rcases exec_reg h r with hk | ⟨_, hw⟩
    · rw [hk, hv]
    · exact hw.1

/-! ### Key slots -/

/-- How a command that replaces slot `k` does it, from the state `s` to the slot `v`. -/
inductive Rewrites (s : State) (k : Slot) (v : KeySlot) : Instr → Prop
  | kset (c : Comp) (a : RegIdx) (hc : (s.slot k).checked = false) (ha : 0 ≤ (s.reg a).val)
    (hv : v = (s.slot k).setComp c ⟨(s.reg a).val.toNat, true⟩) : Rewrites s k v (.kset k c a)
  | kclr (hv : v = (s.slot k).cleared) : Rewrites s k v (.kclr k)
  | kpub (hv : v = { (s.slot k).cleared with
      n := ⟨(s.slot (otherSlot k)).n.val, true⟩, e := ⟨(s.slot (otherSlot k)).e.val, true⟩ }) :
    Rewrites s k v (.kpub (otherSlot k))

@[simp] theorem otherSlot_otherSlot (k : Slot) : otherSlot (otherSlot k) = k := by cases k <;> rfl

theorem State.setSlot_slot_cases (s : State) (k j : Slot) (v : KeySlot) :
    (s.setSlot k v).slot j = s.slot j ∨ j = k ∧ (s.setSlot k v).slot j = v := by
  rw [State.setSlot_slot]
  split
  · next hj => exact .inr ⟨hj, rfl⟩
  · exact .inl rfl

/-- A slot of a state that has the slots of `s` with slot `j` validated. -/
theorem Sealed.slot {s u : State} {j k : Slot} (hs : Sealed s j) (hu : u.slot k = (s.markChecked j).slot k) :
    u.slot k = s.slot k ∨ some j = some k ∧ Sealed s k ∧ u.slot k = { s.slot k with checked := true } := by
  rw [State.markChecked_slot] at hu
  split at hu
  · next hj =>
    subst hj
    exact .inr ⟨rfl, hs, hu⟩
  · exact .inl hu

/-- A slot after a command: as before, or validated, or replaced. -/
theorem Effect.slot {i : Instr} {s u : State} (h : Effect i s u) (k : Slot) :
    u.slot k = s.slot k ∨
    (validatedSlot i = some k ∧ Sealed s k ∧ u.slot k = { s.slot k with checked := true }) ∨
    Rewrites s k (u.slot k) i := by
  by_cases hn : validatedSlot i = none ∧ rewrittenSlot i = none
  · exact .inl (congrFun (h.untouched.slots hn.1 hn.2) k)
  cases i
  case kset j c a =>
    obtain ⟨hc, _, ha, rfl⟩ := h
    exact (s.setSlot_slot_cases j k _).imp_right fun ⟨hj, hv⟩ => .inr (by subst hj; exact .kset c a hc ha hv)
  case kclr j =>
    obtain rfl : u = _ := h
    exact (s.setSlot_slot_cases j k _).imp_right fun ⟨hj, hv⟩ => .inr (by subst hj; exact .kclr hv)
  case kpub j =>
    obtain ⟨_, rfl⟩ := h
    refine (s.setSlot_slot_cases (otherSlot j) k _).imp_right fun ⟨hj, hv⟩ => .inr ?_
    obtain rfl : j = otherSlot k := by rw [hj, otherSlot_otherSlot]
    exact .kpub (by simpa only [otherSlot_otherSlot] using hv)
  case kchk =>
    obtain ⟨hs, rfl⟩ := h
    exact (hs.slot (by simp)).imp_right .inl
  case oaepenc | oaepdec | psssign =>
    obtain ⟨hs, bs, _, rfl⟩ := h
    exact (hs.slot (by simp)).imp_right .inl
  case pssver =>
    obtain ⟨hs, r, rfl⟩ := h
    exact (hs.slot (by simp)).imp_right .inl
  all_goals exact absurd ⟨rfl, rfl⟩ hn

/-- The same of a completed command: an error leaves every slot. -/
theorem exec_slot {i : Instr} {s t : State} (h : exec i s = .next t) (k : Slot) :
    t.slot k = s.slot k ∨
    (validatedSlot i = some k ∧ t.err = .ok ∧ Sealed s k ∧ t.slot k = { s.slot k with checked := true }) ∨
    Rewrites s k (t.slot k) i := by
  rcases exec_next h with ⟨u, p, hu, rfl, _⟩ | ⟨e, p, _, rfl, _⟩
  · rw [State.completeWith_slot]
    exact (hu.slot k).imp_right (Or.imp_left fun ⟨hv, hs, hk⟩ => ⟨hv, rfl, hs, hk⟩)
  · exact .inl (s.takeError_slot e p k)

/-- Only KSET, KCLR and KPUB replace a slot, each the one it names. -/
theorem Rewrites.rewrittenSlot {s : State} {k : Slot} {v : KeySlot} {i : Instr} (h : Rewrites s k v i) :
    rewrittenSlot i = some k := by
  cases h
  case kpub => exact congrArg some (otherSlot_otherSlot k)
  all_goals rfl

@[simp] theorem KeySlot.setComp_checked (v : KeySlot) (c : Comp) (x : KeyComp) : (v.setComp c x).checked = v.checked := by
  cases c <;> rfl

/-- No replaced slot is CHECKED. -/
theorem Rewrites.unchecked {s : State} {k : Slot} {v : KeySlot} {i : Instr} (h : Rewrites s k v i) :
    v.checked = false := by
  cases h with
  | kset c a hc _ hv => rw [hv, KeySlot.setComp_checked, hc]
  | kclr hv => exact hv ▸ rfl
  | kpub hv => exact hv ▸ rfl

/-- A CHECKED slot is replaced by KCLR of it and by KPUB into it. -/
theorem Rewrites.of_checked {s : State} {k : Slot} {v : KeySlot} {i : Instr} (h : Rewrites s k v i)
    (hc : (s.slot k).checked = true) : i = .kclr k ∨ i = .kpub (otherSlot k) := by
  cases h with
  | kset c a hc' => cases hc.symm.trans hc'
  | kclr => exact .inl rfl
  | kpub => exact .inr rfl

/-- A sealed slot that was not CHECKED has n and e, and they are large enough. -/
theorem Sealed.publicValid {s : State} {k : Slot} (h : Sealed s k) (hc : (s.slot k).checked = false) :
    (s.slot k).PublicValid := by
  obtain ⟨hn, he⟩ := Bool.and_eq_true_iff.1 h.1
  exact ⟨hn, he, h.2 hc⟩

/-- Settles O24: a slot becomes CHECKED where it is validated, and a replaced slot is not CHECKED. -/
theorem checkedIsSetByValidationOnly : Obligations.CheckedIsSetByValidationOnly := by
  unfold Obligations.CheckedIsSetByValidationOnly
  intro i s t k h
  rcases exec_slot h k with hk | ⟨hv, hok, hs, hk⟩ | hr
  · rw [hk]
    exact ⟨fun h0 h1 => by simp [h0] at h1, fun h1 h0 => by simp [h0] at h1⟩
  · rw [hk]
    exact ⟨fun h0 _ => ⟨hv, hok, hs.publicValid h0⟩, nofun⟩
  · exact ⟨fun _ h1 => by simp [hr.unchecked] at h1, fun h1 _ => hr.of_checked h1⟩

theorem State.slot_congr {s t : State} (h0 : t.k0 = s.k0) (h1 : t.k1 = s.k1) (k : Slot) : t.slot k = s.slot k := by
  cases k
  · exact h0
  · exact h1

theorem State.hostAccess_slot (s : State) (t : Txn) (k : Slot) : (s.hostAccess t).slot k = s.slot k :=
  State.slot_congr (s.hostAccess_frame t).2.2.1 (s.hostAccess_frame t).2.2.2.1 k

/-- A completion that changes a CHECKED slot is KCLR's or KPUB's. -/
theorem completeEvent_slot_of_checked {s t : State} {k : Slot} (h : completeEvent s = .next t)
    (hc : (s.slot k).checked = true) (hk : t.slot k ≠ s.slot k) :
    s.phase = .busy ∧ (decode s.cur = .ok (.kclr k) ∨ decode s.cur = .ok (.kpub (otherSlot k))) := by
  rcases completeEvent_next h with ⟨_, rfl⟩ | ⟨hp, ⟨i, hd, hi⟩ | ⟨e, _, rfl⟩⟩
  · exact absurd rfl hk
  · refine ⟨hp, ?_⟩
    rcases exec_slot hi k with hs | ⟨_, _, _, hs⟩ | hr
    · exact absurd hs hk
    · exact absurd (by rw [hs, ← hc]) hk
    · rw [hd]
      exact (hr.of_checked hc).imp (congrArg _) (congrArg _)
  · exact absurd (s.takeError_slot .illegalCmd s.ports k) hk

/-- Settles O25: what a command does to a slot, and what each kind of step does to a CHECKED one. -/
theorem keysAreImmutableOnceSealed : Obligations.KeysAreImmutableOnceSealed := by
  unfold Obligations.KeysAreImmutableOnceSealed
  constructor
  · intro i s t k h hn
    rcases exec_slot h k with hk | ⟨hv, _, _, hk⟩ | hr
    · exact .inl hk
    · exact .inr ⟨hv, hk⟩
    · exact absurd hr.rewrittenSlot hn
  · intro s t k h hc hk
    rcases step_next h with ⟨es, _, he⟩ | ⟨x, es, _, rfl⟩ | ⟨es, he, _⟩
    · have hes : State.slot { s with events := es } k = s.slot k := State.slot_congr rfl rfl k
      exact .inr (completeEvent_slot_of_checked (s := { s with events := es }) he (hes ▸ hc) (hes ▸ hk))
    · exact absurd ((State.hostAccess_slot _ x k).trans (State.slot_congr rfl rfl k)) hk
    · exact .inl ⟨es, he⟩

/-! ### BUF -/

/-- What a command leaves of BUF: all of it, or a string stored inside BUF at its offset with the length in RES. -/
theorem Effect.buf {i : Instr} {s u : State} (h : Effect i s u) :
    (storeOffset i s = none ∧ u.buf = s.buf) ∨
    ∃ (off : Nat) (bs : Bytes), storeOffset i s = some off ∧ off + bs.length ≤ s.par.bufBytes ∧
      u.buf = memWriteBytes s.buf off bs ∧ u.res = BitVec.ofNat 32 bs.length := by
  cases ho : storeOffset i s with
  | none => exact .inl ⟨rfl, h.untouched.buf ho⟩
  | some off =>
    refine .inr ⟨off, ?_⟩
    cases i
    case stb | stbm | rndb | hash | mgf1 =>
      cases ho
      obtain ⟨bs, hb, rfl⟩ := h
      exact ⟨bs, rfl, hb, rfl, rfl⟩
    case oaepenc | oaepdec | psssign =>
      cases ho
      obtain ⟨_, bs, hb, rfl⟩ := h
      exact ⟨bs, rfl, hb, by simp, rfl⟩
    all_goals cases ho

theorem State.bufByte_congr {s t : State} (hb : t.buf = s.buf) (hr : t.resets = s.resets) (j : Nat) :
    t.bufByte j = s.bufByte j := by
  unfold State.bufByte
  rw [hb, hr]

/-- Settles O26: the bytes stored are as many as RES says, since BUF is shorter than 2^32 bytes. -/
theorem bufOutsideTheStoredBytesKeeps : Obligations.BufOutsideTheStoredBytesKeeps := by
  unfold Obligations.BufOutsideTheStoredBytesKeeps
  intro i s t j hinv h
  rcases exec_next h with ⟨u, p, hu, rfl, _⟩ | ⟨e, p, _, rfl, _⟩
  · have hresets : (u.completeWith .ok p).resets = s.resets := by rw [exec_frame h]
    rcases hu.buf with ⟨ho, hb⟩ | ⟨off, bs, ho, hoff, hb, hres⟩
    · have hkept := State.bufByte_congr (t := u.completeWith .ok p) hb hresets j
      exact ⟨fun _ => hkept, fun _ _ _ => hkept⟩
    · refine ⟨fun hn => by simp [ho] at hn, fun off' ho' hj => ?_⟩
      obtain rfl : off = off' := Option.some.inj (ho.symm.trans ho')
      have hlen : u.res.toNat = bs.length := by
        rw [hres, BitVec.toNat_ofNat]
        obtain ⟨_, _, _, _, hbuf, _⟩ := hinv.params
        exact Nat.mod_eq_of_lt (by omega)
      rw [State.completeWith_res, hlen] at hj
      exact (State.bufByte_congr (s := s.memWrite off bs) hb hresets j).trans (s.memWrite_bufByte_outside hj)
  · exact ⟨fun _ => rfl, fun _ _ _ => rfl⟩

/-! ### The agents -/

theorem runBody_ne_refused {s : State} {body : Cmd State} {r : Refusal} : runBody s body ≠ .refused r := by
  unfold runBody
  split <;> nofun

theorem runBody_fault {s : State} {body : Cmd State} {f : Fault} (h : runBody s body = .fault f) :
    ∃ p, body s.ports = .error (.stalled f) p := by
  unfold runBody at h
  split at h
  · cases h
  · cases h
  · next g p hb => exact ⟨p, by cases h; exact hb⟩

theorem exec_ne_refused (i : Instr) (s : State) (r : Refusal) : exec i s ≠ .refused r := by
  obtain ⟨b, hb, _⟩ := exec_asks i s
  rw [hb]
  exact runBody_ne_refused

theorem completeEvent_ne_refused (s : State) (r : Refusal) : completeEvent s ≠ .refused r := by
  unfold completeEvent runCommand
  split
  · split
    · exact exec_ne_refused _ s r
    · nofun
  · nofun

theorem step_ne_refused (s : State) (r : Refusal) : step s ≠ .refused r := by
  unfold step
  split
  · exact completeEvent_ne_refused s r
  · exact completeEvent_ne_refused _ r
  · nofun
  · nofun

/-- The ports a command leaves. -/
theorem exec_ports {i : Instr} {s t : State} (h : exec i s = .next t) :
    Ports.LeftBy (drawsRandom i) (usesHash i) s.ports t.ports := by
  rcases exec_next h with ⟨u, p, _, rfl, hp⟩ | ⟨e, p, _, rfl, hp⟩ <;> exact hp

/-- How a command may stop. -/
theorem exec_fault {i : Instr} {s : State} {f : Fault} (h : exec i s = .fault f) :
    Stop.AllowedBy (drawsRandom i) (usesHash i) s.ports (.stalled f) := by
  obtain ⟨b, hb, ha, _⟩ := exec_asks i s
  obtain ⟨p, hp⟩ := runBody_fault (hb ▸ h)
  have hstop := ha s.ports
  rw [hp] at hstop
  exact hstop.2

/-- Settles O27: the body of a command asks the agents of its class, and `runBody` refuses nothing. -/
theorem agentsAreAskedOnlyByListedCommands : Obligations.AgentsAreAskedOnlyByListedCommands := by
  unfold Obligations.AgentsAreAskedOnlyByListedCommands
  refine fun i s => ⟨fun t h => ⟨(exec_ports h).rngKept, (exec_ports h).hashKept⟩, fun f h => ?_, exec_ne_refused i s,
    step_ne_refused s⟩
  cases f with
  | rngSilent => exact .inl ⟨rfl, (exec_fault h).rngSilent rfl⟩
  | hashSilent => exact .inr ⟨rfl, (exec_fault h).hashSilent rfl⟩

end Sys2Proof.Machine

/-! ## The invariant (10_state.md R22, R25, R32, R39, R40, R42; 20_memory.md R60; 44_key.md R216 (4)) -/

namespace Sys2Proof.Machine

open Sys2Proof

/-! ### Commands -/

theorem KeySlot.setComp_inRange {v : KeySlot} {w : Nat} (h : v.InRange w) (c : Comp) {x : KeyComp} (hx : x.val < 2 ^ w) :
    (v.setComp c x).InRange w := by
  obtain ⟨hn, he, hd, hp, hq⟩ := h
  cases c
  · exact ⟨hx, he, hd, hp, hq⟩
  · exact ⟨hn, hx, hd, hp, hq⟩
  · exact ⟨hn, he, hx, hp, hq⟩
  · exact ⟨hn, he, hd, hx, hq⟩
  · exact ⟨hn, he, hd, hp, hx⟩

theorem Rewrites.inRange {s : State} {k : Slot} {v : KeySlot} {i : Instr} (h : Rewrites s k v i) (hs : s.Inv) :
    v.InRange s.par.wBits := by
  cases h with
  | kset c a _ ha hv =>
    rw [hv]
    refine KeySlot.setComp_inRange (hs.keys k) c ?_
    have hreg := hs.regs a
    show (s.reg a).val.toNat < 2 ^ s.par.wBits
    omega
  | kclr hv =>
    rw [hv]
    exact hs.keys k
  | kpub hv =>
    obtain ⟨_, _, hd, hp, hq⟩ := hs.keys k
    obtain ⟨hn, he, _⟩ := hs.keys (otherSlot k)
    rw [hv]
    exact ⟨hn, he, hd, hp, hq⟩

theorem State.Inv.exec_slot_inRange {i : Instr} {s t : State} (hs : s.Inv) (h : exec i s = .next t) (k : Slot) :
    (t.slot k).InRange s.par.wBits := by
  rcases exec_slot h k with hk | ⟨_, _, _, hk⟩ | hr
  · rw [hk]
    exact hs.keys k
  · rw [hk]
    exact hs.keys k
  · exact hr.inRange hs

theorem State.Inv.exec_slot_publicValid {i : Instr} {s t : State} (hs : s.Inv) (h : exec i s = .next t) {k : Slot}
    (hc : (t.slot k).checked = true) : (t.slot k).PublicValid := by
  rcases exec_slot h k with hk | ⟨_, _, hsealed, hk⟩ | hr
  · rw [hk] at hc ⊢
    exact hs.checked k hc
  · rw [hk]
    by_cases h0 : (s.slot k).checked = true
    · exact hs.checked k h0
    · exact hsealed.publicValid (Bool.eq_false_iff.2 h0)
  · cases hr.unchecked.symm.trans hc

theorem memWriteBytes_inside {m : List Host.Cell} {n off : Nat} {bs : Bytes} (h : ∀ c ∈ m, c.1 < n)
    (hoff : off + bs.length ≤ n) : ∀ c ∈ memWriteBytes m off bs, c.1 < n := by
  intro c hc
  rcases memWriteBytes_keys hc with hc | ⟨_, hlt⟩
  · exact h c hc
  · omega

theorem State.Inv.exec_buf {i : Instr} {s t : State} (hs : s.Inv) (h : exec i s = .next t) :
    Memory.wf t.buf ∧ ∀ c ∈ t.buf, c.1 < s.par.bufBytes := by
  rcases exec_next h with ⟨u, p, hu, rfl, _⟩ | ⟨e, p, _, rfl, _⟩
  · rw [State.completeWith_buf]
    rcases hu.buf with ⟨_, hb⟩ | ⟨off, bs, _, hoff, hb, _⟩
    · rw [hb]
      exact ⟨hs.memWf, hs.memIn⟩
    · rw [hb]
      exact ⟨memWriteBytes_wf hs.memWf off bs, memWriteBytes_inside hs.memIn hoff⟩
  · exact ⟨hs.memWf, hs.memIn⟩

theorem State.Inv.exec {i : Instr} {s t : State} (hs : s.Inv) (h : exec i s = .next t) : t.Inv where
  params := by
    rw [exec_par h]
    exact hs.params
  regs r := by
    rw [exec_par h]
    rcases exec_reg h r with hr | ⟨_, hr⟩
    · rw [hr]
      exact hs.regs r
    · exact hr.2
  keys k := by
    rw [exec_par h]
    exact hs.exec_slot_inRange h k
  checked _ := hs.exec_slot_publicValid h
  memWf := (hs.exec_buf h).1
  memIn := by
    rw [exec_par h]
    exact (hs.exec_buf h).2
  cfg := by
    rw [exec_frame h]
    exact hs.cfg
  busy := by
    rw [exec_frame h]
    nofun

/-! ### Host accesses -/

/-- The clauses of the invariant about CFG and about a command in progress. -/
def State.ControlLegal (s : State) : Prop :=
  (1 ≤ s.mrRounds.toNat ∧ 1 ≤ s.expWin.toNat ∧ s.expWin.toNat ≤ 6) ∧
  (s.phase = .busy →
    s.done = false ∧ s.lastCmd = s.cur ∧ 1 ≤ s.mrRoundsL.toNat ∧ 1 ≤ s.expWinL.toNat ∧ s.expWinL.toNat ≤ 6)

theorem legalRounds_legal (v : BitVec 8) : 1 ≤ (legalRounds v).toNat := by
  unfold legalRounds
  split
  · decide
  · next h =>
    rw [Nat.one_le_iff_ne_zero]
    exact fun h0 => h (BitVec.eq_of_toNat_eq h0)

theorem legalWindow_legal (v : BitVec 4) : 1 ≤ (legalWindow v).toNat ∧ (legalWindow v).toNat ≤ 6 := by
  unfold legalWindow
  split
  · assumption
  · decide

theorem State.ControlLegal.writeHostReg {s : State} (h : s.ControlLegal) (r : HostReg) (d : Word) :
    (s.writeHostReg r d).ControlLegal := by
  obtain ⟨hcfg, hbusy⟩ := h
  cases r with
  | cfg => exact ⟨⟨legalRounds_legal _, legalWindow_legal _⟩, hbusy⟩
  | cmd =>
    rw [State.writeHostReg]
    cases hp : s.phase with
    | idle =>
      rw [State.writeCmd_of_idle hp]
      exact ⟨hcfg, fun _ => ⟨rfl, rfl, hcfg⟩⟩
    | busy =>
      rw [State.writeCmd_of_busy hp]
      exact ⟨hcfg, hbusy⟩
  | status =>
    rw [State.writeHostReg, State.writeStatus_eq]
    refine ⟨hcfg, fun hp => ?_⟩
    obtain ⟨hdone, hrest⟩ := hbusy hp
    exact ⟨by simp [hdone], hrest⟩
  | _ => exact ⟨hcfg, hbusy⟩

theorem State.ControlLegal.hostAccess {s : State} (h : s.ControlLegal) (t : Txn) : (s.hostAccess t).ControlLegal := by
  cases t with
  | read w a =>
    obtain ⟨o, ho⟩ := s.hostAccess_read_frame w a
    rw [ho]
    exact h
  | write w a d =>
    cases hg : s.busTarget w a.toNat with
    | none =>
      rw [State.hostAccess_write_of_none hg]
      exact h
    | some g =>
      rw [State.hostAccess_write_of_some hg]
      cases g with
      | reg r => exact h.writeHostReg r d
      | bufByte i => exact h
      | bufWord i => exact h

/-- A write that reaches BUF stays inside it. -/
theorem State.hostAccess_buf_inside {s : State} (h : ∀ c ∈ s.buf, c.1 < s.par.bufBytes) (t : Txn) :
    ∀ c ∈ (s.hostAccess t).buf, c.1 < s.par.bufBytes := by
  cases t with
  | read w a =>
    obtain ⟨o, ho⟩ := s.hostAccess_read_frame w a
    rw [ho]
    exact h
  | write w a d =>
    cases hg : s.busTarget w a.toNat with
    | none =>
      rw [State.hostAccess_write_of_none hg]
      exact h
    | some g =>
      rw [State.hostAccess_write_of_some hg]
      cases g with
      | reg r =>
        obtain ⟨_, _, _, _, hb, _⟩ := s.writeHostReg_frame r d
        show ∀ c ∈ (s.writeHostReg r d).buf, _
        rw [hb]
        exact h
      | bufByte i =>
        obtain ⟨_, _, _, hi⟩ := State.busTarget_bufByte hg
        exact memWriteBytes_inside h hi
      | bufWord i =>
        obtain ⟨_, _, _, _, hi⟩ := State.busTarget_bufWord hg
        exact memWriteBytes_inside h hi

/-- The invariant of a state with the parameters, the registers and the key slots of one that has it. -/
theorem State.Inv.of_same_data {s t : State} (hs : s.Inv) (hpar : t.par = s.par) (hb : t.b = s.b) (h0 : t.k0 = s.k0)
    (h1 : t.k1 = s.k1) (hwf : Memory.wf t.buf) (hin : ∀ c ∈ t.buf, c.1 < s.par.bufBytes) (hctl : t.ControlLegal) :
    t.Inv where
  params := hpar ▸ hs.params
  regs r := by
    rw [State.reg_congr hb, hpar]
    exact hs.regs r
  keys k := by
    rw [State.slot_congr h0 h1, hpar]
    exact hs.keys k
  checked k := by
    rw [State.slot_congr h0 h1]
    exact hs.checked k
  memWf := hwf
  memIn := hpar ▸ hin
  cfg := hctl.1
  busy := hctl.2

theorem State.Inv.hostAccess {s : State} (hs : s.Inv) (t : Txn) : (s.hostAccess t).Inv := by
  obtain ⟨hpar, hb, h0, h1, _⟩ := s.hostAccess_frame t
  exact hs.of_same_data hpar hb h0 h1 (State.hostAccess_wf hs.memWf t) (State.hostAccess_buf_inside hs.memIn t)
    (State.ControlLegal.hostAccess ⟨hs.cfg, hs.busy⟩ t)

/-! ### Reset -/

/-- After reset of a block with legal parameters: every stored integer is 0, nothing is CHECKED, BUF's list is empty. -/
theorem State.resetWith_inv {p : Params} (hp : p.Legal) : (State.resetWith p).Inv where
  params := hp
  regs r := by
    simp only [State.reg, State.resetWith, Vector.getElem_replicate]
    exact Nat.two_pow_pos _
  keys k := by
    have h0 : KeySlot.empty.InRange p.wBits :=
      ⟨Nat.two_pow_pos _, Nat.two_pow_pos _, Nat.two_pow_pos _, Nat.two_pow_pos _, Nat.two_pow_pos _⟩
    cases k <;> exact h0
  checked k := by cases k <;> nofun
  memWf := State.resetWith_wf p
  memIn := nofun
  cfg := by
    obtain ⟨_, _, _, _, _, _, _, _, hr, hw1, hw6⟩ := hp
    exact ⟨hr, hw1, hw6⟩
  busy := nofun

theorem State.Inv.with_events {s : State} (h : s.Inv) (es : List Event) : State.Inv { s with events := es } :=
  h.of_same_data rfl rfl rfl rfl h.memWf h.memIn ⟨h.cfg, h.busy⟩

theorem State.Inv.resetEvent {s : State} (h : s.Inv) : s.resetEvent.Inv :=
  have hr := State.resetWith_inv h.params
  hr.of_same_data rfl rfl rfl rfl hr.memWf hr.memIn ⟨hr.cfg, hr.busy⟩

/-- Settles O29: the default parameters are legal. -/
theorem resetMeetsTheInvariant : Obligations.ResetMeetsTheInvariant := by
  unfold Obligations.ResetMeetsTheInvariant
  exact State.resetWith_inv (by decide)

/-! ### Steps -/

theorem State.Inv.takeError {s : State} (h : s.Inv) (e : ErrCode) (p : Ports) : (s.takeError e p).Inv :=
  h.of_same_data rfl rfl rfl rfl h.memWf h.memIn ⟨h.cfg, nofun⟩

theorem State.Inv.completeEvent {s t : State} (hs : s.Inv) (h : completeEvent s = .next t) : t.Inv := by
  rcases completeEvent_next h with ⟨_, rfl⟩ | ⟨_, ⟨i, _, hi⟩ | ⟨e, _, rfl⟩⟩
  · exact hs
  · exact hs.exec hi
  · exact hs.takeError _ _

/-- Settles O28, event by event: a completion, a host access, a reset. -/
theorem everyStepKeepsTheInvariant : Obligations.EveryStepKeepsTheInvariant := by
  unfold Obligations.EveryStepKeepsTheInvariant
  intro s t hs h
  rcases step_next h with ⟨es, _, hc⟩ | ⟨x, es, _, rfl⟩ | ⟨es, _, rfl⟩
  · exact (hs.with_events es).completeEvent hc
  · exact (hs.with_events es).hostAccess x
  · exact (hs.with_events es).resetEvent

end Sys2Proof.Machine

/-! ## Rules for running a body (00_scope.md R13, R14)

A body is run operation by operation: `runFrom s p body` is what is left of the body of a command on the state `s`, with
the ports `p` left by what ran before. One rule for an operation that goes on, one for each way it raises. -/

namespace Sys2Proof.Machine

open Sys2Proof

/-- The outcome of a command on the state `s` whose remaining body is `body`, on the ports `p`. -/
def runFrom (s : State) (p : Ports) (body : Cmd State) : Host.Outcome State Fault Refusal :=
  match body p with
  | .ok t q => .next (t.completeWith .ok q)
  | .error (.raise e) q => .next (s.completeWith e q)
  | .error (.stalled f) _ => .fault f

theorem runBody_eq_runFrom (s : State) (body : Cmd State) : runBody s body = runFrom s s.ports body := rfl

section

variable {α : Type} {s t : State} {p q : Ports}

theorem runFrom_of_ok {c : Cmd State} (h : c p = .ok t q) : runFrom s p c = .next (t.completeWith .ok q) := by
  rw [runFrom, h]

theorem runFrom_of_raise {c : Cmd State} {e : ErrCode} (h : c p = .error (.raise e) q) :
    runFrom s p c = .next (s.completeWith e q) := by
  rw [runFrom, h]

theorem runFrom_pure (s t : State) (p : Ports) : runFrom s p (pure t) = .next (t.completeWith .ok p) := rfl

theorem runFrom_bind {c : Cmd α} {a : α} (h : c p = .ok a q) (f : α → Cmd State) :
    runFrom s p (c >>= f) = runFrom s q (f a) := by
  rw [runFrom, runFrom, bind_of_ok h]

theorem runFrom_bind_raise {c : Cmd α} {e : ErrCode} (h : c p = .error (.raise e) q) (f : α → Cmd State) :
    runFrom s p (c >>= f) = .next (s.completeWith e q) :=
  runFrom_of_raise (bind_of_error h)

/-! ### Operands -/

theorem runFrom_readReg {u : State} {r : RegIdx} (h : (u.reg r).valid = true) (f : Int → Cmd State) :
    runFrom s p (readReg u r >>= f) = runFrom s p (f (u.reg r).val) :=
  runFrom_bind (readReg_of_valid h p) f

/-- A source read that meets an unwritten register, here or further on, ends the command. -/
theorem runFrom_readReg_undef {u : State} {r a : RegIdx} {f : Int → Cmd State} (hr : (u.reg r).valid = false)
    (hf : r ≠ a → ∀ x, runFrom s p (f x) = .next (s.completeWith .undefOperand p)) :
    runFrom s p (readReg u a >>= f) = .next (s.completeWith .undefOperand p) := by
  by_cases ha : (u.reg a).valid = true
  · rw [runFrom_readReg ha]
    exact hf (fun h => by simp [← h, hr] at ha) _
  · exact runFrom_bind_raise (readReg_of_unwritten (Bool.eq_false_iff.2 ha) p) f

theorem runFrom_raiseIf_neg {c : Prop} [Decidable c] {e : ErrCode} (h : ¬c) (f : Unit → Cmd State) :
    runFrom s p (raiseIf c e >>= f) = runFrom s p (f ()) :=
  runFrom_bind (raiseIf_of_not h e p) f

theorem runFrom_raiseIf_pos {c : Prop} [Decidable c] {e : ErrCode} (h : c) (f : Unit → Cmd State) :
    runFrom s p (raiseIf c e >>= f) = .next (s.completeWith e p) :=
  runFrom_bind_raise (raiseIf_of h e p) f

theorem runFrom_checkRange {u : State} {off len : Nat} (h : off + len ≤ u.par.bufBytes) (f : Unit → Cmd State) :
    runFrom s p (checkRange u off len >>= f) = runFrom s p (f ()) :=
  runFrom_raiseIf_neg (not_lt.2 h) f

theorem runFrom_checkRange_beyond {u : State} {off len : Nat} (h : u.par.bufBytes < off + len) (f : Unit → Cmd State) :
    runFrom s p (checkRange u off len >>= f) = .next (s.completeWith .bufRange p) :=
  runFrom_raiseIf_pos h f

/-- Of two ranges checked one after the other, one lies beyond BUF. -/
theorem runFrom_checkRanges_beyond {u : State} {off len off' len' : Nat}
    (h : u.par.bufBytes < off + len ∨ u.par.bufBytes < off' + len') (f : Unit → Cmd State) :
    runFrom s p (checkRange u off len >>= fun _ => checkRange u off' len' >>= f) = .next (s.completeWith .bufRange p) := by
  by_cases h1 : u.par.bufBytes < off + len
  · exact runFrom_checkRange_beyond h1 _
  · rw [runFrom_checkRange (not_lt.1 h1)]
    exact runFrom_checkRange_beyond (h.resolve_left h1) f

theorem runFrom_requireHash {u : State} {h : HashId} (hs : u.hashSupported h = true) (f : Unit → Cmd State) :
    runFrom s p (requireHash u h >>= f) = runFrom s p (f ()) :=
  runFrom_raiseIf_neg (by simp [hs]) f

theorem runFrom_requireHash_unsupported {u : State} {h : HashId} (hs : u.hashSupported h = false) (f : Unit → Cmd State) :
    runFrom s p (requireHash u h >>= f) = .next (s.completeWith .unsupportedHash p) :=
  runFrom_raiseIf_pos hs f

theorem runFrom_checkModulus {m : Int} (h : 0 < m) (f : Unit → Cmd State) :
    runFrom s p (checkModulus m >>= f) = runFrom s p (f ()) :=
  runFrom_bind (checkModulus_eq_ok.2 ⟨h, rfl⟩) f

theorem runFrom_checkModulus_zero {m : Int} (h : m = 0) (f : Unit → Cmd State) :
    runFrom s p (checkModulus m >>= f) = .next (s.completeWith .divZero p) :=
  runFrom_bind_raise (bind_of_error (raiseIf_of h _ p)) f

theorem runFrom_checkModulus_neg {m : Int} (h : m < 0) (f : Unit → Cmd State) :
    runFrom s p (checkModulus m >>= f) = .next (s.completeWith .domain p) :=
  runFrom_bind_raise ((bind_of_ok (raiseIf_of_not h.ne _ p)).trans (raiseIf_of h _ p)) f

/-! ### Results -/

theorem runFrom_stageReg {u : State} {r : RegIdx} {v : Int} (h : v.natAbs < 2 ^ u.par.wBits) (f : State → Cmd State) :
    runFrom s p (stageReg u r v >>= f) = runFrom s p (f (u.putReg r v)) :=
  runFrom_bind (stageReg_eq_ok.2 ⟨h, rfl, rfl⟩) f

theorem runFrom_stageResult {u : State} {v : Int} (h : v.natAbs < 2 ^ u.par.wBits) (rd : RegIdx) :
    runFrom s p (stageResult u rd v) = .next ((u.withResult rd v).completeWith .ok p) :=
  runFrom_of_ok (stageResult_of_fits h rd p)

theorem runFrom_stageResult_overflow {u : State} {v : Int} (h : 2 ^ u.par.wBits ≤ v.natAbs) (rd : RegIdx) :
    runFrom s p (stageResult u rd v) = .next (s.completeWith .overflow p) :=
  runFrom_of_raise (stageResult_of_overflow h rd p)

end

end Sys2Proof.Machine

/-! ## Integer arithmetic, moves and byte conversion (40_bigint_arith.md R111..R126) -/

namespace Sys2Proof.Machine

open Sys2Proof

/-! ### Moves and comparisons -/

theorem two_pow_22_le {p : Params} (h : p.Legal) : 2 ^ 22 ≤ 2 ^ p.wBits := by
  obtain ⟨_, h32, _⟩ := h
  exact Nat.pow_le_pow_right (by norm_num) (by omega)

theorem bitlen_lt_two_pow {a w : Nat} (h : a < 2 ^ w) : bitlen a < 2 ^ w :=
  (bitlen_le h).trans_lt Nat.lt_two_pow_self

/-- Settles O30: the sources are written and every result is in range. -/
theorem movesAndComparisonsComplete : Obligations.MovesAndComparisonsComplete := by
  unfold Obligations.MovesAndComparisonsComplete
  intro s rd a b imm hs
  have ha := hs.regs a
  have himm : (imm.toNat : Int).natAbs < 2 ^ s.par.wBits := by
    rw [Int.natAbs_natCast]
    exact imm.isLt.trans_le (two_pow_22_le hs.params)
  refine ⟨rfl, runFrom_stageResult himm rd, fun hva => ⟨?neg, ?mov, ⟨bitlen (s.reg a).val.natAbs, ?_, ?_, ?bitlen⟩, ?cmp⟩⟩
  case neg =>
    exact (runFrom_readReg hva _).trans (runFrom_stageResult (by rwa [Int.natAbs_neg]) rd)
  case mov =>
    exact (runFrom_readReg hva _).trans (runFrom_stageResult ha rd)
  case bitlen =>
    exact (runFrom_readReg hva _).trans (runFrom_stageResult (by simpa using bitlen_lt_two_pow ha) rd)
  case cmp =>
    intro hvb
    exact (runFrom_readReg hva _).trans (runFrom_readReg hvb _)
  · exact lt_two_pow_bitlen _
  · exact fun _ => bitlen_le

/-! ### Sums, differences, products, quotients -/

/-- Settles O31: the three commands stage their exact result. -/
theorem addSubMulAreExactOrOverflow : Obligations.AddSubMulAreExactOrOverflow := by
  unfold Obligations.AddSubMulAreExactOrOverflow
  intro s rd a b hva hvb i v hi
  have hrun : exec i s = runFrom s s.ports (stageResult s rd v) := by
    rcases hi with ⟨rfl, rfl⟩ | ⟨rfl, rfl⟩ | ⟨rfl, rfl⟩ <;>
      exact (runFrom_readReg hva _).trans (runFrom_readReg hvb _)
  rw [hrun]
  exact ⟨fun h => runFrom_stageResult h rd, fun h => runFrom_stageResult_overflow h rd⟩

/-- The remainder of the division toward zero has the sign of the dividend. -/
theorem tmod_neg_iff {a b : Int} (h : a.tmod b ≠ 0) : a.tmod b < 0 ↔ a < 0 := by
  constructor
  · intro hr
    by_contra ha
    exact absurd (Int.tmod_nonneg b (not_lt.1 ha)) (not_le.2 hr)
  · intro ha
    have hneg : 0 ≤ (-a).tmod b := Int.tmod_nonneg b (by omega)
    rw [Int.neg_tmod] at hneg
    omega

theorem natAbs_tmod_lt {a b : Int} (h : b ≠ 0) : (a.tmod b).natAbs < b.natAbs := by
  rw [Int.natAbs_tmod]
  exact Nat.mod_lt _ (Int.natAbs_pos.2 h)

/-- Settles O32, with the quotient and the remainder of the division toward zero. -/
theorem divRemTruncateTowardZero : Obligations.DivRemTruncateTowardZero := by
  unfold Obligations.DivRemTruncateTowardZero
  intro s rd a b hs hva hvb
  have hdiv : exec (.div rd a b) s = _ := (runFrom_readReg hva _).trans (runFrom_readReg hvb _)
  have hrem : exec (.rem rd a b) s = _ := (runFrom_readReg hva _).trans (runFrom_readReg hvb _)
  rw [hdiv, hrem]
  constructor
  · intro hb
    have hq : ((s.reg a).val.tdiv (s.reg b).val).natAbs < 2 ^ s.par.wBits := by
      rw [Int.natAbs_tdiv]
      exact (Nat.div_le_self _ _).trans_lt (hs.regs a)
    have hr := (natAbs_tmod_lt (a := (s.reg a).val) hb).trans (hs.regs b)
    refine ⟨(s.reg a).val.tdiv (s.reg b).val, (s.reg a).val.tmod (s.reg b).val, (Int.mul_tdiv_add_tmod _ _).symm,
      natAbs_tmod_lt hb, tmod_neg_iff, ?_, ?_⟩
    · exact (runFrom_raiseIf_neg hb _).trans (runFrom_stageResult hq rd)
    · rw [Int.tmod_def] at hr ⊢
      exact (runFrom_raiseIf_neg hb _).trans (runFrom_stageResult hr rd)
  · intro hb
    exact ⟨runFrom_raiseIf_pos hb _, runFrom_raiseIf_pos hb _⟩

/-! ### Unwritten sources -/

/-- Settles O33: every command with sources reads them first; XGCD's test of RD passes in a well-formed command. -/
theorem unwrittenSourcesRaiseUndefOperand : Obligations.UnwrittenSourcesRaiseUndefOperand := by
  unfold Obligations.UnwrittenSourcesRaiseUndefOperand
  intro i s r hw hr hu
  cases i
  case add | sub | mul | div | rem | cmp | modred | gcd | modinv =>
    simp only [srcRegs, List.mem_cons, List.not_mem_nil, or_false] at hr
    exact runFrom_readReg_undef hu fun h1 _ => runFrom_readReg_undef hu fun h2 => absurd (hr.resolve_left h1) h2
  case xgcd rd a b =>
    simp only [srcRegs, List.mem_cons, List.not_mem_nil, or_false] at hr
    refine (runFrom_raiseIf_neg (by simpa [Instr.wellFormed] using hw) _).trans ?_
    exact runFrom_readReg_undef hu fun h1 _ => runFrom_readReg_undef hu fun h2 => absurd (hr.resolve_left h1) h2
  case modmul | modexp =>
    simp only [srcRegs, List.mem_cons, List.not_mem_nil, or_false] at hr
    exact runFrom_readReg_undef hu fun h1 _ => runFrom_readReg_undef hu fun h2 _ =>
      runFrom_readReg_undef hu fun h3 => absurd ((hr.resolve_left h1).resolve_left h2) h3
  case neg | mov | bitlen | rndbelow | mrtest | stb | stbm | kset =>
    exact runFrom_readReg_undef hu fun h1 => absurd (List.mem_singleton.1 hr) h1
  all_goals cases hr

/-! ### Bytes -/

/-- A string just written is read back. -/
theorem State.memRead_memWrite_self (s : State) (off : Nat) (bs : Bytes) :
    (s.memWrite off bs).memRead off bs.length = bs := by
  refine List.ext_getElem (State.memRead_length ..) fun j _ hj => ?_
  simp only [State.memRead, List.getElem_map, List.getElem_range]
  exact s.memWrite_bufByte_inside off hj

/-- Settles O35, from the byte reads after a string write. -/
theorem bufReadsBackWhatWasStored : Obligations.BufReadsBackWhatWasStored := by
  unfold Obligations.BufReadsBackWhatWasStored
  exact fun s off bs => ⟨s.memRead_memWrite_self off bs, fun _ => s.memWrite_bufByte_outside,
    fun h => memWriteBytes_wf h off bs⟩

/-- Settles O36: the range is checked, then the value of its bytes is staged. -/
theorem ldbLoadsBigEndian : Obligations.LdbLoadsBigEndian := by
  unfold Obligations.LdbLoadsBigEndian
  intro s rd v
  refine ⟨fun hr hv => ?_, fun hr hv => ?_, fun hr => runFrom_checkRange_beyond hr _⟩
  · exact (runFrom_checkRange hr _).trans (runFrom_stageResult (by rwa [Int.natAbs_natCast]) rd)
  · exact (runFrom_checkRange hr _).trans (runFrom_stageResult_overflow (by rwa [Int.natAbs_natCast]) rd)

/-- Settles O37: the checks of STB and STBM in the order of their rules. -/
theorem stbAndStbmStoreBigEndian : Obligations.StbAndStbmStoreBigEndian := by
  unfold Obligations.StbAndStbmStoreBigEndian
  intro s a hva v off l
  have hstb : exec (.stb a) s = _ := runFrom_readReg hva _
  have hstbm : exec (.stbm a) s = _ := runFrom_readReg hva _
  rw [hstb, hstbm]
  refine ⟨fun hr h0 hv => ?_, fun hr => runFrom_checkRange_beyond hr _, fun hr h0 => ?_, fun hr h0 hv => ?_,
    fun h0 hr => ?_, fun h0 => runFrom_raiseIf_pos h0 _, fun h0 hr => ?_⟩
  · rw [runFrom_checkRange hr, runFrom_raiseIf_neg (not_lt.2 h0), runFrom_raiseIf_neg (not_le.2 hv)]
    rfl
  · rw [runFrom_checkRange hr, runFrom_raiseIf_pos h0]
    rfl
  · rw [runFrom_checkRange hr, runFrom_raiseIf_neg (not_lt.2 h0), runFrom_raiseIf_pos hv]
    rfl
  · rw [runFrom_raiseIf_neg (not_lt.2 h0), runFrom_checkRange hr]
    rfl
  · rw [runFrom_raiseIf_neg (not_lt.2 h0), runFrom_checkRange_beyond hr]
    rfl

end Sys2Proof.Machine

/-! ### Round trips of a register through BUF (40_bigint_arith.md R126) -/

namespace Sys2Proof.Machine

open Sys2Proof

/-- LDB of a string that stands in BUF and whose value fits. -/
theorem ldb_of_memRead {t u : State} {d : RegIdx} {off : Nat} {bs : Bytes} (h : exec (.ldb d) t = .next u)
    (hread : t.memRead off bs.length = bs) (h0 : t.argLatched 0 = off) (h1 : t.argLatched 1 = bs.length)
    (hr : off + bs.length ≤ t.par.bufBytes) (hv : os2ip bs < 2 ^ t.par.wBits) :
    u.err = .ok ∧ (u.reg d).val = os2ip bs := by
  have hload := (ldbLoadsBigEndian t d).1
  rw [h0, h1] at hload
  have hread' : (List.range bs.length).map (fun j => t.bufByte (off + j)) = bs := hread
  rw [hread', h] at hload
  cases hload hr hv
  exact ⟨rfl, by rw [State.doneWith_reg, State.withResult_reg, if_pos rfl]⟩

theorem exec_stbm_ok {s t : State} {a : RegIdx} (h : exec (.stbm a) s = .next t) (hok : t.err = .ok) :
    0 ≤ (s.reg a).val ∧ s.argLatched 0 + (i2ospMin (s.reg a).val.toNat).length ≤ s.par.bufBytes ∧
    t = { s with
      buf := memWriteBytes s.buf (s.argLatched 0) (i2ospMin (s.reg a).val.toNat)
      res := BitVec.ofNat 32 (i2ospMin (s.reg a).val.toNat).length }.doneWith .ok := by
  by_cases hva : (s.reg a).valid = true
  · obtain ⟨_, _, _, _, hstore, hneg, hbeyond⟩ := stbAndStbmStoreBigEndian s a hva
    by_cases h0 : 0 ≤ (s.reg a).val
    · by_cases hr : s.argLatched 0 + (i2ospMin (s.reg a).val.toNat).length ≤ s.par.bufBytes
      · exact ⟨h0, hr, Host.Outcome.next.inj (h.symm.trans (hstore h0 hr))⟩
      · cases h.symm.trans (hbeyond h0 (not_le.1 hr))
        cases hok
    · cases h.symm.trans (hneg (not_le.1 h0))
      cases hok
  · cases h.symm.trans (unwrittenSourcesRaiseUndefOperand (.stbm a) s a rfl (by simp [srcRegs]) (Bool.eq_false_iff.2 hva))
    cases hok

theorem exec_stb_ok {s t : State} {a : RegIdx} (h : exec (.stb a) s = .next t) (hok : t.err = .ok) :
    0 ≤ (s.reg a).val ∧ s.argLatched 0 + s.argLatched 1 ≤ s.par.bufBytes ∧
    (s.reg a).val.toNat < 256 ^ s.argLatched 1 ∧
    t = { s with
      buf := memWriteBytes s.buf (s.argLatched 0) (i2osp (s.reg a).val.toNat (s.argLatched 1))
      res := BitVec.ofNat 32 (s.argLatched 1) }.doneWith .ok := by
  by_cases hva : (s.reg a).valid = true
  · obtain ⟨hstore, hbeyond, hneg, hbig, _⟩ := stbAndStbmStoreBigEndian s a hva
    by_cases hr : s.argLatched 0 + s.argLatched 1 ≤ s.par.bufBytes
    · by_cases h0 : 0 ≤ (s.reg a).val
      · by_cases hv : (s.reg a).val.toNat < 256 ^ s.argLatched 1
        · exact ⟨h0, hr, hv, Host.Outcome.next.inj (h.symm.trans (hstore hr h0 hv))⟩
        · cases h.symm.trans (hbig hr h0 (not_lt.1 hv))
          cases hok
      · cases h.symm.trans (hneg hr (not_le.1 h0))
        cases hok
    · cases h.symm.trans (hbeyond (not_le.1 hr))
      cases hok
  · cases h.symm.trans (unwrittenSourcesRaiseUndefOperand (.stb a) s a rfl (by simp [srcRegs]) (Bool.eq_false_iff.2 hva))
    cases hok

/-- A length inside BUF is what RES holds of it. -/
theorem toNat_ofNat_of_le_bufBytes {p : Params} (h : p.Legal) {n : Nat} (hn : n ≤ p.bufBytes) :
    (BitVec.ofNat 32 n).toNat = n := by
  obtain ⟨_, _, _, _, hbuf, _⟩ := h
  rw [BitVec.toNat_ofNat]
  exact Nat.mod_eq_of_lt (by omega)

theorem State.Inv.toNat_reg_lt {s : State} (h : s.Inv) (r : RegIdx) : (s.reg r).val.toNat < 2 ^ s.par.wBits := by
  have hr := h.regs r
  omega

/-- Settles O38: the stored string is read back and its value is the register's. -/
theorem storedIntegersLoadBack : Obligations.StoredIntegersLoadBack := by
  unfold Obligations.StoredIntegersLoadBack
  rintro s t u a d hs (⟨hst, hok, hld⟩ | ⟨hst, hok, hld⟩)
  · obtain ⟨h0, hr, rfl⟩ := exec_stbm_ok hst hok
    have hlen := toNat_ofNat_of_le_bufBytes hs.params (Nat.le_of_add_left_le hr)
    obtain ⟨hu, hv⟩ := ldb_of_memRead hld (s.memRead_memWrite_self (s.argLatched 0) (i2ospMin (s.reg a).val.toNat))
      (by simp [State.argLatched]) (by simpa [State.argLatched] using hlen) hr
      (by rw [os2ip_i2ospMin]; exact hs.toNat_reg_lt a)
    exact ⟨hu, by rw [hv, os2ip_i2ospMin, Int.toNat_of_nonneg h0]⟩
  · obtain ⟨h0, hr, hlt, rfl⟩ := exec_stb_ok hst hok
    have hlen := i2osp_length (s.reg a).val.toNat (s.argLatched 1)
    obtain ⟨hu, hv⟩ := ldb_of_memRead hld
      (s.memRead_memWrite_self (s.argLatched 0) (i2osp (s.reg a).val.toNat (s.argLatched 1))) rfl hlen.symm
      (by rw [hlen]; exact hr) (by rw [os2ip_i2osp hlt]; exact hs.toNat_reg_lt a)
    exact ⟨hu, by rw [hv, os2ip_i2osp hlt, Int.toNat_of_nonneg h0]⟩

end Sys2Proof.Machine

/-! ## Modular arithmetic, gcd (41_bigint_modular.md R140..R149) -/

namespace Sys2Proof.Machine

open Sys2Proof

/-- A residue of a modulus in range is in range. -/
theorem natAbs_emod_lt {a m : Int} {w : Nat} (hm : 0 < m) (hw : m.natAbs < 2 ^ w) : (a % m).natAbs < 2 ^ w := by
  have h0 := Int.emod_nonneg a hm.ne'
  have h1 := Int.emod_lt_of_pos a hm
  omega

/-- Settles O39: the modulus passes its checks, and `powModInt` is the power's residue. -/
theorem modularResultsAreCanonicalResidues : Obligations.ModularResultsAreCanonicalResidues := by
  unfold Obligations.ModularResultsAreCanonicalResidues
  intro s rd a b m hs hva hvm hm
  have hfit (v : Int) : (v % (s.reg m).val).natAbs < 2 ^ s.par.wBits := natAbs_emod_lt hm (hs.regs m)
  refine ⟨?modred, fun hvb => ⟨?modmul, fun hb => ?modexp⟩⟩
  case modred =>
    refine (runFrom_readReg hva _).trans ?_
    rw [runFrom_readReg hvm, runFrom_checkModulus hm, runFrom_stageResult (hfit _)]
    rfl
  case modmul =>
    refine (runFrom_readReg hva _).trans ?_
    rw [runFrom_readReg hvb, runFrom_readReg hvm, runFrom_checkModulus hm, runFrom_stageResult (hfit _)]
    rfl
  case modexp =>
    refine (runFrom_readReg hva _).trans ?_
    rw [runFrom_readReg hvb, runFrom_readReg hvm, runFrom_checkModulus hm, runFrom_raiseIf_neg (not_lt.2 hb),
      powModInt_eq hb hm, runFrom_stageResult (hfit _)]
    rfl

/-- Settles O40: the four commands check their modulus once the operands are read, MODEXP its exponent after it. -/
theorem badModuliAndExponentsTrap : Obligations.BadModuliAndExponentsTrap := by
  unfold Obligations.BadModuliAndExponentsTrap
  intro s rd a b m i hva hvb hvm
  constructor
  · intro hi
    have hrun : ∃ f, exec i s = runFrom s s.ports (checkModulus (s.reg m).val >>= f) := by
      rcases hi with rfl | rfl | rfl | rfl
      · exact ⟨_, (runFrom_readReg hva _).trans (runFrom_readReg hvm _)⟩
      · exact ⟨_, (runFrom_readReg hva _).trans ((runFrom_readReg hvb _).trans (runFrom_readReg hvm _))⟩
      · exact ⟨_, (runFrom_readReg hva _).trans ((runFrom_readReg hvb _).trans (runFrom_readReg hvm _))⟩
      · exact ⟨_, (runFrom_readReg hva _).trans (runFrom_readReg hvm _)⟩
    obtain ⟨f, hf⟩ := hrun
    rw [hf]
    exact ⟨fun h => runFrom_checkModulus_zero h f, fun h => runFrom_checkModulus_neg h f⟩
  · rintro rfl hm hb
    refine (runFrom_readReg hva _).trans ?_
    rw [runFrom_readReg hvb, runFrom_readReg hvm, runFrom_checkModulus hm, runFrom_raiseIf_pos hb]
    rfl

/-! ### The coefficients of ExtEuclid -/

/-- Subtracting a multiple of a number of the other sign adds the magnitudes, and the result has that other sign's opposite. -/
theorem natAbs_sub_mul_of_opposite {x y : Int} (q : Nat) (h : x * y ≤ 0) :
    (x - q * y).natAbs = x.natAbs + q * y.natAbs ∧ y * (x - q * y) ≤ 0 := by
  have hq : (0 : Int) ≤ q := Int.natCast_nonneg q
  constructor
  · have habs : |x - q * y| = |x| + q * |y| := by
      rcases le_total 0 x with hx | hx <;> rcases le_total 0 y with hy | hy
      · rcases mul_eq_zero.1 (le_antisymm h (mul_nonneg hx hy)) with rfl | rfl
        · simp [abs_mul]
        · simp
      · rw [abs_of_nonneg hx, abs_of_nonpos hy, abs_of_nonneg (by nlinarith)]
        ring
      · rw [abs_of_nonpos hx, abs_of_nonneg hy, abs_of_nonpos (by nlinarith)]
        ring
      · rcases mul_eq_zero.1 (le_antisymm h (mul_nonneg_of_nonpos_of_nonpos hx hy)) with rfl | rfl
        · simp [abs_mul]
        · simp
    zify
    exact habs
  · nlinarith [mul_nonneg hq (mul_self_nonneg y)]

/-- One of the two coefficient sequences of ExtEuclid at a division step on (r0, r1), for an operand of magnitude `a`: the
two coefficients have opposite signs, `a` is their combination, and both stay within `m`. -/
structure CoefficientsBounded (a m r0 r1 : Nat) (t0 t1 : Int) : Prop where
  opposite : t0 * t1 ≤ 0
  combination : r0 * t1.natAbs + r1 * t0.natAbs = a
  bound0 : t0.natAbs ≤ m
  bound1 : t1.natAbs ≤ m

theorem CoefficientsBounded.step {a m r0 r1 : Nat} {t0 t1 : Int} (h : CoefficientsBounded a m r0 r1 t0 t1) (ha : a ≤ m)
    (hr : r1 ≠ 0) : CoefficientsBounded a m r1 (r0 - r0 / r1 * r1) t1 (t0 - (r0 / r1 : Nat) * t1) := by
  obtain ⟨hop, hcomb, _, hb1⟩ := h
  obtain ⟨habs, hop'⟩ := natAbs_sub_mul_of_opposite (r0 / r1) hop
  have hle : r0 / r1 * r1 ≤ r0 := Nat.div_mul_le_self r0 r1
  have hcomb' : r1 * (t0 - (r0 / r1 : Nat) * t1).natAbs + (r0 - r0 / r1 * r1) * t1.natAbs = a := by
    rw [habs, ← hcomb]
    zify [hle]
    ring
  refine ⟨hop', hcomb', hb1, ?_⟩
  calc (t0 - (r0 / r1 : Nat) * t1).natAbs ≤ r1 * (t0 - (r0 / r1 : Nat) * t1).natAbs :=
        Nat.le_mul_of_pos_left _ (Nat.pos_of_ne_zero hr)
    _ ≤ a := by omega
    _ ≤ m := ha

theorem euclidLoop_bounded {a b m : Nat} (ha : a ≤ m) (hb : b ≤ m) (fuel : Nat) {r0 r1 : Nat} {s0 s1 t0 t1 : Int}
    (hs : CoefficientsBounded b m r0 r1 s0 s1) (ht : CoefficientsBounded a m r0 r1 t0 t1) :
    (euclidLoop fuel r0 r1 s0 s1 t0 t1).2.1.natAbs ≤ m ∧ (euclidLoop fuel r0 r1 s0 s1 t0 t1).2.2.natAbs ≤ m := by
  induction fuel generalizing r0 r1 s0 s1 t0 t1 with
  | zero => exact ⟨hs.bound0, ht.bound0⟩
  | succ fuel ih =>
    unfold euclidLoop
    split
    · exact ⟨hs.bound0, ht.bound0⟩
    · next hr => exact ih (hs.step hb hr) (ht.step ha hr)

theorem natAbs_signFactor_mul (x y : Int) : (signFactor x * y).natAbs = y.natAbs := by
  unfold signFactor
  split <;> simp

theorem extEuclid_bounded (a b : Int) :
    (extEuclid a b).2.1.natAbs ≤ max (max a.natAbs b.natAbs) 1 ∧
    (extEuclid a b).2.2.natAbs ≤ max (max a.natAbs b.natAbs) 1 := by
  simp only [extEuclid, natAbs_signFactor_mul]
  exact euclidLoop_bounded (a := a.natAbs) (b := b.natAbs) (by omega) (by omega) _
    ⟨by simp, by simp, by omega, by omega⟩ ⟨by simp, by simp, by omega, by omega⟩

/-! ### GCD, XGCD and MODINV -/

theorem gcd_le_max (a b : Int) : Int.gcd a b ≤ max a.natAbs b.natAbs := by
  by_cases ha : a = 0
  · subst ha
    rw [Int.gcd_zero_left]
    exact le_max_right _ _
  · exact (Nat.le_of_dvd (Int.natAbs_pos.2 ha) (Int.gcd_dvd_natAbs_left a b)).trans (le_max_left _ _)

theorem State.Inv.two_le_two_pow {s : State} (h : s.Inv) : 2 ≤ 2 ^ s.par.wBits :=
  le_trans (by norm_num) (two_pow_22_le h.params)

/-- Settles O41: ExtEuclid's values are in range, so no write overflows. -/
theorem gcdAndXgcdComplete : Obligations.GcdAndXgcdComplete := by
  unfold Obligations.GcdAndXgcdComplete
  intro s rd a b hs hva hvb
  obtain ⟨hg, hcomb⟩ := extEuclid_spec (s.reg a).val (s.reg b).val
  obtain ⟨hx, hy⟩ := extEuclid_bounded (s.reg a).val (s.reg b).val
  have hra := hs.regs a
  have hrb := hs.regs b
  have h2 := hs.two_le_two_pow
  have hgcd := gcd_le_max (s.reg a).val (s.reg b).val
  have hfit : ((Int.gcd (s.reg a).val (s.reg b).val : Nat) : Int).natAbs < 2 ^ s.par.wBits := by
    rw [Int.natAbs_natCast]
    omega
  constructor
  · refine (runFrom_readReg hva _).trans ?_
    rw [runFrom_readReg hvb, hg, runFrom_stageResult hfit]
    rfl
  · intro hrd
    refine ⟨(extEuclid (s.reg a).val (s.reg b).val).2.1, (extEuclid (s.reg a).val (s.reg b).val).2.2, Prod.ext hg rfl,
      hcomb, hx, hy, ?_⟩
    refine (runFrom_raiseIf_neg (not_lt.2 hrd) _).trans ?_
    rw [runFrom_readReg hva, runFrom_readReg hvb, hg, runFrom_stageReg hfit,
      runFrom_stageReg (by rw [State.putReg_par]; omega),
      runFrom_stageReg (by rw [State.putReg_par, State.putReg_par]; omega), runFrom_pure]
    simp [State.flagsOf, State.completeWith, State.doneWith]

/-- The residue of ExtEuclid's first coefficient inverts `a` when the gcd is 1. -/
theorem dvd_mul_emod_sub_one {a m x y : Int} (h : a % m * x + m * y = 1) : m ∣ a * (x % m) - 1 := by
  have ha := Int.mul_ediv_add_emod a m
  have hx := Int.mul_ediv_add_emod x m
  exact ⟨a / m * x - a * (x / m) - y, by linear_combination (-x) * ha + a * hx + h⟩

/-- Settles O42, with the residue of ExtEuclid's first coefficient. -/
theorem modinvInvertsOrTraps : Obligations.ModinvInvertsOrTraps := by
  unfold Obligations.ModinvInvertsOrTraps
  intro s rd a m hs hva hvm hm
  obtain ⟨hg, hcomb⟩ := extEuclid_spec ((s.reg a).val % (s.reg m).val) (s.reg m).val
  rw [Int.gcd_emod] at hg hcomb
  have hrun : exec (.modinv rd a m) s = _ := (runFrom_readReg hva _).trans
    ((runFrom_readReg hvm _).trans (runFrom_checkModulus hm _))
  rw [hrun, hg]
  constructor
  · intro h1
    rw [h1] at hcomb
    refine ⟨_, Int.emod_nonneg _ hm.ne', Int.emod_lt_of_pos _ hm, dvd_mul_emod_sub_one hcomb, ?_⟩
    rw [runFrom_raiseIf_neg (not_not.2 h1), runFrom_stageResult (natAbs_emod_lt hm (hs.regs m))]
    rfl
  · intro h1
    exact runFrom_raiseIf_pos h1 _

end Sys2Proof.Machine

/-! ## The primality test (41_bigint_modular.md R150..R152) -/

namespace Sys2Proof.Machine

open Sys2Proof

theorem millerRabin_of_small_composite {n : Int} (h : n < 2 ∨ (4 ≤ n ∧ n % 2 = 0)) (limit rounds : Nat) (p : Ports) :
    millerRabin limit rounds n p = .ok false p := by
  unfold millerRabin
  by_cases h2 : n < 2
  · rw [if_pos h2]
    rfl
  · rw [if_neg h2, if_neg (by omega), if_pos (by omega)]
    rfl

theorem millerRabin_of_two_or_three {n : Int} (h : n = 2 ∨ n = 3) (limit rounds : Nat) (p : Ports) :
    millerRabin limit rounds n p = .ok true p := by
  unfold millerRabin
  rw [if_neg (by omega), if_pos h]
  rfl

theorem exec_mrtest_of_ok {s : State} {a : RegIdx} {r : Bool} {q : Ports} (hva : (s.reg a).valid = true)
    (h : millerRabin s.par.retryLimit s.mrRoundsL.toNat (s.reg a).val s.ports = .ok r q) :
    exec (.mrtest a) s = .next (((s.setBFlag r).setRes (boolScalar r)).completeWith .ok q) :=
  (runFrom_readReg hva _).trans (runFrom_bind h _)

/-- Settles O43, from what the test answers on the bases its draws give, and on a draw that fails. -/
theorem mrtestFollowsTheDrawnBases : Obligations.MrtestFollowsTheDrawnBases := by
  unfold Obligations.MrtestFollowsTheDrawnBases
  intro s a hva n limit answer
  refine ⟨fun hn => exec_mrtest_of_ok hva (millerRabin_of_small_composite hn _ _ _),
    fun hn => exec_mrtest_of_ok hva (millerRabin_of_two_or_three hn _ _ _),
    fun hn ho xs r hx => ⟨fun hlen => ?pass, fun x q hlen hdraw hw => ?witness⟩, fun e q hf => ?fails⟩
  case pass => exact exec_mrtest_of_ok hva (hlen ▸ millerRabin_of_pass hn ho hx)
  case witness => exact exec_mrtest_of_ok hva (millerRabin_of_witness hn ho hx hlen hdraw hw)
  case fails =>
    have hn : ((n.toNat : Nat) : Int) = n := Int.toNat_of_nonneg (by have := hf.1; omega)
    have hrun := millerRabin_of_fails hf
    rw [hn] at hrun
    exact (runFrom_readReg hva _).trans (runFrom_bind_raise hrun _)

/-! ### A prime passes every base -/

theorem splitTwos_spec (fuel m : Nat) : 2 ^ (splitTwos fuel m).1 * (splitTwos fuel m).2 = m := by
  induction fuel generalizing m with
  | zero => simp [splitTwos]
  | succ fuel ih =>
    unfold splitTwos
    split
    · next h2 =>
      have hhalf := ih (m / 2)
      show 2 ^ ((splitTwos fuel (m / 2)).1 + 1) * (splitTwos fuel (m / 2)).2 = m
      rw [pow_succ, Nat.mul_right_comm, hhalf]
      omega
    · simp

section

variable {p : Nat} [Fact p.Prime]

theorem natCast_eq_neg_one_iff {y : Nat} (h : y < p) : (y : ZMod p) = -1 ↔ y = p - 1 := by
  have hp : 0 < p := (Fact.out : p.Prime).pos
  rw [eq_neg_iff_add_eq_zero, ← Nat.cast_succ, ZMod.natCast_eq_zero_iff]
  constructor
  · intro hd
    have hle := Nat.le_of_dvd (Nat.succ_pos y) hd
    omega
  · rintro rfl
    rw [Nat.succ_eq_add_one, Nat.sub_add_cancel hp]

theorem natCast_eq_one_iff {y : Nat} (h : y < p) : (y : ZMod p) = 1 ↔ y = 1 := by
  have hp : 1 < p := (Fact.out : p.Prime).one_lt
  rw [← Nat.cast_one, ZMod.natCast_eq_natCast_iff', Nat.mod_eq_of_lt h, Nat.mod_eq_of_lt hp]

/-- A number whose 2^(k+1)-th power is 1 modulo a prime is 1 or p - 1, or one of its next k squares is p - 1: 1 has no
other square roots. -/
theorem squaresHit_of_pow_eq_one {k x : Nat} (h : (x : ZMod p) ^ 2 ^ (k + 1) = 1) (h1 : (x : ZMod p) ≠ 1)
    (h2 : (x : ZMod p) ≠ -1) : squaresHit p k x = true := by
  have hsq : (x : ZMod p) * x ≠ 1 := fun hc => (mul_self_eq_one_iff.1 hc).elim h1 h2
  induction k generalizing x with
  | zero => exact absurd (by simpa [pow_two] using h) hsq
  | succ k ih =>
    have hp : 0 < p := (Fact.out : p.Prime).pos
    have hy : ((x * x % p : Nat) : ZMod p) = x * x := by rw [ZMod.natCast_mod, Nat.cast_mul]
    unfold squaresHit
    simp only
    split
    · rfl
    · next hne =>
      have hy2 : ((x * x % p : Nat) : ZMod p) ≠ -1 :=
        fun hc => hne ((natCast_eq_neg_one_iff (Nat.mod_lt _ hp)).1 hc)
      have hy1 : ((x * x % p : Nat) : ZMod p) ≠ 1 := hy ▸ hsq
      refine ih ?_ hy1 hy2 fun hc => (mul_self_eq_one_iff.1 hc).elim hy1 hy2
      rw [hy, ← pow_two, ← pow_mul, ← pow_succ']
      exact h

/-- A base that is no multiple of the prime passes (Fermat). -/
theorem strongProbe_of_prime {a : Nat} (ha : (a : ZMod p) ≠ 0) : strongProbe p a = true := by
  have hp : 0 < p := (Fact.out : p.Prime).pos
  have hsplit := splitTwos_spec (bitlen p) (p - 1)
  have hfermat : ((a : ZMod p) ^ (splitTwos (bitlen p) (p - 1)).2) ^ 2 ^ (splitTwos (bitlen p) (p - 1)).1 = 1 := by
    rw [← pow_mul, Nat.mul_comm, hsplit]
    exact ZMod.pow_card_sub_one_eq_one ha
  unfold strongProbe
  generalize splitTwos (bitlen p) (p - 1) = sd at hfermat
  obtain ⟨s, d⟩ := sd
  simp only at hfermat ⊢
  have hx : ((powMod a d p : Nat) : ZMod p) = (a : ZMod p) ^ d := by
    rw [powMod_eq, ZMod.natCast_mod, Nat.cast_pow]
  have hlt : powMod a d p < p := by
    rw [powMod_eq]
    exact Nat.mod_lt _ hp
  rw [← hx] at hfermat
  split
  · rfl
  · next hne =>
    rw [not_or] at hne
    have h1 : ((powMod a d p : Nat) : ZMod p) ≠ 1 := fun hc => hne.1 ((natCast_eq_one_iff hlt).1 hc)
    have h2 : ((powMod a d p : Nat) : ZMod p) ≠ -1 := fun hc => hne.2 ((natCast_eq_neg_one_iff hlt).1 hc)
    cases s with
    | zero => exact absurd (by simpa using hfermat) h1
    | succ s => exact squaresHit_of_pow_eq_one hfermat h1 h2

end

/-- Whatever is drawn, a prime passes every round. -/
theorem millerRabin_of_prime {limit rounds n : Nat} {p q : Ports} {r : Bool} (hn : n.Prime)
    (h : millerRabin limit rounds n p = .ok r q) : r = true := by
  have : Fact n.Prime := ⟨hn⟩
  have hrounds : ∀ k p, 5 ≤ n → millerRabinRounds limit k n p = .ok r q → r = true := by
    intro k
    induction k with
    | zero =>
      intro p _ h
      cases h
      rfl
    | succ k ih =>
      intro p h5 h
      obtain ⟨x, p', hx, h⟩ := bind_eq_ok.1 h
      have hlt := randBelow_lt (by omega) hx
      have hbase : ((2 + x : Nat) : ZMod n) ≠ 0 := by
        rw [Ne, ZMod.natCast_eq_zero_iff]
        exact Nat.not_dvd_of_pos_of_lt (by omega) (by omega)
      rw [if_pos (strongProbe_of_prime hbase)] at h
      exact ih p' h5 h
  unfold millerRabin at h
  have h2 := hn.two_le
  rw [if_neg (by omega)] at h
  split at h
  · cases h
    rfl
  · rcases hn.eq_two_or_odd with h' | h'
    · omega
    · rw [if_neg (by omega)] at h
      exact hrounds _ _ (by omega) h

/-- A body that ends a command with the code OK has ended well: no body raises OK. -/
theorem runBody_ok {rng hash : Bool} {s t : State} {body : Cmd State} (hc : Asks rng hash body)
    (h : runBody s body = .next t) (hok : t.err = .ok) :
    ∃ u q, body s.ports = .ok u q ∧ t = u.completeWith .ok q := by
  rcases runBody_next h with hu | ⟨e, q, hb, rfl⟩
  · exact hu
  · have hstop := hc s.ports
    rw [hb] at hstop
    exact absurd (congrArg Stop.raise hok) hstop.2.code

/-- Settles O44: MRTEST reports what the test of its register answers. -/
theorem mrtestNeverRejectsAPrime : Obligations.MrtestNeverRejectsAPrime := by
  unfold Obligations.MrtestNeverRejectsAPrime
  intro s t a n hn ha h hok
  have hasks : Asks true false _ := asks_bind (asks_readReg s a) fun v =>
    asks_bind (asks_millerRabin s.par.retryLimit s.mrRoundsL.toNat v) fun r =>
      asks_pure ((s.setBFlag r).setRes (boolScalar r))
  obtain ⟨u, q, hu, rfl⟩ := runBody_ok hasks h hok
  obtain ⟨v, p, hv, hu⟩ := bind_eq_ok.1 hu
  obtain ⟨r, p', hr, hu⟩ := bind_eq_ok.1 hu
  obtain ⟨_, rfl, rfl⟩ := readReg_eq_ok.1 hv
  rw [ha] at hr
  cases millerRabin_of_prime hn hr
  cases hu
  exact ⟨rfl, rfl⟩

end Sys2Proof.Machine

/-! ## Random source (42_random.md R171..R175) -/

namespace Sys2Proof.Machine

open Sys2Proof

/-! ### RNDODD's value -/

section

variable {l : Nat} (bs : Bytes)

theorem two_pow_le_oddOfBytes (l : Nat) : 2 ^ (l - 1) ≤ oddOfBytes l bs :=
  Nat.right_le_or.trans Nat.left_le_or

theorem oddOfBytes_lt (h : 1 ≤ l) : oddOfBytes l bs < 2 ^ l := by
  have hl : 2 ^ (l - 1) < 2 ^ l := Nat.pow_lt_pow_right (by norm_num) (by omega)
  exact Nat.or_lt_two_pow (Nat.or_lt_two_pow (Nat.mod_lt _ (Nat.two_pow_pos l)) hl)
    (Nat.one_lt_two_pow (by omega))

theorem oddOfBytes_odd (l : Nat) : oddOfBytes l bs % 2 = 1 := by
  have h : (oddOfBytes l bs).testBit 0 = true := by
    rw [oddOfBytes, Nat.testBit_or]
    simp
  simpa using h

/-- Between the bottom and the top bit the bits are the drawn ones. -/
theorem oddOfBytes_testBit {j : Nat} (h1 : 1 ≤ j) (hj : j + 1 < l) :
    (oddOfBytes l bs).testBit j = (os2ip bs).testBit j := by
  have hone : Nat.testBit 1 j = false := by
    rw [← pow_zero 2, Nat.testBit_two_pow]
    exact decide_eq_false (by omega)
  rw [oddOfBytes, Nat.testBit_or, Nat.testBit_or, Nat.testBit_mod_two_pow, Nat.testBit_two_pow, hone,
    decide_eq_true (by omega : j < l), decide_eq_false (by omega : ¬l - 1 = j)]
  simp

end

theorem rngBytes_of_delivered {bs : Bytes} {n : Nat} {p : Ports} {rest : List RngAnswer} (hn : bs.length = n)
    (h : p.rng = bs.map .byte ++ rest) : rngBytes n p = .ok bs { p with rng := rest } :=
  hn ▸ rngBytes_deliver h

/-- Settles O45, from what the RNG's listed answers make of a request for bytes. -/
theorem rndbAndRndoddUseTheDeliveredBytes : Obligations.RndbAndRndoddUseTheDeliveredBytes := by
  unfold Obligations.RndbAndRndoddUseTheDeliveredBytes
  intro s rd imm bs rest hrng
  have hodd (h1 : 1 ≤ imm.toNat) (hw : imm.toNat ≤ s.par.wBits) : exec (.rndodd rd imm) s = _ :=
    (runFrom_raiseIf_neg (s := s) (p := s.ports) (by omega : ¬imm.toNat = 0) _).trans
      (runFrom_raiseIf_neg (not_lt.2 hw) _)
  refine ⟨fun hlen hr => ?rndb, fun hr => runFrom_checkRange_beyond hr _, fun hlen hhead hr => ?rndbEntropy,
    fun hlen h1 hw => ⟨oddOfBytes imm.toNat bs, two_pow_le_oddOfBytes bs _, oddOfBytes_lt bs h1, oddOfBytes_odd bs _,
      fun _ => oddOfBytes_testBit bs, ?rndodd⟩,
    fun hlen hhead h1 hw => ?rndoddEntropy, fun h0 => runFrom_raiseIf_pos h0 _, fun hw => ?rndoddOverflow⟩
  case rndb =>
    exact (runFrom_checkRange hr _).trans (runFrom_bind (rngBytes_of_delivered hlen hrng) _)
  case rndbEntropy =>
    exact (runFrom_checkRange hr _).trans (runFrom_bind_raise (rngBytes_fail_of_head hlen hrng hhead) _)
  case rndodd =>
    have hfit : ((oddOfBytes imm.toNat bs : Nat) : Int).natAbs < 2 ^ s.par.wBits := by
      rw [Int.natAbs_natCast]
      exact (oddOfBytes_lt bs h1).trans_le (Nat.pow_le_pow_right (by norm_num) hw)
    rw [hodd h1 hw, runFrom_bind (rngBytes_of_delivered hlen hrng), runFrom_stageResult hfit]
    rfl
  case rndoddEntropy =>
    exact (hodd h1 hw).trans (runFrom_bind_raise (rngBytes_fail_of_head hlen hrng hhead) _)
  case rndoddOverflow =>
    exact (runFrom_raiseIf_neg (by omega) _).trans (runFrom_raiseIf_pos hw _)

/-- Settles O46, from what the listed answers make of the rejection loop. -/
theorem rndbelowSamplesByRejection : Obligations.RndbelowSamplesByRejection := by
  unfold Obligations.RndbelowSamplesByRejection
  intro s rd a hs hva bound l
  have hreg := hs.regs a
  have hread : exec (.rndbelow rd a) s = _ := runFrom_readReg hva _
  rw [hread]
  refine ⟨fun h => runFrom_raiseIf_pos h _, fun h => ?one, fun h => ?_⟩
  case one =>
    have hdraw : randBelow s.par.retryLimit (s.reg a).val.toNat s.ports = .ok 0 s.ports := by
      rw [h]
      rfl
    rw [runFrom_raiseIf_neg (by omega), runFrom_bind hdraw, runFrom_stageResult (Nat.two_pow_pos _)]
    rfl
  rw [runFrom_raiseIf_neg (by omega)]
  have hb : (s.reg a).val.toNat ≠ 1 := by omega
  intro rej rest hrej
  refine ⟨fun acc hacc hlt hlen hrng => ?_, fun hlen hrng => ?_, fun part hpart hlen hrng => ?_⟩
  · have hgives : RandBelowGives s.par.retryLimit (s.reg a).val.toNat s.ports (os2ip acc % 2 ^ l)
        { s.ports with rng := rest } :=
      ⟨rej, acc, rest, hrej, hlen, hacc, rfl, hlt, by rw [hrng, List.map_append], rfl⟩
    have hfit : ((os2ip acc % 2 ^ l : Nat) : Int).natAbs < 2 ^ s.par.wBits := by
      rw [Int.natAbs_natCast]
      exact hlt.trans (hs.toNat_reg_lt a)
    rw [runFrom_bind (randBelow_of_gives hb hgives), runFrom_stageResult hfit]
    rfl
  · exact runFrom_bind_raise (randBelow_of_fails hb ⟨rej, rest, hrej, rfl, .inr ⟨rfl, hlen, hrng⟩⟩) _
  · exact runFrom_bind_raise (randBelow_of_fails hb
      ⟨rej, rest, hrej, rfl, .inl ⟨rfl, hlen, part, hpart, by rw [hrng, List.map_append]⟩⟩) _

end Sys2Proof.Machine

/-! ## HASH and MGF1 (43_hash_mgf1.md R187, R190..R193) -/

namespace Sys2Proof.Machine

open Sys2Proof

/-- MGF1's digests are those of the seed and the counter values in turn. -/
theorem mgf1Blocks_eq_flatMap (h : HashId) (z : Bytes) (c k : Nat) :
    mgf1Blocks h z c k = (List.range k).flatMap (fun j => hashFn h (z ++ i2osp (c + j) 4)) := by
  induction k generalizing c with
  | zero => rfl
  | succ k ih =>
    rw [mgf1Blocks, ih, List.range_succ_eq_map, List.flatMap_cons, List.flatMap_map]
    simp only [Nat.add_zero, Nat.add_assoc, Nat.add_comm 1, Nat.succ_eq_add_one]

theorem mgf1Fn_eq (h : HashId) (z : Bytes) (l : Nat) :
    mgf1Fn h z l =
      ((List.range ((l + hLen h - 1) / hLen h)).flatMap (fun c => hashFn h (z ++ i2osp c 4))).take l := by
  simp only [mgf1Fn, mgf1Blocks_eq_flatMap, mgf1Requests, Nat.zero_add]

/-- Settles O47: the checks in order, then the requests. -/
theorem hashAndMgf1StoreTheDigest : Obligations.HashAndMgf1StoreTheDigest := by
  unfold Obligations.HashAndMgf1StoreTheDigest
  intro s h src n dst l m calls mask
  have hmask : mask = mgf1Fn h m l := (mgf1Fn_eq h m l).symm
  have hhash (hs : s.hashSupported h = true) : exec (.hash h) s = _ := runFrom_requireHash hs _
  have hmgf1 (hs : s.hashSupported h = true) : exec (.mgf1 h) s = _ := runFrom_requireHash hs _
  refine ⟨fun hs ha hr => ⟨fun hr' => ⟨hashFn_length h m, ?hash⟩, fun hr' => ⟨?length, ?mgf1⟩⟩,
    fun hs hr p => ⟨fun hr' hp => ?hashRefused, fun hr' hp => ?mgf1Refused⟩,
    fun hs => ⟨runFrom_requireHash_unsupported hs _, runFrom_requireHash_unsupported hs _⟩,
    fun hs hr => (hhash hs).trans (runFrom_checkRanges_beyond hr _),
    fun hs hr => (hmgf1 hs).trans (runFrom_checkRanges_beyond hr _)⟩
  case hash =>
    rw [hhash hs, runFrom_checkRange hr, runFrom_checkRange hr', runFrom_bind (hashRequest_answered ha)]
    rfl
  case length => rw [hmask, mgf1Fn_length (hLen_pos_of_supported hs)]
  case mgf1 =>
    rw [hmgf1 hs, runFrom_checkRange hr, runFrom_checkRange hr', runFrom_bind (hashRequests_answered ha _), hmask]
    rfl
  case hashRefused =>
    rw [hhash hs, runFrom_checkRange hr, runFrom_checkRange hr', runFrom_bind_raise (hashRequest_refused hp)]
    rfl
  case mgf1Refused =>
    rw [hmgf1 hs, runFrom_checkRange hr, runFrom_checkRange hr']
    exact runFrom_bind_raise (hashRequests_refused hp) _

end Sys2Proof.Machine

/-! ## Key slots (44_key.md R203..R216) -/

namespace Sys2Proof.Machine

open Sys2Proof

/-! ### KSET, KGET, KCLR, KPUB -/

@[simp] theorem KeySlot.setComp_comp_self (v : KeySlot) (c : Comp) (x : KeyComp) : (v.setComp c x).comp c = x := by
  cases c <;> rfl

theorem KeySlot.setComp_comp_of_ne (v : KeySlot) {c c' : Comp} (x : KeyComp) (h : c' ≠ c) :
    (v.setComp c x).comp c' = v.comp c' := by
  cases c <;> cases c' <;> trivial

theorem KeySlot.InRange.comp {v : KeySlot} {w : Nat} (h : v.InRange w) (c : Comp) : (v.comp c).val < 2 ^ w := by
  obtain ⟨hn, he, hd, hp, hq⟩ := h
  cases c <;> assumption

theorem exec_kget_of_present {s : State} {rd : RegIdx} {k : Slot} {c : Comp} (hp : ((s.slot k).comp c).present = true)
    (hv : ((s.slot k).comp c).val < 2 ^ s.par.wBits) :
    exec (.kget rd k c) s = .next ((s.withResult rd ((s.slot k).comp c).val).doneWith .ok) :=
  (runFrom_raiseIf_neg (by simp [hp]) _).trans (runFrom_stageResult (by rwa [Int.natAbs_natCast]) rd)

theorem exec_kset_of_absent {s : State} {a : RegIdx} {k : Slot} {c : Comp} (hva : (s.reg a).valid = true)
    (hc : (s.slot k).checked = false) (hp : ((s.slot k).comp c).present = false) (h0 : 0 ≤ (s.reg a).val) :
    exec (.kset k c a) s =
      .next ((s.setSlot k ((s.slot k).setComp c ⟨(s.reg a).val.toNat, true⟩)).doneWith .ok) := by
  refine (runFrom_readReg hva _).trans ?_
  rw [runFrom_raiseIf_neg (by simp [hc]), runFrom_raiseIf_neg (by simp [hp]), runFrom_raiseIf_neg (not_lt.2 h0), runFrom_pure,
    ← s.setSlot_ports k]
  rfl

theorem exec_kset_of_refused {s : State} {a : RegIdx} {k : Slot} {c : Comp} (hva : (s.reg a).valid = true)
    (h : (s.slot k).checked = true ∨ ((s.slot k).comp c).present = true ∨ (s.reg a).val < 0) :
    exec (.kset k c a) s = .next (s.doneWith .invalidArgument) := by
  refine (runFrom_readReg hva _).trans ?_
  by_cases hc : (s.slot k).checked = true
  · exact runFrom_raiseIf_pos hc _
  rw [runFrom_raiseIf_neg hc]
  by_cases hp : ((s.slot k).comp c).present = true
  · exact runFrom_raiseIf_pos hp _
  rw [runFrom_raiseIf_neg hp]
  exact runFrom_raiseIf_pos ((h.resolve_left hc).resolve_left hp) _

theorem State.setSlot_eq (s : State) (k : Slot) (v : KeySlot) :
    s.setSlot k v = { s with k0 := if k = .k0 then v else s.k0, k1 := if k = .k1 then v else s.k1 } := by
  cases k <;> rfl

/-- Settles O48: the slot KSET leaves has the component, which KGET reads. -/
theorem ksetAndKgetComplete : Obligations.KsetAndKgetComplete := by
  unfold Obligations.KsetAndKgetComplete
  intro s rd a k c hs
  refine ⟨fun hva => ⟨fun hc hp h0 => ?_, exec_kset_of_refused hva⟩,
    fun hp => exec_kget_of_present hp ((hs.keys k).comp c), fun hp => runFrom_raiseIf_pos hp _⟩
  refine ⟨(s.slot k).setComp c ⟨(s.reg a).val.toNat, true⟩, KeySlot.setComp_comp_self ..,
    fun c' => KeySlot.setComp_comp_of_ne _ _,
    KeySlot.setComp_checked .., ?_⟩
  rw [← State.setSlot_eq]
  refine ⟨exec_kset_of_absent hva hc hp h0, ?_⟩
  have hcomp : ((((s.setSlot k ((s.slot k).setComp c ⟨(s.reg a).val.toNat, true⟩)).doneWith .ok).slot k).comp c) =
      ⟨(s.reg a).val.toNat, true⟩ := by
    rw [State.doneWith_slot, State.setSlot_slot, if_pos rfl, KeySlot.setComp_comp_self]
  have hget := exec_kget_of_present (rd := rd) (k := k) (c := c) (congrArg KeyComp.present hcomp)
    (by rw [hcomp, State.doneWith_par, State.setSlot_par]; exact hs.toNat_reg_lt a)
  rwa [hcomp, Int.toNat_of_nonneg h0] at hget

theorem KeySlot.cleared_comp_present (v : KeySlot) (c : Comp) : (v.cleared.comp c).present = false := by
  cases c <;> rfl

theorem KeySlot.hasPublic_eq_false_iff (v : KeySlot) :
    v.hasPublic = false ↔ v.n.present = false ∨ v.e.present = false := Bool.and_eq_false_iff

theorem KeyComp.eq_of_present {v : KeyComp} (h : v.present = true) : (⟨v.val, true⟩ : KeyComp) = v := by
  rw [← h]

/-- Settles O49, with the cleared slot, and the cleared slot with the other's n and e. -/
theorem kclrAndKpubComplete : Obligations.KclrAndKpubComplete := by
  unfold Obligations.KclrAndKpubComplete
  intro s k
  refine ⟨⟨(s.slot k).cleared, KeySlot.cleared_comp_present _, rfl, ?kclr⟩, fun hn he => ?kpub, fun h =>
    runFrom_raiseIf_pos ((KeySlot.hasPublic_eq_false_iff _).2 h) _⟩
  case kclr =>
    refine (runFrom_pure s _ _).trans ?_
    rw [← s.setSlot_ports k]
    rfl
  case kpub =>
    refine ⟨{ (s.slot (otherSlot k)).cleared with n := ⟨(s.slot k).n.val, true⟩, e := ⟨(s.slot k).e.val, true⟩ },
      KeyComp.eq_of_present hn, KeyComp.eq_of_present he, rfl, rfl, rfl, rfl, ?_⟩
    have hpub : ¬(s.slot k).hasPublic = false := by simp [KeySlot.hasPublic, hn, he]
    refine (runFrom_raiseIf_neg hpub _).trans ((runFrom_pure s _ _).trans ?_)
    rw [← s.setSlot_ports (otherSlot k)]
    rfl

/-! ### KCHK -/

/-- What a validation of an unchecked slot that does not raise has tested. -/
theorem validate_eq_ok_of_unchecked {s t : State} {k : Slot} {p q : Ports} (hc : (s.slot k).checked = false)
    (h : validate s k p = .ok t q) :
    2 ≤ (s.slot k).n.val ∧ 1 ≤ (s.slot k).e.val ∧ validatePrivate s (s.slot k) p = .ok () q := by
  unfold validate at h
  rw [if_neg (by simp [hc])] at h
  obtain ⟨_, p', h1, h⟩ := bind_eq_ok.1 h
  obtain ⟨hsmall, rfl⟩ := raiseIf_eq_ok.1 h1
  obtain ⟨_, q', h2, h⟩ := bind_eq_ok.1 h
  cases h
  exact ⟨by omega, by omega, h2⟩

theorem two_le_of_millerRabin {limit rounds n : Nat} {p q : Ports} (h : millerRabin limit rounds n p = .ok true q) :
    2 ≤ n := by
  unfold millerRabin at h
  by_contra hn
  rw [if_pos (by omega)] at h
  cases h

theorem exec_kchk_ok {s t : State} {k : Slot} (h : exec (.kchk k) s = .next t) (hok : t.err = .ok) :
    (s.slot k).hasPublic = true ∧ ∃ u, validate s k s.ports = .ok u t.ports := by
  obtain ⟨u, q, hu, rfl⟩ := runBody_ok (s := s) (rng := true) (hash := false)
    (by exact asks_bind (asks_raiseIf (by decide)) fun _ => asks_bind (asks_validate s k) fun _ => asks_pure _) h hok
  obtain ⟨_, p, hp, hu⟩ := bind_eq_ok.1 hu
  obtain ⟨hpub, rfl⟩ := raiseIf_eq_ok.1 hp
  obtain ⟨v, q', hv, hu⟩ := bind_eq_ok.1 hu
  cases hu
  exact ⟨by simpa using hpub, v, hv⟩

/-- Settles O50, from when Validate passes, with which error it refuses, and what it has tested when it passes. -/
theorem kchkValidatesAndReports : Obligations.KchkValidatesAndReports := by
  unfold Obligations.KchkValidatesAndReports
  intro s k
  have hrun (hp : (s.slot k).hasPublic = true) : exec (.kchk k) s = _ :=
    runFrom_raiseIf_neg (s := s) (p := s.ports) (e := .invalidArgument) (Bool.eq_false_iff.not_left.2 hp) _
  have hrefused {e : ErrCode} {q : Ports} (h : KeyRefused s k s.ports e q) :
      exec (.kchk k) s = .next (s.completeWith e q) :=
    (hrun h.1).trans (runFrom_bind_raise (validate_of_refused h) _)
  refine ⟨fun q hu => (hrun hu.1).trans (runFrom_bind (validate_of_usable hu) _), fun h => ?invalid,
    fun e q => hrefused, fun t h hok hc hd hp hq => ?valid⟩
  case invalid =>
    by_cases hp : (s.slot k).hasPublic = true
    · obtain ⟨hn, he⟩ := Bool.and_eq_true_iff.1 hp
      obtain ⟨hc, hsmall⟩ := (h.resolve_left (by simp [hn])).resolve_left (by simp [he])
      exact hrefused ⟨hp, hc, .inl ⟨rfl, rfl, hsmall⟩⟩
    · exact runFrom_raiseIf_pos (Bool.eq_false_iff.2 hp) _
  case valid =>
    obtain ⟨hpub, u, hval⟩ := exec_kchk_ok h hok
    obtain ⟨hn, he, hpriv⟩ := validate_eq_ok_of_unchecked hc hval
    obtain ⟨hnp, hep⟩ := Bool.and_eq_true_iff.1 hpub
    have hprivate : (s.slot k).priv = true := by simp [KeySlot.priv, hd, hp, hq]
    rcases validatePrivate_eq_ok.1 hpriv with ⟨hf, _⟩ | ⟨_, hpq, ⟨r, htp, htq⟩, hgcd, hdvd⟩
    · cases hprivate.symm.trans hf
    · exact ⟨⟨⟨hnp, hep, hn, he⟩, hprivate, hpq, ⟨r, htp, htq⟩, hgcd, hdvd⟩, two_le_of_millerRabin htp,
        two_le_of_millerRabin htq⟩

end Sys2Proof.Machine

/-! ## The schemes' commands (45_oaep.md R230, R232; 46_pss.md R250..R252) -/

namespace Sys2Proof.Machine

open Sys2Proof

/-! ### The key -/

section

variable {s : State} {k : Slot} {p q : Ports} (f : State → Cmd State)

theorem runFrom_keyForPublic (h : KeyUsable s k p q) :
    runFrom s p (keyForPublic s k >>= f) = runFrom s q (f (s.markChecked k)) :=
  runFrom_bind (keyForPublic_of_usable h) f

theorem runFrom_keyForPublic_absent (h : (s.slot k).hasPublic = false) :
    runFrom s p (keyForPublic s k >>= f) = .next (s.completeWith .invalidArgument p) :=
  runFrom_bind_raise (bind_of_error (raiseIf_of h _ p)) f

theorem runFrom_keyForPublic_refused {e : ErrCode} (h : KeyRefused s k p e q) :
    runFrom s p (keyForPublic s k >>= f) = .next (s.completeWith e q) :=
  runFrom_bind_raise (keyForPublic_of_refused h) f

theorem runFrom_keyForPrivate (h : KeyUsable s k p q) (hp : (s.slot k).priv = true) :
    runFrom s p (keyForPrivate s k >>= f) = runFrom s q (f (s.markChecked k)) :=
  runFrom_bind (keyForPrivate_of_usable h hp) f

theorem runFrom_keyForPrivate_notPriv (h : (s.slot k).priv = false) :
    runFrom s p (keyForPrivate s k >>= f) = .next (s.completeWith .notPrivateKey p) :=
  runFrom_bind_raise (bind_of_error (raiseIf_of h _ p)) f

theorem runFrom_keyForPrivate_absent (hp : (s.slot k).priv = true) (h : (s.slot k).hasPublic = false) :
    runFrom s p (keyForPrivate s k >>= f) = .next (s.completeWith .invalidArgument p) :=
  runFrom_bind_raise ((bind_of_ok (raiseIf_of_not (by simp [hp]) _ p)).trans (bind_of_error (raiseIf_of h _ p))) f

theorem runFrom_keyForPrivate_refused {e : ErrCode} (h : KeyRefused s k p e q) (hp : (s.slot k).priv = true) :
    runFrom s p (keyForPrivate s k >>= f) = .next (s.completeWith e q) :=
  runFrom_bind_raise (keyForPrivate_of_refused h hp) f

end

/-- The state a command leaves that has validated slot k and stored a string. -/
theorem State.completeWith_store_markChecked (s : State) (k : Slot) (off n : Nat) (bs : Bytes) (p : Ports) :
    (((s.markChecked k).memWrite off bs).setRes n).completeWith .ok p =
      { s.markChecked k with
        buf := memWriteBytes s.buf off bs
        res := BitVec.ofNat 32 n
        ports := p }.doneWith .ok := by
  rw [State.memWrite, State.markChecked_buf]
  rfl

/-! ### OAEPENC -/

/-- Settles O53: past the checks, the seed, then the digests. -/
theorem oaepencCompletes : Obligations.OaepencCompletes := by
  unfold Obligations.OaepencCompletes
  intro s h k q seed rest hs hu hrng n kb hr hr' hlen em
  have hcap : ¬oaepCapacity kb h < (s.argLatched 1 : Int) := not_lt.2 (le_oaepCapacity_iff.2 hlen)
  have hrun : exec (.oaepenc h k) s = _ := (runFrom_requireHash hs _).trans <| (runFrom_keyForPublic _ hu).trans <|
    (runFrom_checkRange hr _).trans <| (runFrom_checkRange hr' _).trans <| runFrom_raiseIf_neg hcap _
  rw [hrun]
  refine ⟨fun hseed ha => ?_, fun hseed hhead => ?_, fun p hseed hp => ?_⟩
  · rw [runFrom_bind (rngBytes_of_delivered hseed hrng),
      runFrom_bind (hashRequests_answered (p := { q with rng := rest }) ha _),
      runFrom_pure, State.completeWith_store_markChecked, powMod_eq]
    rfl
  · exact runFrom_bind_raise (rngBytes_fail_of_head hseed hrng hhead) _
  · rw [runFrom_bind (rngBytes_of_delivered hseed hrng)]
    exact runFrom_bind_raise (hashRequests_refused hp) _

/-! ### OAEPDEC -/

theorem oaepCapacity_toNat (k : Nat) (h : HashId) : (oaepCapacity k h).toNat = k - 2 * hLen h - 2 := by
  unfold oaepCapacity
  omega

/-- Settles O55: past the checks, the digests, then the decoder's answer. -/
theorem oaepdecCompletesOrDecrypt : Obligations.OaepdecCompletesOrDecrypt := by
  unfold Obligations.OaepdecCompletesOrDecrypt
  intro s h k q hs hu hpriv n kb c hr hr' hlen hk hc p
  have hrun : exec (.oaepdec h k) s = _ := (runFrom_requireHash hs _).trans <| (runFrom_keyForPrivate _ hu hpriv).trans <|
    (runFrom_checkRange hr _).trans <| (runFrom_checkRange (by rw [oaepCapacity_toNat]; exact hr') _).trans <|
    (runFrom_raiseIf_neg (not_not.2 hlen) _).trans <| (runFrom_raiseIf_neg (not_lt.2 hk) _).trans <|
    runFrom_raiseIf_neg (not_le.2 hc) _
  rw [hrun]
  rw [← powMod_eq]
  refine ⟨fun m ha hm => ?_, fun ha hm => ?_, fun r hr => runFrom_bind_raise (hashRequests_refused hr) _⟩
  · rw [runFrom_bind (hashRequests_answered ha _)]
    unfold KeySlot.bytes
    rw [hm, runFrom_pure, State.completeWith_store_markChecked]
  · rw [runFrom_bind (hashRequests_answered ha _)]
    unfold KeySlot.bytes
    rw [hm]
    exact runFrom_of_raise rfl


/-! ### The order of the checks -/

/-- Settles O54: each check, after those before it have passed. -/
theorem schemeErrorsComeInOrder : Obligations.SchemeErrorsComeInOrder := by
  unfold Obligations.SchemeErrorsComeInOrder
  intro s h k sh q kb ends
  refine ⟨fun hs i hi => ?_, fun hs => ⟨fun ha => ⟨?_, ?_⟩, fun ha => ⟨?_, ?_⟩, fun hp ha => ⟨?_, ?_⟩,
    fun e p he => ⟨?_, ?_, fun hp => ⟨?_, ?_⟩⟩, fun hu => ⟨fun hr => ⟨?_, fun hp => ?_⟩, fun hr => ?_,
      fun h1 h2 p hp => ?_,
      fun h1 h2 hl => ?_, fun hp => ⟨fun hr => ?_, fun h1 h2 hd => ?_⟩⟩⟩⟩
  · simp only [List.mem_cons, List.not_mem_nil, or_false] at hi
    rcases hi with rfl | rfl | rfl | rfl <;> exact runFrom_requireHash_unsupported hs _
  · exact (runFrom_requireHash hs _).trans (runFrom_keyForPublic_absent _ ha)
  · exact (runFrom_requireHash hs _).trans (runFrom_keyForPublic_absent _ ha)
  · exact (runFrom_requireHash hs _).trans (runFrom_keyForPrivate_notPriv _ ha)
  · exact (runFrom_requireHash hs _).trans (runFrom_keyForPrivate_notPriv _ ha)
  · exact (runFrom_requireHash hs _).trans (runFrom_keyForPrivate_absent _ hp ha)
  · exact (runFrom_requireHash hs _).trans (runFrom_keyForPrivate_absent _ hp ha)
  · exact (runFrom_requireHash hs _).trans (runFrom_keyForPublic_refused _ he)
  · exact (runFrom_requireHash hs _).trans (runFrom_keyForPublic_refused _ he)
  · exact (runFrom_requireHash hs _).trans (runFrom_keyForPrivate_refused _ he hp)
  · exact (runFrom_requireHash hs _).trans (runFrom_keyForPrivate_refused _ he hp)
  · exact (runFrom_requireHash hs _).trans ((runFrom_keyForPublic _ hu).trans (runFrom_checkRanges_beyond hr _))
  · exact (runFrom_requireHash hs _).trans ((runFrom_keyForPrivate _ hu hp).trans (runFrom_checkRanges_beyond hr _))
  · exact (runFrom_requireHash hs _).trans ((runFrom_keyForPublic _ hu).trans (runFrom_checkRanges_beyond hr _))
  · exact (runFrom_requireHash hs _).trans <| (runFrom_keyForPublic _ hu).trans <| (runFrom_checkRange h1 _).trans <|
      (runFrom_checkRange h2 _).trans <| runFrom_bind_raise (hashRequest_refused hp) _
  · have hcap : oaepCapacity kb h < (s.argLatched 1 : Int) := not_le.1 fun hc => not_lt.2 (le_oaepCapacity_iff.1 hc) hl
    exact (runFrom_requireHash hs _).trans <| (runFrom_keyForPublic _ hu).trans <| (runFrom_checkRange h1 _).trans <|
      (runFrom_checkRange h2 _).trans <| runFrom_raiseIf_pos hcap _
  · exact (runFrom_requireHash hs _).trans <| (runFrom_keyForPrivate _ hu hp).trans <|
      runFrom_checkRanges_beyond (by rwa [oaepCapacity_toNat]) _
  · have hrun : exec (.oaepdec h k) s = _ := (runFrom_requireHash hs _).trans <| (runFrom_keyForPrivate _ hu hp).trans <|
      (runFrom_checkRange h1 _).trans <| runFrom_checkRange (by rwa [oaepCapacity_toNat]) _
    refine hrun.trans ?_
    by_cases hlen : s.argLatched 1 ≠ kb
    · exact runFrom_raiseIf_pos hlen _
    refine (runFrom_raiseIf_neg hlen _).trans ?_
    by_cases hk : kb < 2 * hLen h + 2
    · exact runFrom_raiseIf_pos hk _
    · exact (runFrom_raiseIf_neg hk _).trans (runFrom_raiseIf_pos ((hd.resolve_left hlen).resolve_left hk) _)

/-! ### PSSSIGN and PSSVER -/

theorem hashRequest_digest {p : Ports} (h : p.hash.head? = some .digest) :
    hashRequest p = .ok () { p with hash := p.hash.tail } := by
  obtain ⟨rest, hp⟩ := List.head?_eq_some_iff.1 h
  unfold hashRequest
  rw [hp]
  rfl

theorem HashAnswers.drop {p : Ports} (h : HashAnswers p) (n : Nat) (rng : List RngAnswer) :
    HashAnswers { p with rng := rng, hash := p.hash.drop n } :=
  fun a ha => h a (List.mem_of_mem_drop ha)

/-- Settles O56: past the checks, the message's digest, the salt, then the other digests. -/
theorem psssignCompletes : Obligations.PsssignCompletes := by
  unfold Obligations.PsssignCompletes
  intro s h k sh q hs hu hpriv n kb emBits sLen calls ends hr hr'
  have hrun : exec (.psssign h k sh) s = _ := (runFrom_requireHash hs _).trans <| (runFrom_keyForPrivate _ hu hpriv).trans <|
    (runFrom_checkRange hr _).trans <| runFrom_checkRange hr' _
  refine ⟨fun hfit => ?_, fun hfit => hrun.trans (runFrom_raiseIf_pos hfit _)⟩
  replace hrun := hrun.trans (runFrom_raiseIf_neg (not_lt.2 hfit) _)
  unfold ends
  rw [hrun]
  refine ⟨fun p hp => runFrom_bind_raise (hashRequest_refused hp) _, fun salt rest hrng => ⟨?_, fun hsalt hhead ha => ?_,
    fun p hsalt hdigest hp => ?_⟩⟩
  · intro hsalt ha em
    rw [runFrom_bind (hashRequest_answered ha)]
    refine (runFrom_bind (rngBytes_of_delivered (p := { q with hash := q.hash.drop 1 }) hsalt hrng) _).trans ?_
    rw [runFrom_bind (hashRequests_answered (ha.drop 1 rest) _), runFrom_pure,
      State.completeWith_store_markChecked, powMod_eq, List.drop_drop]
    rfl
  · rw [runFrom_bind (hashRequest_answered ha)]
    exact runFrom_bind_raise (rngBytes_fail_of_head (p := { q with hash := q.hash.drop 1 }) hsalt hrng hhead) _
  · rw [runFrom_bind (hashRequest_digest hdigest)]
    exact (runFrom_bind (rngBytes_of_delivered (p := { q with hash := q.hash.tail }) hsalt hrng) _).trans
      (runFrom_bind_raise (hashRequests_refused hp) _)

theorem State.completeWith_answer (t : State) (ok : Bool) (p : Ports) :
    ((t.setBFlag ok).setRes (boolScalar ok)).completeWith .ok p =
      { t with bFlag := ok, res := if ok then 1#32 else 0#32, ports := p }.doneWith .ok := by
  cases ok <;> rfl

/-- Settles O57: a signature that gives no encoded message is the answer 0; else the verifier answers. -/
theorem pssverIsAPredicate : Obligations.PssverIsAPredicate := by
  unfold Obligations.PssverIsAPredicate
  intro s h k sh q hs hu ha n emBits sLen sig m hr hr'
  have hrun : exec (.pssver h k sh) s = _ := (runFrom_requireHash hs _).trans <| (runFrom_keyForPublic _ hu).trans <|
    (runFrom_checkRange hr _).trans <| (runFrom_checkRange hr' _).trans <| runFrom_bind (hashRequest_answered ha) _
  have hrec : pssRecover (s.slot k) (s.memRead (s.argLatched 3) (s.argLatched 4)) =
      if s.argLatched 4 = ceil8 (bitlen n) ∧ sig < n ∧ m < 256 ^ ceil8 emBits then some (i2osp m (ceil8 emBits))
      else none := by
    unfold pssRecover
    rw [State.memRead_length, powMod_eq]
    rfl
  simp only [hrec] at hrun
  rw [hrun]
  by_cases hc : s.argLatched 4 = ceil8 (bitlen n) ∧ sig < n ∧ m < 256 ^ ceil8 emBits
  · rw [if_pos hc]
    dsimp only
    rw [runFrom_bind (hashRequests_answered (ha.drop 1 q.rng) _), runFrom_pure, State.completeWith_answer]
    obtain ⟨hlen, hlt, hfit⟩ := hc
    exact ⟨_, { q with hash := (q.hash.drop 1).drop (pssVerifyRequests h emBits (i2osp m (ceil8 emBits)) sLen) }, rfl, rfl,
      ⟨fun hok => ⟨hlen, hlt, hfit, hok⟩, fun ⟨_, _, _, hok⟩ => hok⟩, rfl⟩
  · rw [if_neg hc]
    dsimp only
    rw [runFrom_pure]
    refine ⟨false, { q with hash := q.hash.drop 1 }, rfl, rfl, ?_, rfl⟩
    exact ⟨fun hok => (Bool.false_ne_true hok).elim, fun ⟨hlen, hlt, hfit, _⟩ => (hc ⟨hlen, hlt, hfit⟩).elim⟩

end Sys2Proof.Machine

/-! ## RSA and the round trips (44_key.md R216; 45_oaep.md R234; 46_pss.md R253) -/

namespace Sys2Proof.Machine

open Sys2Proof

/-! ### Exponents that invert each other -/

/-- Fermat's little theorem with any exponent that is 1 modulo p - 1. -/
theorem pow_modEq_self_of_prime {p k : Nat} (hp : p.Prime) (hk : p - 1 ∣ k) (x : Nat) : x ^ (k + 1) ≡ x [MOD p] := by
  have := Fact.mk hp
  rw [← ZMod.natCast_eq_natCast_iff, Nat.cast_pow]
  obtain ⟨c, rfl⟩ := hk
  by_cases hx : (x : ZMod p) = 0
  · rw [hx, zero_pow (Nat.succ_ne_zero _)]
  · rw [pow_succ, pow_mul, ZMod.pow_card_sub_one_eq_one hx, one_pow, one_mul]

/-- Exponents whose product is 1 modulo lcm(p - 1, q - 1) have a positive product when p and q differ. -/
theorem exponents_pos {p q e d : Nat} (hpq : p ≠ q)
    (h : ((Nat.lcm (p - 1) (q - 1) : Nat) : Int) ∣ (e : Int) * d - 1) : 0 < e * d := by
  by_contra h0
  have hed : (e : Int) * d = 0 := by exact_mod_cast Nat.eq_zero_of_not_pos h0
  rw [hed, zero_sub, Int.dvd_neg, Int.natCast_dvd] at h
  have h1 : Nat.lcm (p - 1) (q - 1) = 1 := Nat.dvd_one.1 h
  have hp1 : p - 1 = 1 := Nat.dvd_one.1 ((Nat.dvd_lcm_left _ (q - 1)).trans h1.dvd)
  have hq1 : q - 1 = 1 := Nat.dvd_one.1 ((Nat.dvd_lcm_right (p - 1) _).trans h1.dvd)
  omega

/-- Settles O58: Fermat's little theorem for p and for q, and the two are coprime. -/
theorem rsaExponentiationInverts : Obligations.RsaExponentiationInverts := by
  unfold Obligations.RsaExponentiationInverts
  intro p q n e d x hp hq hpq hn h hx
  obtain ⟨k, hk⟩ := Nat.exists_eq_add_one.2 (exponents_pos hpq h)
  have hdvd : Nat.lcm (p - 1) (q - 1) ∣ k := by
    rw [← Int.natCast_dvd_natCast]
    convert h using 1
    rw [← Nat.cast_mul, hk]
    push_cast
    ring
  have hmod : x ^ (k + 1) ≡ x [MOD n] := by
    rw [hn, ← Nat.modEq_and_modEq_iff_modEq_mul ((Nat.coprime_primes hp hq).2 hpq)]
    exact ⟨pow_modEq_self_of_prime hp ((Nat.dvd_lcm_left _ _).trans hdvd) x,
      pow_modEq_self_of_prime hq ((Nat.dvd_lcm_right _ _).trans hdvd) x⟩
  rw [powMod_eq, powMod_eq, ← Nat.pow_mod, ← pow_mul, hk]
  exact Eq.trans hmod (Nat.mod_eq_of_lt hx)

/-- A key as the round trips assume it: distinct primes, and exponents that are inverse to each other. -/
structure KeySlot.Rsa (v : KeySlot) : Prop where
  prime_p : v.p.val.Prime
  prime_q : v.q.val.Prime
  distinct : v.p.val ≠ v.q.val
  modulus : v.p.val * v.q.val = v.n.val
  exponents : ((Nat.lcm (v.p.val - 1) (v.q.val - 1) : Nat) : Int) ∣ (v.e.val : Int) * v.d.val - 1

theorem KeySlot.Rsa.two_le (h : KeySlot.Rsa v) : 2 ≤ v.n.val :=
  h.modulus ▸ h.prime_p.two_le.trans (Nat.le_mul_of_pos_right _ h.prime_q.pos)

theorem KeySlot.Rsa.decrypt {v : KeySlot} (h : v.Rsa) {x : Nat} (hx : x < v.n.val) :
    (x ^ v.e.val % v.n.val) ^ v.d.val % v.n.val = x := by
  rw [← powMod_eq, ← powMod_eq]
  exact rsaExponentiationInverts _ _ _ _ _ _ h.prime_p h.prime_q h.distinct h.modulus.symm h.exponents hx

theorem KeySlot.Rsa.verify {v : KeySlot} (h : v.Rsa) {x : Nat} (hx : x < v.n.val) :
    (x ^ v.d.val % v.n.val) ^ v.e.val % v.n.val = x := by
  rw [← powMod_eq, ← powMod_eq]
  exact rsaExponentiationInverts _ _ _ _ _ _ h.prime_p h.prime_q h.distinct h.modulus.symm
    (mul_comm (v.e.val : Int) _ ▸ h.exponents) hx

/-! ### What an OAEPENC and a PSSSIGN without error have done -/

theorem exec_oaepenc_ok {s t : State} {h : HashId} {k : Slot} (hexec : exec (.oaepenc h k) s = .next t) (hok : t.err = .ok) :
    ∃ (seed : Bytes) (p : Ports), seed.length = hLen h ∧ s.hashSupported h = true ∧
      s.argLatched 0 + s.argLatched 1 ≤ s.par.bufBytes ∧ s.argLatched 2 + (s.slot k).bytes ≤ s.par.bufBytes ∧
      (s.argLatched 1 : Int) ≤ oaepCapacity (s.slot k).bytes h ∧
      t = (((s.markChecked k).memWrite (s.argLatched 2) (i2osp (os2ip (oaepEncode h (s.slot k).bytes
        (s.memRead (s.argLatched 0) (s.argLatched 1)) seed) ^ (s.slot k).e.val % (s.slot k).n.val)
        (s.slot k).bytes)).setRes (s.slot k).bytes).completeWith .ok p := by
  obtain ⟨u, q, hu, rfl⟩ := runBody_ok (s := s) (rng := true) (hash := true)
    (by exact asks_bind (asks_requireHash s h) fun _ => asks_bind (asks_keyForPublic s k) fun _ =>
        asks_bind (asks_checkRange _ _ _) fun _ => asks_bind (asks_checkRange _ _ _) fun _ =>
        asks_bind (asks_raiseIf (by decide)) fun _ => asks_bind (asks_rngBytes _) fun _ =>
        asks_bind (asks_hashRequests _) fun _ => asks_pure _) hexec hok
  obtain ⟨_, _, h1, hu⟩ := bind_eq_ok.1 hu
  obtain ⟨hs, rfl⟩ := raiseIf_eq_ok.1 h1
  obtain ⟨v, p, hv, hu⟩ := bind_eq_ok.1 hu
  obtain ⟨rfl, _⟩ := validate_eq_ok (keyForPublic_eq_ok hv).2
  obtain ⟨_, _, h2, hu⟩ := bind_eq_ok.1 hu
  obtain ⟨hr, rfl⟩ := raiseIf_eq_ok.1 h2
  obtain ⟨_, _, h3, hu⟩ := bind_eq_ok.1 hu
  obtain ⟨hr', rfl⟩ := raiseIf_eq_ok.1 h3
  obtain ⟨_, _, h4, hu⟩ := bind_eq_ok.1 hu
  obtain ⟨hcap, rfl⟩ := raiseIf_eq_ok.1 h4
  obtain ⟨seed, _, hseed, hu⟩ := bind_eq_ok.1 hu
  obtain ⟨_, _, _, hu⟩ := bind_eq_ok.1 hu
  cases hu
  refine ⟨seed, q, rngBytes_length hseed, by simpa using hs, not_lt.1 hr, not_lt.1 hr', not_lt.1 hcap, ?_⟩
  rw [← powMod_eq]

theorem exec_psssign_ok {s t : State} {h : HashId} {k : Slot} {sh : Bool} (hexec : exec (.psssign h k sh) s = .next t)
    (hok : t.err = .ok) :
    ∃ (salt : Bytes) (p : Ports), salt.length = s.saltLen h sh ∧ s.hashSupported h = true ∧
      s.argLatched 0 + s.argLatched 1 ≤ s.par.bufBytes ∧ s.argLatched 2 + (s.slot k).bytes ≤ s.par.bufBytes ∧
      hLen h + salt.length + 2 ≤ ceil8 (s.slot k).emBits ∧
      t = (((s.markChecked k).memWrite (s.argLatched 2) (i2osp (os2ip (pssEncode h (s.slot k).emBits
        (hashFn h (s.memRead (s.argLatched 0) (s.argLatched 1))) salt) ^ (s.slot k).d.val % (s.slot k).n.val)
        (s.slot k).bytes)).setRes (s.slot k).bytes).completeWith .ok p := by
  obtain ⟨u, q, hu, rfl⟩ := runBody_ok (s := s) (rng := true) (hash := true)
    (by exact asks_bind (asks_requireHash s h) fun _ => asks_bind (asks_keyForPrivate s k) fun _ =>
        asks_bind (asks_checkRange _ _ _) fun _ => asks_bind (asks_checkRange _ _ _) fun _ =>
        asks_bind (asks_raiseIf (by decide)) fun _ => asks_bind asks_hashRequest fun _ =>
        asks_bind (asks_rngBytes _) fun _ => asks_bind (asks_hashRequests _) fun _ => asks_pure _) hexec hok
  obtain ⟨_, _, h1, hu⟩ := bind_eq_ok.1 hu
  obtain ⟨hs, rfl⟩ := raiseIf_eq_ok.1 h1
  obtain ⟨v, p, hv, hu⟩ := bind_eq_ok.1 hu
  obtain ⟨rfl, _⟩ := validate_eq_ok (keyForPrivate_eq_ok hv).2.2
  obtain ⟨_, _, h2, hu⟩ := bind_eq_ok.1 hu
  obtain ⟨hr, rfl⟩ := raiseIf_eq_ok.1 h2
  obtain ⟨_, _, h3, hu⟩ := bind_eq_ok.1 hu
  obtain ⟨hr', rfl⟩ := raiseIf_eq_ok.1 h3
  obtain ⟨_, _, h4, hu⟩ := bind_eq_ok.1 hu
  obtain ⟨hfit, rfl⟩ := raiseIf_eq_ok.1 h4
  obtain ⟨_, _, _, hu⟩ := bind_eq_ok.1 hu
  obtain ⟨salt, _, hsalt, hu⟩ := bind_eq_ok.1 hu
  obtain ⟨_, _, _, hu⟩ := bind_eq_ok.1 hu
  cases hu
  have hlen := rngBytes_length hsalt
  refine ⟨salt, q, hlen, by simpa using hs, not_lt.1 hr, not_lt.1 hr', hlen ▸ not_lt.1 hfit, ?_⟩
  rw [← powMod_eq]

/-! ### The round trips -/

/-- A validation asks the hash unit nothing. -/
theorem KeyUsable.hash_eq {s : State} {k : Slot} {p q : Ports} (h : KeyUsable s k p q) : q.hash = p.hash := by
  have hasks := asks_validate (hash := false) s k p
  rw [validate_of_usable h] at hasks
  exact hasks.hashKept rfl

theorem KeyUsable.hashAnswers {s : State} {k : Slot} {p q : Ports} (h : KeyUsable s k p q) (ha : HashAnswers p) :
    HashAnswers q := by
  unfold HashAnswers
  rwa [h.hash_eq]

theorem HashAnswers.exec {i : Instr} {s t : State} (ha : HashAnswers s.ports) (h : exec i s = .next t) :
    HashAnswers t.ports :=
  fun a hm => ha a ((exec_ports h).hashRest.subset hm)

/-- The state in which the second command of a round trip runs: the first one has validated slot k and stored x in n
bytes, and the second has latched its own arguments. -/
def State.stored (s : State) (k : Slot) (off x n : Nat) (p : Ports) (a : Vector Word 8) : State :=
  { (((s.markChecked k).memWrite off (i2osp x n)).setRes n).completeWith .ok p with argL := a }

section

variable (s : State) (k : Slot) (off x n : Nat) (p : Ports) (a : Vector Word 8)

@[simp] theorem State.stored_par : (s.stored k off x n p a).par = s.par := s.markChecked_par k

theorem State.stored_slot (j : Slot) : ∃ c, (s.stored k off x n p a).slot j = { s.slot j with checked := c } := by
  have hslot : (s.stored k off x n p a).slot j = (s.markChecked k).slot j := State.slot_congr rfl rfl j
  rw [hslot, State.markChecked_slot]
  split_ifs with hj
  · exact ⟨true, by rw [hj]⟩
  · exact ⟨(s.slot j).checked, rfl⟩

theorem State.stored_bufByte (j : Nat) : (s.stored k off x n p a).bufByte j = (s.memWrite off (i2osp x n)).bufByte j :=
  State.bufByte_congr (s := s.memWrite off (i2osp x n)) (t := s.stored k off x n p a)
    (congrArg (memWriteBytes · off (i2osp x n)) (s.markChecked_buf k)) (s.markChecked_resets k) j

theorem State.stored_memRead_self : (s.stored k off x n p a).memRead off n = i2osp x n := by
  have h := s.memRead_memWrite_self off (i2osp x n)
  rw [i2osp_length] at h
  rw [← h]
  exact State.memRead_congr fun j _ _ => s.stored_bufByte k off x n p a j

theorem State.stored_memRead_of_disjoint {o l : Nat} (h : o + l ≤ off ∨ off + n ≤ o) :
    (s.stored k off x n p a).memRead o l = s.memRead o l := by
  refine State.memRead_congr fun j hj hj' => (s.stored_bufByte k off x n p a j).trans (s.memWrite_bufByte_outside ?_)
  rw [i2osp_length]
  omega

end

theorem State.hashSupported_congr {s t : State} (h : t.par = s.par) (hid : HashId) :
    t.hashSupported hid = s.hashSupported hid := by
  unfold State.hashSupported
  rw [h]

theorem KeySlot.os2ip_i2osp {v : KeySlot} {x : Nat} (h : x < v.n.val) : os2ip (i2osp x v.bytes) = x :=
  Machine.os2ip_i2osp (h.trans (lt_256_pow_ceil8 (lt_two_pow_bitlen _)))

/-- OAEPDEC of the encryption of an encoded message finds the message. -/
theorem exec_oaepdec_of_encrypted {s : State} {h : HashId} {k : Slot} {q : Ports} {m seed : Bytes}
    (hsup : s.hashSupported h = true) (hu : KeyUsable s k s.ports q) (ha : HashAnswers q) (hpriv : (s.slot k).priv = true)
    (hrsa : (s.slot k).Rsa) (hr : s.argLatched 0 + s.argLatched 1 ≤ s.par.bufBytes)
    (hr' : s.argLatched 2 + ((s.slot k).bytes - 2 * hLen h - 2) ≤ s.par.bufBytes) (hlen : s.argLatched 1 = (s.slot k).bytes)
    (hseed : seed.length = hLen h) (hcap : (m.length : Int) ≤ oaepCapacity (s.slot k).bytes h)
    (hread : s.memRead (s.argLatched 0) (s.argLatched 1) =
      i2osp (os2ip (oaepEncode h (s.slot k).bytes m seed) ^ (s.slot k).e.val % (s.slot k).n.val) (s.slot k).bytes) :
    ∃ p, exec (.oaepdec h k) s = .next ({ s.markChecked k with
      buf := memWriteBytes s.buf (s.argLatched 2) m
      res := BitVec.ofNat 32 m.length
      ports := p }.doneWith .ok) := by
  have hl := hLen_pos_of_supported hsup
  have hpos : 0 < (s.slot k).n.val := hrsa.two_le.trans' Nat.two_pos
  have hcipher := Nat.mod_lt (os2ip (oaepEncode h (s.slot k).bytes m seed) ^ (s.slot k).e.val) hpos
  replace hread := congrArg os2ip hread
  rw [KeySlot.os2ip_i2osp hcipher] at hread
  have hplain := hrsa.decrypt ((os2ip_oaepEncode_lt hl hcap hseed).trans_le (pow_256_ceil8_bitlen_pred_le hpos.ne'))
  have hdec : oaepDecode h (s.slot k).bytes (i2osp (os2ip (s.memRead (s.argLatched 0) (s.argLatched 1)) ^ (s.slot k).d.val %
      (s.slot k).n.val) (s.slot k).bytes) = some m := by
    have hem := i2osp_os2ip (oaepEncode h (s.slot k).bytes m seed)
    rw [oaepEncode_length hl hcap hseed] at hem
    rw [hread, hplain, hem, oaepDecode_oaepEncode hl hcap hseed]
  have hk : 2 * hLen h + 2 ≤ (s.slot k).bytes := Nat.le_of_add_left_le (le_oaepCapacity_iff.1 hcap)
  exact ⟨_, (oaepdecCompletesOrDecrypt s h k q hsup hu hpriv hr hr' hlen hk (hread.trans_lt hcipher)).1 m ha hdec⟩

/-- PSSVER of the signature of an encoded message accepts. -/
theorem exec_pssver_of_signed {s : State} {h : HashId} {k : Slot} {sh : Bool} {q : Ports} {salt : Bytes} {v : KeySlot}
    (hsup : s.hashSupported h = true) (hu : KeyUsable s k s.ports q) (ha : HashAnswers q)
    (hr : s.argLatched 0 + s.argLatched 1 ≤ s.par.bufBytes) (hr' : s.argLatched 3 + s.argLatched 4 ≤ s.par.bufBytes)
    (hlen : s.argLatched 4 = v.bytes) (hsalt : salt.length = s.saltLen h sh)
    (hfit : hLen h + salt.length + 2 ≤ ceil8 v.emBits) (hrsa : v.Rsa)
    (hn : (s.slot k).n = v.n) (he : (s.slot k).e = v.e)
    {em : Bytes} (hem : pssEncode h v.emBits (hashFn h (s.memRead (s.argLatched 0) (s.argLatched 1))) salt = em)
    (hread : s.memRead (s.argLatched 3) (s.argLatched 4) = i2osp (os2ip em ^ v.d.val % v.n.val) v.bytes) :
    ∃ p, exec (.pssver h k sh) s = .next ({ s.markChecked k with
      bFlag := true
      res := 1#32
      ports := p }.doneWith .ok) := by
  have hl := hLen_pos_of_supported hsup
  have hpos : 0 < v.n.val := hrsa.two_le.trans' Nat.two_pos
  have hlt : os2ip em < 2 ^ v.emBits := hem ▸ os2ip_pssEncode_lt hl hfit
  have hcore : pssVerifyCore h v.emBits (hashFn h (s.memRead (s.argLatched 0) (s.argLatched 1)))
      (i2osp (os2ip em) (ceil8 v.emBits)) (s.saltLen h sh) = true := by
    rw [← hsalt, ← pssEncode_length hl hfit, hem, i2osp_os2ip, ← hem]
    exact pssVerifyCore_pssEncode hl hfit
  have hsig := Nat.mod_lt (os2ip em ^ v.d.val) hpos
  replace hread := congrArg os2ip hread
  rw [KeySlot.os2ip_i2osp hsig] at hread
  have hm := hrsa.verify (hlt.trans_le (two_pow_bitlen_le hpos.ne'))
  obtain ⟨ok, p, _, _, hok, hexec⟩ := pssverIsAPredicate s h k sh q hsup hu ha hr hr'
  rw [hread, hn, he, hm] at hok
  obtain rfl : ok = true := hok.2 ⟨hlen, hsig, lt_256_pow_ceil8 hlt, hcore⟩
  exact ⟨p, hexec⟩

theorem State.stored_eq {s t : State} {k : Slot} {off x n : Nat} {p : Ports}
    (h : t = (((s.markChecked k).memWrite off (i2osp x n)).setRes n).completeWith .ok p) (a : Vector Word 8) :
    { t with argL := a } = s.stored k off x n p a := by
  rw [h]
  rfl

/-- Settles O59: the encoded message is below the modulus, so that decrypting gives it back, and decoding the message. -/
theorem oaepRoundTrip : Obligations.OaepRoundTrip := by
  unfold Obligations.OaepRoundTrip
  intro s t h ke kd dst q ha hs hpriv hp hq hpq hn hed hne hee hexec hok t' hu hdst
  have hrsa : (s.slot kd).Rsa := ⟨hp, hq, hpq, hn, hed⟩
  have ha' : HashAnswers q := hu.hashAnswers (HashAnswers.exec (t := t) ha hexec)
  obtain ⟨seed, p, hseed, hsup, hr, hr', hcap, ht⟩ := exec_oaepenc_ok hexec hok
  have hbytes : (s.slot ke).bytes = (s.slot kd).bytes := by rw [KeySlot.bytes, hne, KeySlot.bytes]
  rw [hbytes, hne, hee] at ht
  rw [hbytes] at hr' hcap
  have h1 : t'.argLatched 1 = (s.slot kd).bytes := by
    have hres : t.res = BitVec.ofNat 32 (s.slot kd).bytes := by rw [ht]; rfl
    rw [← toNat_ofNat_of_le_bufBytes hs.params (Nat.le_of_add_left_le hr'), ← hres]
    simp [t', State.argLatched]
  have h0 : t'.argLatched 0 = s.argLatched 2 := by simp [t', State.argLatched]
  have h2 : t'.argLatched 2 = dst.toNat := by simp [t', State.argLatched]
  have ht' : t' = _ := State.stored_eq ht _
  have hpar : t'.par = s.par := ht' ▸ State.stored_par ..
  have hread := (congrArg (State.memRead · (s.argLatched 2) (s.slot kd).bytes) ht').trans (State.stored_memRead_self ..)
  obtain ⟨c, hslot⟩ : ∃ c, t'.slot kd = { s.slot kd with checked := c } := ht' ▸ State.stored_slot ..
  clear_value t'
  have hrsa' : (t'.slot kd).Rsa := by rw [hslot]; exact ⟨hp, hq, hpq, hn, hed⟩
  have hbytes' : (t'.slot kd).bytes = (s.slot kd).bytes := by rw [hslot]; rfl
  obtain ⟨p', hdec⟩ := exec_oaepdec_of_encrypted (m := s.memRead (s.argLatched 0) (s.argLatched 1))
    ((State.hashSupported_congr hpar h).trans hsup) hu ha' (by rw [hslot]; exact hpriv) hrsa' (by rwa [h0, h1, hpar])
    (by rwa [h2, hpar, hbytes']) (h1.trans hbytes'.symm) hseed (by rwa [State.memRead_length, hbytes'])
    (by rw [h0, h1, hread, hbytes', hslot])
  refine ⟨_, hdec, rfl, ?_, ?_⟩
  · rw [State.memRead_length]
    exact toNat_ofNat_of_le_bufBytes hs.params (Nat.le_of_add_left_le hr)
  · have hself := t'.memRead_memWrite_self (t'.argLatched 2) (s.memRead (s.argLatched 0) (s.argLatched 1))
    rw [State.memRead_length, h2] at hself
    refine Eq.trans (State.memRead_congr fun j _ _ => State.bufByte_congr ?_ ?_ j) hself
    · rw [← h2]
      rfl
    · exact t'.markChecked_resets kd

/-- Settles O60: the encoded message is below the modulus, so that the verifier recovers it, and accepts it. -/
theorem pssRoundTrip : Obligations.PssRoundTrip := by
  unfold Obligations.PssRoundTrip
  intro s t h kd ke sh q ha hs hpriv hp hq hpq hn hed hne hee hdisj hexec hok t' hu
  have hrsa : (s.slot kd).Rsa := ⟨hp, hq, hpq, hn, hed⟩
  have ha' : HashAnswers q := hu.hashAnswers (HashAnswers.exec (t := t) ha hexec)
  obtain ⟨salt, p, hsalt, hsup, hr, hr', hfit, ht⟩ := exec_psssign_ok hexec hok
  have h4 : t'.argLatched 4 = (s.slot kd).bytes := by
    have hres : t.res = BitVec.ofNat 32 (s.slot kd).bytes := by rw [ht]; rfl
    rw [← toNat_ofNat_of_le_bufBytes hs.params (Nat.le_of_add_left_le hr'), ← hres]
    simp [t', State.argLatched]
  have h3 : t'.argLatched 3 = s.argLatched 2 := by simp [t', State.argLatched]
  have hargs : t.argL = s.argL := by rw [ht]; exact s.markChecked_argL kd
  have h0 : t'.argLatched 0 = s.argLatched 0 := by simp [t', State.argLatched, hargs]
  have h1 : t'.argLatched 1 = s.argLatched 1 := by simp [t', State.argLatched, hargs]
  have h5 : t'.saltLen h sh = s.saltLen h sh := by simp [t', State.saltLen, State.argLatched, hargs]
  have ht' : t' = _ := State.stored_eq ht _
  have hpar : t'.par = s.par := ht' ▸ State.stored_par ..
  have hread := (congrArg (State.memRead · (s.argLatched 2) (s.slot kd).bytes) ht').trans (State.stored_memRead_self ..)
  have hmsg := (congrArg (State.memRead · (s.argLatched 0) (s.argLatched 1)) ht').trans
    (State.stored_memRead_of_disjoint _ _ _ _ _ _ _ hdisj)
  obtain ⟨c, hslot⟩ : ∃ c, t'.slot ke = { s.slot ke with checked := c } := ht' ▸ State.stored_slot ..
  clear_value t'
  obtain ⟨p', hver⟩ := exec_pssver_of_signed (salt := salt) (sh := sh) ((State.hashSupported_congr hpar h).trans hsup) hu ha'
    (by rwa [h0, h1, hpar]) (by rwa [h3, h4, hpar]) h4 (hsalt.trans h5.symm) hfit hrsa
    (by rw [hslot]; exact hne) (by rw [hslot]; exact hee) (by rw [h0, h1, hmsg]) (by rw [h3, h4, hread])
  exact ⟨_, hver, rfl, rfl, rfl⟩

end Sys2Proof.Machine

/-! ## A command reads its source registers only (10_state.md R24)

The bodies of a command on two states that differ in registers it does not read ask the same of the agents and end alike:
well, with states that differ in registers only, or with the same error. -/

namespace Sys2Proof.Machine

open Sys2Proof

/-- The state with other big registers. -/
def State.withRegs (s : State) (b : Vector BigReg 16) : State := { s with b := b }

@[simp] theorem State.withRegs_slot (s : State) (b : Vector BigReg 16) (k : Slot) : (s.withRegs b).slot k = s.slot k := by
  cases k <;> rfl

@[simp] theorem State.withRegs_argLatched (s : State) (b : Vector BigReg 16) (j : Fin 8) :
    (s.withRegs b).argLatched j = s.argLatched j := rfl

@[simp] theorem State.withRegs_memRead (s : State) (b : Vector BigReg 16) (off n : Nat) :
    (s.withRegs b).memRead off n = s.memRead off n := rfl

/-- u is t but for big registers, and holds the same in the registers ds. -/
def SameBut (ds : List RegIdx) (u t : State) : Prop := ∃ b, u = t.withRegs b ∧ ∀ r ∈ ds, u.reg r = t.reg r

theorem SameBut.mono {ds ds' : List RegIdx} {u t : State} (h : SameBut ds u t) (hsub : ds' ⊆ ds) : SameBut ds' u t := by
  obtain ⟨b, hu, hreg⟩ := h
  exact ⟨b, hu, fun r hr => hreg r (hsub hr)⟩

theorem sameBut_nil {u t : State} (b : Vector BigReg 16) (h : u = t.withRegs b) : SameBut [] u t :=
  ⟨b, h, fun _ hr => absurd hr List.not_mem_nil⟩

theorem SameBut.putReg {ds : List RegIdx} {u t : State} (h : SameBut ds u t) (r : RegIdx) (v : Int) :
    SameBut (r :: ds) (u.putReg r v) (t.putReg r v) := by
  obtain ⟨b, rfl, hreg⟩ := h
  refine ⟨_, rfl, fun j hj => ?_⟩
  rw [State.putReg_reg, State.putReg_reg]
  split_ifs with hr
  · rfl
  · exact hreg j ((List.mem_cons.1 hj).resolve_left hr)

theorem SameBut.flagsOf {ds : List RegIdx} {u t : State} (h : SameBut ds u t) (v : Int) :
    SameBut ds (u.flagsOf v) (t.flagsOf v) := by
  obtain ⟨b, rfl, hreg⟩ := h
  exact ⟨b, rfl, hreg⟩

theorem SameBut.par_eq {ds : List RegIdx} {u t : State} (h : SameBut ds u t) : u.par = t.par := by
  obtain ⟨b, rfl, _⟩ := h
  rfl

theorem SameBut.store {ds : List RegIdx} {u t : State} (h : SameBut ds u t) (off n : Nat) (bs : Bytes) :
    SameBut ds ((u.memWrite off bs).setRes n) ((t.memWrite off bs).setRes n) := by
  obtain ⟨b, rfl, hreg⟩ := h
  exact ⟨b, rfl, hreg⟩

theorem SameBut.answer {ds : List RegIdx} {u t : State} (h : SameBut ds u t) (ok : Bool) (n : Nat) :
    SameBut ds ((u.setBFlag ok).setRes n) ((t.setBFlag ok).setRes n) := by
  obtain ⟨b, rfl, hreg⟩ := h
  exact ⟨b, rfl, hreg⟩

theorem sameBut_setSlot (s : State) (b : Vector BigReg 16) (k : Slot) (v : KeySlot) :
    SameBut [] ((s.withRegs b).setSlot k v) (s.setSlot k v) := by
  cases k <;> exact sameBut_nil b rfl

/-- Two parts of bodies that end alike from the same ports: well, with related answers, or with one error, not OK. -/
def Alike {α : Type} (R : α → α → Prop) (c d : Cmd α) : Prop :=
  ∀ p, match c p, d p with
    | .ok a q, .ok b r => q = r ∧ R a b
    | .error e q, .error f r => e = f ∧ q = r ∧ f ≠ .raise .ok
    | _, _ => False

section

variable {α β : Type} {R : α → α → Prop} {S : β → β → Prop}

theorem alike_pure {a b : α} (h : R a b) : Alike R (pure a) (pure b) := fun _ => ⟨rfl, h⟩

theorem alike_raise {e : ErrCode} (h : e ≠ .ok) : Alike R (raise e) (raise e) :=
  fun _ => ⟨rfl, rfl, fun he => h (Stop.raise.inj he)⟩

/-- A part of the command that reads no register is the same in both bodies. -/
theorem alike_of_asks {c : Cmd α} (h : Asks true true c) : Alike Eq c c := by
  intro p
  have hp := h p
  cases hc : c p with
  | ok a q => exact ⟨rfl, rfl⟩
  | error e q =>
    rw [hc] at hp
    exact ⟨rfl, rfl, hp.2.code⟩

theorem Alike.bind {c d : Cmd α} {f g : α → Cmd β} (h : Alike R c d) (k : ∀ a b, R a b → Alike S (f a) (g b)) :
    Alike S (c >>= f) (d >>= g) := by
  intro p
  have hp := h p
  rw [bind_apply, bind_apply]
  cases hc : c p <;> cases hd : d p <;> rw [hc, hd] at hp
  case ok.ok a q b r =>
    obtain ⟨rfl, hab⟩ := hp
    exact k a b hab q
  case error.error => exact hp
  all_goals exact hp.elim

theorem alike_seq {c : Cmd α} {f g : α → Cmd β} (h : Asks true true c) (k : ∀ a, Alike S (f a) (g a)) :
    Alike S (c >>= f) (c >>= g) :=
  (alike_of_asks h).bind fun a _ hab => hab ▸ k a

end

section

variable {ds : List RegIdx} {s t u : State} {b : Vector BigReg 16}

theorem alike_readReg {r : RegIdx} {f g : Int → Cmd State} (h : (s.withRegs b).reg r = s.reg r)
    (k : ∀ v, Alike (SameBut ds) (f v) (g v)) :
    Alike (SameBut ds) (readReg (s.withRegs b) r >>= f) (readReg s r >>= g) := by
  have hread : readReg (s.withRegs b) r = readReg s r := by
    unfold readReg
    rw [h]
  rw [hread]
  exact alike_seq (asks_readReg s r) k

theorem alike_stageReg (h : SameBut ds u t) (r : RegIdx) (v : Int) :
    Alike (SameBut (r :: ds)) (stageReg u r v) (stageReg t r v) := by
  unfold stageReg
  rw [h.par_eq]
  split_ifs
  · exact alike_pure (h.putReg r v)
  · exact alike_raise (by decide)

theorem alike_stageResult (s : State) (b : Vector BigReg 16) (r : RegIdx) (v : Int) :
    Alike (SameBut [r]) (stageResult (s.withRegs b) r v) (stageResult s r v) :=
  (alike_stageReg (sameBut_nil b rfl) r v).bind fun _ _ h => alike_pure (h.flagsOf v)

theorem alike_validate (s : State) (b : Vector BigReg 16) (k : Slot) :
    Alike (SameBut []) (validate (s.withRegs b) k) (validate s k) := by
  unfold validate
  rw [State.withRegs_slot]
  split_ifs
  · exact alike_pure (sameBut_nil b rfl)
  · exact alike_seq (asks_raiseIf (by decide)) fun _ => alike_seq (asks_validatePrivate s _) fun _ =>
      alike_pure (sameBut_setSlot s b k _)

theorem alike_keyForPublic (s : State) (b : Vector BigReg 16) (k : Slot) :
    Alike (SameBut []) (keyForPublic (s.withRegs b) k) (keyForPublic s k) := by
  unfold keyForPublic
  rw [State.withRegs_slot]
  exact alike_seq (asks_raiseIf (by decide)) fun _ => alike_validate s b k

theorem alike_keyForPrivate (s : State) (b : Vector BigReg 16) (k : Slot) :
    Alike (SameBut []) (keyForPrivate (s.withRegs b) k) (keyForPrivate s k) := by
  unfold keyForPrivate
  rw [State.withRegs_slot]
  exact alike_seq (asks_raiseIf (by decide)) fun _ => alike_seq (asks_raiseIf (by decide)) fun _ => alike_validate s b k

end

/-- The bodies of a command on two states that agree on its sources. -/
theorem exec_alike (i : Instr) (s : State) (b : Vector BigReg 16) (h : ∀ r ∈ srcRegs i, (s.withRegs b).reg r = s.reg r) :
    ∃ c d, exec i (s.withRegs b) = runBody (s.withRegs b) c ∧ exec i s = runBody s d ∧
      Alike (SameBut (destRegs i)) c d := by
  cases i <;> simp only [exec, execNop, execKclr] <;> refine ⟨_, _, rfl, rfl, ?_⟩ <;>
    simp only [srcRegs, List.forall_mem_cons] at h <;>
    simp only [destRegs, State.withRegs_slot, State.withRegs_argLatched, State.withRegs_memRead]
  case nop => exact alike_pure (sameBut_nil b rfl)
  case add | sub | mul | gcd =>
    exact alike_readReg h.1 fun _ => alike_readReg h.2.1 fun _ => alike_stageResult s b _ _
  case div | rem =>
    exact alike_readReg h.1 fun _ => alike_readReg h.2.1 fun _ => alike_seq (asks_raiseIf (by decide)) fun _ =>
      alike_stageResult s b _ _
  case neg | mov | bitlen => exact alike_readReg h.1 fun _ => alike_stageResult s b _ _
  case ldi => exact alike_stageResult s b _ _
  case cmp => exact alike_readReg h.1 fun _ => alike_readReg h.2.1 fun _ => alike_pure (sameBut_nil b rfl)
  case modred =>
    exact alike_readReg h.1 fun _ => alike_readReg h.2.1 fun _ => alike_seq (asks_checkModulus _) fun _ =>
      alike_stageResult s b _ _
  case modmul =>
    obtain ⟨ha, hb, hm, _⟩ := h
    exact alike_readReg ha fun _ => alike_readReg hb fun _ => alike_readReg hm fun _ =>
      alike_seq (asks_checkModulus _) fun _ => alike_stageResult s b _ _
  case modexp =>
    obtain ⟨hb, he, hm, _⟩ := h
    exact alike_readReg hb fun _ => alike_readReg he fun _ => alike_readReg hm fun _ =>
      alike_seq (asks_checkModulus _) fun _ => alike_seq (asks_raiseIf (by decide)) fun _ => alike_stageResult s b _ _
  case modinv =>
    exact alike_readReg h.1 fun _ => alike_readReg h.2.1 fun _ => alike_seq (asks_checkModulus _) fun _ =>
      alike_seq (asks_raiseIf (by decide)) fun _ => alike_stageResult s b _ _
  case xgcd =>
    exact alike_seq (asks_raiseIf (by decide)) fun _ => alike_readReg h.1 fun _ => alike_readReg h.2.1 fun _ =>
      (alike_stageReg (sameBut_nil b rfl) _ _).bind fun _ _ hg => (alike_stageReg hg _ _).bind fun _ _ hx =>
      (alike_stageReg hx _ _).bind fun _ _ hy => alike_pure ((hy.mono (by simp)).flagsOf _)
  case mrtest =>
    exact alike_readReg h.1 fun _ => alike_seq (asks_millerRabin _ _ _) fun _ => alike_pure (sameBut_nil b rfl)
  case rndb =>
    exact alike_seq (asks_checkRange _ _ _) fun _ => alike_seq (asks_rngBytes _) fun _ => alike_pure (sameBut_nil b rfl)
  case rndbelow =>
    exact alike_readReg h.1 fun _ => alike_seq (asks_raiseIf (by decide)) fun _ => alike_seq (asks_randBelow _ _) fun _ =>
      alike_stageResult s b _ _
  case rndodd =>
    exact alike_seq (asks_raiseIf (by decide)) fun _ => alike_seq (asks_raiseIf (by decide)) fun _ =>
      alike_seq (asks_rngBytes _) fun _ => alike_stageResult s b _ _
  case ldb => exact alike_seq (asks_checkRange _ _ _) fun _ => alike_stageResult s b _ _
  case stb =>
    exact alike_readReg h.1 fun _ => alike_seq (asks_checkRange _ _ _) fun _ => alike_seq (asks_raiseIf (by decide)) fun _ =>
      alike_seq (asks_raiseIf (by decide)) fun _ => alike_pure (sameBut_nil b rfl)
  case stbm =>
    exact alike_readReg h.1 fun _ => alike_seq (asks_raiseIf (by decide)) fun _ => alike_seq (asks_checkRange _ _ _) fun _ =>
      alike_pure (sameBut_nil b rfl)
  case hash =>
    exact alike_seq (asks_requireHash _ _) fun _ => alike_seq (asks_checkRange _ _ _) fun _ =>
      alike_seq (asks_checkRange _ _ _) fun _ => alike_seq asks_hashRequest fun _ => alike_pure (sameBut_nil b rfl)
  case mgf1 =>
    exact alike_seq (asks_requireHash _ _) fun _ => alike_seq (asks_checkRange _ _ _) fun _ =>
      alike_seq (asks_checkRange _ _ _) fun _ => alike_seq (asks_hashRequests _) fun _ => alike_pure (sameBut_nil b rfl)
  case kset =>
    exact alike_readReg h.1 fun _ => alike_seq (asks_raiseIf (by decide)) fun _ => alike_seq (asks_raiseIf (by decide)) fun _ =>
      alike_seq (asks_raiseIf (by decide)) fun _ => alike_pure (sameBut_setSlot s b _ _)
  case kget => exact alike_seq (asks_raiseIf (by decide)) fun _ => alike_stageResult s b _ _
  case kclr => exact alike_pure (sameBut_setSlot s b _ _)
  case kpub => exact alike_seq (asks_raiseIf (by decide)) fun _ => alike_pure (sameBut_setSlot s b _ _)
  case kchk =>
    exact alike_seq (asks_raiseIf (by decide)) fun _ => (alike_validate s b _).bind fun _ _ hv => alike_pure (hv.answer _ _)
  case oaepenc =>
    exact alike_seq (asks_requireHash _ _) fun _ => (alike_keyForPublic s b _).bind fun _ _ hv =>
      alike_seq (asks_checkRange _ _ _) fun _ => alike_seq (asks_checkRange _ _ _) fun _ =>
      alike_seq (asks_raiseIf (by decide)) fun _ => alike_seq (asks_rngBytes _) fun _ =>
      alike_seq (asks_hashRequests _) fun _ => alike_pure (hv.store _ _ _)
  case oaepdec =>
    refine alike_seq (asks_requireHash _ _) fun _ => (alike_keyForPrivate s b _).bind fun _ _ hv =>
      alike_seq (asks_checkRange _ _ _) fun _ => alike_seq (asks_checkRange _ _ _) fun _ =>
      alike_seq (asks_raiseIf (by decide)) fun _ => alike_seq (asks_raiseIf (by decide)) fun _ =>
      alike_seq (asks_raiseIf (by decide)) fun _ => alike_seq (asks_hashRequests _) fun _ => ?_
    split
    · exact alike_raise (by decide)
    · exact alike_pure (hv.store _ _ _)
  case psssign =>
    exact alike_seq (asks_requireHash _ _) fun _ => (alike_keyForPrivate s b _).bind fun _ _ hv =>
      alike_seq (asks_checkRange _ _ _) fun _ => alike_seq (asks_checkRange _ _ _) fun _ =>
      alike_seq (asks_raiseIf (by decide)) fun _ => alike_seq asks_hashRequest fun _ =>
      alike_seq (asks_rngBytes _) fun _ => alike_seq (asks_hashRequests _) fun _ => alike_pure (hv.store _ _ _)
  case pssver =>
    refine alike_seq (asks_requireHash _ _) fun _ => (alike_keyForPublic s b _).bind fun _ _ hv =>
      alike_seq (asks_checkRange _ _ _) fun _ => alike_seq (asks_checkRange _ _ _) fun _ =>
      alike_seq asks_hashRequest fun _ => ?_
    split
    · exact alike_pure (hv.answer _ _)
    · exact alike_seq (asks_hashRequests _) fun _ => alike_pure (hv.answer _ _)

/-- Settles O23: the bodies on the two states end alike. -/
theorem commandsReadOnlyTheirSources : Obligations.CommandsReadOnlyTheirSources := by
  unfold Obligations.CommandsReadOnlyTheirSources
  intro i s t b hsrc h
  obtain ⟨c, d, hc, hd, halike⟩ := exec_alike i s b hsrc
  rw [hd] at h
  have hp := halike s.ports
  rcases runBody_next h with ⟨t, q, hbody, rfl⟩ | ⟨e, q, hbody, rfl⟩
  · rw [hbody] at hp
    cases hother : c s.ports with
    | error => rw [hother] at hp; exact hp.elim
    | ok u r =>
      rw [hother] at hp
      obtain ⟨rfl, b', rfl, hreg⟩ := hp
      exact ⟨_, hc.trans (runBody_of_ok hother), rfl, fun r hr _ => hreg r hr⟩
  · rw [hbody] at hp
    cases hother : c s.ports with
    | ok => rw [hother] at hp; exact hp.elim
    | error f r =>
      rw [hother] at hp
      obtain ⟨rfl, rfl, hne⟩ := hp
      exact ⟨_, hc.trans (runBody_of_raise hother), rfl, fun _ _ hok => absurd (congrArg Stop.raise hok) hne⟩

end Sys2Proof.Machine
